-- ==== Sys2Proof/Word.lean ====
section
/-! DEFINITION. The words of the engine: every bit vector the spec gives a width (00_scope.md R5, R8). All values are
unsigned; bit 0 is the least significant bit. -/

namespace Sys2Proof

/-- A byte of `MEM` or of a line payload (R21, R29). -/
abbrev Byte := BitVec 8

/-- An address of `MEM`, `ADDR_W` = 18 bits (R5, R36). -/
abbrev Addr := BitVec 18

/-- The tag of an address or of a line, `TAG_W` = 8 bits (R19, R69). -/
abbrev Tag := BitVec 8

/-- The index of an address, the number of a set, `INDEX_W` = 5 bits (R16, R69). -/
abbrev Index := BitVec 5

/-- The offset of an address in its line, `OFFSET_W` = 5 bits (R69). -/
abbrev Offset := BitVec 5

/-- The write data field and the read data field, 32 bits (R59, R60). -/
abbrev Data := BitVec 32

/-- The 64-bit command word `CW` (R54), and the 64-bit response word `RW` (R61). -/
abbrev Word := BitVec 64

/-- The 32-byte payload of a line (R21). -/
abbrev Payload := Vector Byte 32

end Sys2Proof
end

