-- ==== Sys2Proof/Config.lean ====
section
/-! DEFINITION. What an implementation fixes: the geometry (R5, R6), the open parameters (R7) and the one free value,
the contents of the backing store before anything has been written to it (R29, D16). -/

namespace Sys2Proof

/-- The named constants of the geometry (00_scope.md R5). -/
structure Geometry where
  addrW : Nat
  offsetW : Nat
  indexW : Nat
  tagW : Nat
  line : Nat
  sets : Nat
  ways : Nat
  memSize : Nat
deriving DecidableEq, Repr

/-- The constraint of 00_scope.md R6 with the positivity of R131: the three fields partition the address, the sizes are
the powers of two of their widths, and none is zero. -/
def Geometry.legal (g : Geometry) : Bool :=
  g.tagW + g.indexW + g.offsetW == g.addrW && g.sets == 2 ^ g.indexW && g.line == 2 ^ g.offsetW &&
    g.memSize == 2 ^ g.addrW && 0 < g.sets && 0 < g.ways && 0 < g.line && 0 < g.memSize

/-- The open widths of the engine, `AGE_W` and `CNT_W` (00_scope.md R7, D12, D13): `none` is infinity, the spec's
default, and `some w` is `w` bits. They are fixed for the life of a machine (log entry 3). -/
structure Params where
  ageW : Option Nat
  cntW : Option Nat
deriving DecidableEq, Repr

namespace Config

/-- The geometry of this hardware, fixed (R5). -/
def geometry : Geometry where
  addrW := 18
  offsetW := 5
  indexW := 5
  tagW := 8
  line := 32
  sets := 32
  ways := 4
  memSize := 262144

/-- `MEM_SIZE`, the number of bytes of the backing store (R5, R29). -/
abbrev memSize : Nat := 262144

/-- DESIGN CHOICE (log entry 1): `MEM_INIT`, the byte an address of `MEM` holds when the first command is accepted and
nothing has been written to it (R29, R151, D16). The spec gives no value and says that none may be assumed, so this is an
uninterpreted constant: a statement about it holds for every `MEM_INIT`. -/
opaque memInit : Nat → BitVec 8

/-- The parameters the spec takes as default: ages and counters are natural numbers (R7). -/
def defaultParams : Params where
  ageW := none
  cntW := none

end Config

end Sys2Proof
end

