-- ==== Sys2Proof/Syntax.lean ====
section
/-! DEFINITION. The syntax: the eight commands of spec/opcode_table.json (30_encoding.md R64) and the abstract access
event they carry (R53, R108). -/

namespace Sys2Proof

/-- The eight commands (R64). A constructor keeps EVERY bit of its command word that the opcode table leaves free, the
fields the command ignores (R66) too, because a fault records the whole command word in `INFO` (R33, R129). The fields
have exactly the widths of the encoding (R55), so every term has a command word. -/
inductive Instr where
  /-- `RD1 addr`: read one byte; `wdata` is ignored (R110, R66). -/
  | rd1 (addr : Addr) (wdata : Data)
  /-- `RD2 addr`: read two bytes; `wdata` is ignored (R111, R66). -/
  | rd2 (addr : Addr) (wdata : Data)
  /-- `RD4 addr`: read four bytes; `wdata` is ignored (R112, R66). -/
  | rd4 (addr : Addr) (wdata : Data)
  /-- `WR1 addr, value`: write one byte; bits 31:8 of `wdata` are ignored (R113, R59). -/
  | wr1 (addr : Addr) (wdata : Data)
  /-- `WR2 addr, value`: write two bytes; bits 31:16 of `wdata` are ignored (R114, R59). -/
  | wr2 (addr : Addr) (wdata : Data)
  /-- `WR4 addr, value`: write four bytes (R115). -/
  | wr4 (addr : Addr) (wdata : Data)
  /-- `FLUSH`: all three fields are ignored (R120, R66). -/
  | flush (size : BitVec 3) (addr : Addr) (wdata : Data)
  /-- `REPORT`: all three fields are ignored (R123, R66). -/
  | report (size : BitVec 3) (addr : Addr) (wdata : Data)
deriving DecidableEq, Repr

/-- Why a command word names no command (R65): these two are found by the decoder alone. -/
inductive DecodeError where
  /-- `RSV` is not 0, or `OP` is in 100 .. 111 (R65 (a), (b), R132). -/
  | illegalCommand
  /-- `OP` is READ or WRITE and `SIZE` is not 1, 2 or 4 (R65 (c), R133). -/
  | malformedEvent
deriving DecidableEq, Repr

/-- The abstract access event of R53 and R108, as the collaborator has it before it is encoded: plain numbers, checked by
`Event.wellFormed`. -/
structure Event where
  address : Nat
  size : Nat
  isWrite : Bool
  value : Option Nat
deriving DecidableEq, Repr

end Sys2Proof
end

