-- ==== Sys2Proof/WellFormed.lean ====
section
/-! DEFINITION. What a well-formed event is (44_engine_commands.md R108) and what a well-formed instruction is, the host's
duty of 70_reset_and_hazards.md R156, as checks. A term of `Instr` is always encodable (its fields have the widths of the
encoding); the one thing left to check is that its bytes lie in `MEM`. -/

namespace Sys2Proof

/-- The address of the event's lowest byte and its number of bytes; `none` for FLUSH and REPORT, which name no address
(R36, R58). -/
def Instr.span : Instr → Option (Addr × Nat)
  | .rd1 a _ => some (a, 1)
  | .rd2 a _ => some (a, 2)
  | .rd4 a _ => some (a, 4)
  | .wr1 a _ => some (a, 1)
  | .wr2 a _ => some (a, 2)
  | .wr4 a _ => some (a, 4)
  | .flush _ _ _ => none
  | .report _ _ _ => none

/-- Every byte the instruction names lies in `MEM`: `ADDR + SIZE - 1 <= 262143` (R42, R58, R156). -/
def Instr.wellFormed (i : Instr) : Bool :=
  match i.span with
  | some (a, n) => a.toNat + n ≤ Config.memSize
  | none => true

/-- `size` is one of 1, 2, 4 (R53). -/
def Event.sizeOk (e : Event) : Bool := e.size == 1 || e.size == 2 || e.size == 4

/-- The address of the event's lowest byte is in `0 .. 262143` (R58, R108). -/
def Event.addressOk (e : Event) : Bool := e.address < Config.memSize

/-- A write value is present exactly when the event is a write (R53, R108). -/
def Event.valueOk (e : Event) : Bool := e.value.isSome == e.isWrite

/-- The event is one that a READ or WRITE command carries (R53, R108). -/
def Event.wellFormed (e : Event) : Bool := e.sizeOk && e.addressOk && e.valueOk

/-- The host's duty for an event: every byte of it lies in `MEM` (R156). The command of a well-formed event that breaks it
faults with AddressRange (R58, R65 (d), R134). -/
def Event.inMem (e : Event) : Bool := e.address + e.size ≤ Config.memSize

end Sys2Proof
end

