-- ==== Sys2Proof/Decode.lean ====
section
/-! DEFINITION. The command word of 30_encoding.md: its fields (R55), the decoder (R56, R57, R64, R65), the encoder, the
event a command carries (R53) and the listing text of a command (R68). -/

namespace Sys2Proof

/-- `RSV`, bits 63:56 (R55). -/
def rsvOf (cw : Word) : BitVec 8 := cw.extractLsb' 56 8

/-- `OP`, bits 55:53 (R55, R56). -/
def opOf (cw : Word) : BitVec 3 := cw.extractLsb' 53 3

/-- `SIZE`, bits 52:50, the number of bytes itself (R55, R57). -/
def sizeOf (cw : Word) : BitVec 3 := cw.extractLsb' 50 3

/-- `ADDR`, bits 49:32 (R55, R58). -/
def addrOf (cw : Word) : Addr := cw.extractLsb' 32 18

/-- `WDATA`, bits 31:0 (R55, R59). -/
def wdataOf (cw : Word) : Data := cw.extractLsb' 0 32

/-- A READ (`OP` = 000) of the size the word names (R56, R57). -/
def decodeRead (cw : Word) : Except DecodeError Instr :=
  if sizeOf cw = 1#3 then .ok (.rd1 (addrOf cw) (wdataOf cw))
  else if sizeOf cw = 2#3 then .ok (.rd2 (addrOf cw) (wdataOf cw))
  else if sizeOf cw = 4#3 then .ok (.rd4 (addrOf cw) (wdataOf cw))
  else .error .malformedEvent

/-- A WRITE (`OP` = 001) of the size the word names (R56, R57). -/
def decodeWrite (cw : Word) : Except DecodeError Instr :=
  if sizeOf cw = 1#3 then .ok (.wr1 (addrOf cw) (wdataOf cw))
  else if sizeOf cw = 2#3 then .ok (.wr2 (addrOf cw) (wdataOf cw))
  else if sizeOf cw = 4#3 then .ok (.wr4 (addrOf cw) (wdataOf cw))
  else .error .malformedEvent

/-- The decoder: total on all 64-bit words (R64, R65). A word whose `RSV` is not 0 or whose `OP` is reserved is
IllegalCommand before its `SIZE` is looked at (R139). -/
def decode (cw : Word) : Except DecodeError Instr :=
  if rsvOf cw ≠ 0#8 then .error .illegalCommand
  else if opOf cw = 0#3 then decodeRead cw
  else if opOf cw = 1#3 then decodeWrite cw
  else if opOf cw = 2#3 then .ok (.flush (sizeOf cw) (addrOf cw) (wdataOf cw))
  else if opOf cw = 3#3 then .ok (.report (sizeOf cw) (addrOf cw) (wdataOf cw))
  else .error .illegalCommand

/-- A command word from its fields, most significant first (R55). -/
def packCommand (rsv : BitVec 8) (op size : BitVec 3) (addr : Addr) (wdata : Data) : Word :=
  rsv ++ op ++ size ++ addr ++ wdata

/-- The command word of an instruction (R55, R56, R57, R64). -/
def encode : Instr → Word
  | .rd1 a d => packCommand 0#8 0#3 1#3 a d
  | .rd2 a d => packCommand 0#8 0#3 2#3 a d
  | .rd4 a d => packCommand 0#8 0#3 4#3 a d
  | .wr1 a d => packCommand 0#8 1#3 1#3 a d
  | .wr2 a d => packCommand 0#8 1#3 2#3 a d
  | .wr4 a d => packCommand 0#8 1#3 4#3 a d
  | .flush z a d => packCommand 0#8 2#3 z a d
  | .report z a d => packCommand 0#8 3#3 z a d

/-- The instruction the decoder reads from a table word: every row of spec/opcode_table.json is one 64-bit command word
(R54, R67), and bits above `nbits` are 0. -/
def decodeTableWord (nbits w : Nat) : Option Instr :=
  match decode (BitVec.ofNat 64 (w % 2 ^ nbits)) with
  | .ok i => some i
  | .error _ => none

/-- The command that carries an access event (R55, R108), also one whose last byte passes `MEM`, which faults (R58, R134);
`none` when the event is not well formed. DEDUCED (log entry 23): a write value is taken to its low 32 bits, of which only
those the event's size uses have an effect (R59). -/
def Event.toInstr (e : Event) : Option Instr :=
  if e.wellFormed then
    let a := BitVec.ofNat 18 e.address
    match e.value, e.size with
    | none, 1 => some (.rd1 a 0#32)
    | none, 2 => some (.rd2 a 0#32)
    | none, 4 => some (.rd4 a 0#32)
    | some v, 1 => some (.wr1 a (BitVec.ofNat 32 v))
    | some v, 2 => some (.wr2 a (BitVec.ofNat 32 v))
    | some v, 4 => some (.wr4 a (BitVec.ofNat 32 v))
    | _, _ => none
  else none

/-- A number in C hexadecimal notation (R68). -/
def hexText (n : Nat) : String := "0x" ++ String.ofList (Nat.toDigits 16 n)

/-- The listing text of a command (R68). DESIGN CHOICE (log entry 22): numbers are written in hexadecimal. -/
def Instr.text : Instr → String
  | .rd1 a _ => "RD1 " ++ hexText a.toNat
  | .rd2 a _ => "RD2 " ++ hexText a.toNat
  | .rd4 a _ => "RD4 " ++ hexText a.toNat
  | .wr1 a d => "WR1 " ++ hexText a.toNat ++ ", " ++ hexText d.toNat
  | .wr2 a d => "WR2 " ++ hexText a.toNat ++ ", " ++ hexText d.toNat
  | .wr4 a d => "WR4 " ++ hexText a.toNat ++ ", " ++ hexText d.toNat
  | .flush _ _ _ => "FLUSH"
  | .report _ _ _ => "REPORT"

end Sys2Proof
end

