-- ==== Sys2Proof/Machine/State.lean ====
section
/-! DEFINITION. The state of the engine as plain data (10_state.md R15), the ports through which the host drives it, the
reasons a step can stop, and the state right after reset (R35, R148). -/

namespace Sys2Proof.Machine

/-- The two replacement policies, "a closed set of two variants" (R88). -/
inductive Policy where
  | lru
  | plru
deriving DecidableEq, Repr

/-- The `MODE` register (R30): which arrays are simulated. `unrecognised` is the value 3, which it holds after the
configuration error of R130. -/
inductive Mode where
  | both
  | lruOnly
  | plruOnly
  | unrecognised
deriving DecidableEq, Repr

/-- The `PHASE` register (R33); its value 3 never occurs. -/
inductive Phase where
  | run
  | done
  | error
deriving DecidableEq, Repr

/-- The `CAUSE` register: no fault, or the first fault taken (R33, R129). -/
inductive Cause where
  | none
  | configError
  | illegalCommand
  | malformedEvent
  | addressRange
  | protocol
  | ageOverflow
  | counterOverflow
deriving DecidableEq, Repr

/-- One way of a block (R16, R19 to R23): its tag, dirty flag, 32-byte payload and recency metadata. The metadata is an
age in `ARR[LRU]` (`ρ` is `Nat`, R22) and a used bit in `ARR[PLRU]` (`ρ` is `Bool`, R23). There is no valid bit: a way is
occupied exactly when its number is below its block's `occ` (R18). -/
structure Line (ρ : Type) where
  tag : Tag
  dirty : Bool
  data : Payload
  recency : ρ
deriving DecidableEq, Repr

/-- One block, or set (R16, R17): the occupancy counter and the four ways. -/
structure Block (ρ : Type) where
  occ : Nat
  lines : Vector (Line ρ) 4
deriving DecidableEq, Repr

/-- One cache array: 32 blocks (R16). -/
abbrev CacheArray (ρ : Type) := Vector (Block ρ) 32

/-- The backing store `MEM` (R29): the bytes that differ from what an unlisted address reads as, in the canonical form of
`Memory.wf`. -/
structure Memory where
  cells : List Host.Cell
deriving DecidableEq, Repr

/-- One move of the host (R160), taken between commands (R45). -/
inductive HostInput where
  /-- Present a command word on the command port (R54). -/
  | command (cw : Word)
  /-- Assert reset and release it with this `MODE_IN` (R63, R148, R150). -/
  | reset (modeIn : BitVec 2)
  /-- Load one byte of `MEM` (R151, R152, R160). -/
  | load (addr : Addr) (byte : Byte)
deriving DecidableEq, Repr

/-- The statistics record that answers REPORT (R62). -/
structure ReportRecord where
  valid : Bool
  mode : Mode
  requests : Nat
  hitsLru : Nat
  hitsPlru : Nat
  phase : Phase
  cause : Cause
deriving DecidableEq, Repr

/-- A response of the engine: the 64-bit response word `RW` of R61, or the record of R62. -/
inductive Response where
  | word (rw : Word)
  | record (r : ReportRecord)
deriving DecidableEq, Repr

/-- The whole state of the machine. The fields from `lru` to `info` are the spec's (R15); `params` holds the open widths
of R7 (log entry 3); `started`, `inputs` and `responses` are the model's own: whether a command has been accepted since
reset (log entry 6), the host's pending moves, oldest first (log entry 4), and the responses given, oldest first
(log entry 5). -/
structure State where
  /-- `AGE_W` and `CNT_W` (R7). -/
  params : Params
  /-- `ARR[LRU]` (R16 to R22). -/
  lru : CacheArray Nat
  /-- `ARR[PLRU]` (R16 to R21, R23). -/
  plru : CacheArray Bool
  /-- `MEM` (R29). -/
  mem : Memory
  /-- `MODE` (R30). -/
  mode : Mode
  /-- `REQUESTS` (R31). -/
  requests : Nat
  /-- `HITS_LRU` (R32). -/
  hitsLru : Nat
  /-- `HITS_PLRU` (R32). -/
  hitsPlru : Nat
  /-- `PHASE` (R33). -/
  phase : Phase
  /-- `CAUSE` (R33). -/
  cause : Cause
  /-- `INFO` (R33). -/
  info : Word
  started : Bool
  inputs : List HostInput
  responses : List Response
deriving DecidableEq, Repr

/-- Why the machine stops. Every fault of the spec is architectural: the engine goes on in phase ERROR and answers
(R137, R141), so none of them is here. -/
inductive Fault where
  /-- Raised by the step, never by a command, when the host writes `MEM` in phase RUN after the first command. The spec
  assumes it is never done and says that a model which allows the move gives it no meaning (R157, U9). SAFE: nothing can
  be proved past it. -/
  | hostWroteMem
deriving DecidableEq, Repr

/-- Why an instruction has no meaning here. -/
inductive Refusal where
  /-- Raised by an arm of `exec` whose instruction has no meaning yet; no arm is left. SAFE: nothing can be proved past
  it. -/
  | notModelled (mnemonic : String)
deriving DecidableEq, Repr

/-- A way right after reset. DESIGN CHOICE (log entry 2): the spec gives the tag, the dirty flag and the payload no reset
value and no rule reads them while the way is unoccupied (R35, R149); the model names zero. -/
def Line.atReset {ρ : Type} (recency : ρ) : Line ρ where
  tag := 0
  dirty := false
  data := Vector.replicate 32 0
  recency := recency

/-- An array right after reset: every block empty (R17, R148). -/
def CacheArray.atReset {ρ : Type} (recency : ρ) : CacheArray ρ :=
  Vector.replicate 32 { occ := 0, lines := Vector.replicate 4 (Line.atReset recency) }

/-- The machine right after reset (R35, R148) with `MODE_IN` = 00, the default (R30, R150), the default parameters (R7)
and no move of the host pending. The ages are 0 by DESIGN CHOICE (log entry 2); the used bits are 0 by R23. -/
def State.reset : State where
  params := Config.defaultParams
  lru := CacheArray.atReset 0
  plru := CacheArray.atReset false
  mem := { cells := [] }
  mode := .both
  requests := 0
  hitsLru := 0
  hitsPlru := 0
  phase := .run
  cause := .none
  info := 0
  started := false
  inputs := []
  responses := []

end Sys2Proof.Machine
end

