-- ==== Sys2Proof/Machine/Flags.lean ====
section
/-! DEFINITION. Codes and flags: the codes of MODE, PHASE and CAUSE (R30, R33, R63, R129), which arrays a mode enables
(R9), and the response word with its flags (R61). -/

namespace Sys2Proof.Machine

/-- The mode a `MODE_IN` value names (R30, R63). -/
def Mode.ofCode (c : BitVec 2) : Mode :=
  if c = 0#2 then .both else if c = 1#2 then .lruOnly else if c = 2#2 then .plruOnly else .unrecognised

/-- The two bits of the `MODE` register (R30). -/
def Mode.code : Mode → BitVec 2
  | .both => 0#2
  | .lruOnly => 1#2
  | .plruOnly => 2#2
  | .unrecognised => 3#2

/-- `enabled(P)` (R9); no array is enabled when `MODE` holds 3 (R130). -/
def enabled : Mode → Policy → Bool
  | .both, _ => true
  | .lruOnly, .lru => true
  | .lruOnly, .plru => false
  | .plruOnly, .lru => false
  | .plruOnly, .plru => true
  | .unrecognised, _ => false

/-- The two bits of the `PHASE` register (R33). -/
def Phase.code : Phase → BitVec 2
  | .run => 0#2
  | .done => 1#2
  | .error => 2#2

/-- The three bits of the `CAUSE` register (R129). -/
def Cause.code : Cause → BitVec 3
  | .none => 0#3
  | .configError => 1#3
  | .illegalCommand => 2#3
  | .malformedEvent => 3#3
  | .addressRange => 4#3
  | .protocol => 5#3
  | .ageOverflow => 6#3
  | .counterOverflow => 7#3

/-- The response word `RW` from its fields, most significant first (R61). -/
def responseWord (cause : Cause) (fault : Bool) (phase : Phase) (hitPlru hitLru : Bool) (rdata : Data) : Word :=
  0#24 ++ cause.code ++ BitVec.ofBool fault ++ phase.code ++ BitVec.ofBool hitPlru ++ BitVec.ofBool hitLru ++ rdata

/-- `RDATA`, bits 31:0 of a response word (R61). -/
def rdataOf (rw : Word) : Data := rw.extractLsb' 0 32

/-- `HIT_LRU`, bit 32 (R61). -/
def hitLruOf (rw : Word) : BitVec 1 := rw.extractLsb' 32 1

/-- `HIT_PLRU`, bit 33 (R61). -/
def hitPlruOf (rw : Word) : BitVec 1 := rw.extractLsb' 33 1

/-- `PHASE`, bits 35:34 (R61). -/
def phaseOf (rw : Word) : BitVec 2 := rw.extractLsb' 34 2

/-- `FAULT`, bit 36 (R61). -/
def faultOf (rw : Word) : BitVec 1 := rw.extractLsb' 36 1

/-- `CAUSE`, bits 39:37 (R61). -/
def causeOf (rw : Word) : BitVec 3 := rw.extractLsb' 37 3

/-- The reserved bits 63:40, which read as 0 (R61). -/
def reservedOf (rw : Word) : BitVec 24 := rw.extractLsb' 40 24

/-- A natural number of the given width is at its largest value, `2^w - 1`; an unbounded one never is (R97, R136). -/
def atLimit (width : Option Nat) (n : Nat) : Bool :=
  match width with
  | none => false
  | some w => n == 2 ^ w - 1

end Sys2Proof.Machine
end

