-- ==== Sys2Proof/Machine/Operands.lean ====
section
/-! DEFINITION. Operands: the address decomposer (40_address_decomposer.md), the range check, and the byte sub-accesses a
command is split into, with the assembly and disassembly of their bytes (R41, R43, R59, R60, R118). -/

namespace Sys2Proof.Machine

/-- The triple `(tag, index, offset)` of an address (R69). -/
structure AddrFields where
  tag : Tag
  index : Index
  offset : Offset
deriving DecidableEq, Repr

/-- `Decompose(a)`: tag = a[17:10], index = a[9:5], offset = a[4:0] (R69). -/
def decompose (a : Addr) : AddrFields where
  tag := a.extractLsb' 10 8
  index := a.extractLsb' 5 5
  offset := a.extractLsb' 0 5

/-- `LineBase(a) = a[17:5] ++ 00000` (R71). -/
def lineBase (a : Addr) : Addr := a.extractLsb' 5 13 ++ 0#5

/-- `Reconstruct(tag, s) = tag ++ s[4:0] ++ 00000` (R72). -/
def reconstruct (t : Tag) (s : Index) : Addr := t ++ s ++ 0#5

/-- The event's last byte lies in `MEM`: `ADDR + SIZE - 1 <= 262143`, computed without a wrap (R42, R58, R134). -/
def inRange (a : Addr) (n : Nat) : Bool := a.toNat + n ≤ Config.memSize

/-- The address `ADDR + i` of sub-access `i` (R58); it does not wrap for an event in range. -/
def byteAddr (a : Addr) (i : Nat) : Addr := BitVec.ofNat 18 (a.toNat + i)

/-- Byte `i` of a write value, `WDATA[8*i+7 : 8*i]` (R59). -/
def writeByte (d : Data) (i : Nat) : Byte := d.extractLsb' (8 * i) 8

/-- The little-endian value of a list of bytes, lowest address first: the sum of `b_i * 256^i` (R41, R109). -/
def assemble : List Byte → Nat
  | [] => 0
  | b :: bs => b.toNat + 256 * assemble bs

/-- `RDATA`: the assembled value, zero-extended to 32 bits (R60). -/
def readData (bs : List Byte) : Data := BitVec.ofNat 32 (assemble bs)

/-- One byte sub-access (R75): its address and, for a write, the byte. -/
structure SubAccess where
  addr : Addr
  write : Option Byte
deriving DecidableEq, Repr

/-- The `n` sub-accesses of an event, ascending (R43, R109, R118): a READ has no write value. -/
def subAccesses (a : Addr) (n : Nat) (value : Option Data) : List SubAccess :=
  (List.range n).map fun i =>
    { addr := byteAddr a i, write := value.map fun d => writeByte d i }

end Sys2Proof.Machine
end

