-- ==== Sys2Proof/Machine/Ops.lean ====
section
/-! DEFINITION. The named operations: the backing store and its line transfers (20_memory.md), the block, the two
replacement policies (42_lru_policy.md, 43_plru_policy.md), the byte sub-access (41_block_lookup_fill.md), taking a fault
and leaving it by reset (60_exceptions.md R137, R142; 70_reset_and_hazards.md R148), and the operations the commands of
44_engine_commands.md share. -/

namespace Sys2Proof.Machine

/-! ### The backing store -/

/-- What an address nothing has written to reads as: `MEM_INIT` (R29, R151; log entry 1). -/
def Memory.unlisted (a : Nat) : Byte := Config.memInit a

/-- The listed byte at an address. -/
def findCell : List Host.Cell → Nat → Option Byte
  | [], _ => none
  | (b, x) :: rest, a => if b = a then some x else findCell rest a

/-- `cells` with the byte at `a` listed as `v`. -/
def putCell : List Host.Cell → Nat → Byte → List Host.Cell
  | [], a, v => [(a, v)]
  | (b, x) :: rest, a, v =>
    if a < b then (a, v) :: (b, x) :: rest
    else if a = b then (a, v) :: rest
    else (b, x) :: putCell rest a v

/-- `cells` with the byte at `a` no longer listed. -/
def dropCell : List Host.Cell → Nat → List Host.Cell
  | [], _ => []
  | (b, x) :: rest, a => if b = a then rest else (b, x) :: dropCell rest a

/-- `MEM[a]` (R9, R29). -/
def Memory.read (m : Memory) (a : Nat) : Byte :=
  match findCell m.cells a with
  | some v => v
  | none => Memory.unlisted a

/-- `MEM[a] <- v` (R9), keeping the canonical form: a byte equal to what an unlisted address reads as is not listed. -/
def Memory.write (m : Memory) (a : Nat) (v : Byte) : Memory :=
  { cells := if v = Memory.unlisted a then dropCell m.cells a else putCell m.cells a v }

/-- The addresses of `cells` rise strictly from `lo` on. -/
def risingFrom : Nat → List Host.Cell → Bool
  | _, [] => true
  | lo, (a, _) :: rest => lo ≤ a && risingFrom (a + 1) rest

/-- The canonical form: addresses strictly rising and inside `MEM`, and no entry equal to what an unlisted address reads
as. -/
def Memory.wf (m : Memory) : Bool :=
  risingFrom 0 m.cells && m.cells.all fun c => c.1 < Config.memSize && c.2 ≠ Memory.unlisted c.1

/-- `MemRead(a, 32)`, the fill read (R9, R38). -/
def memRead (m : Memory) (a : Addr) : Payload := Vector.ofFn fun k => m.read (a.toNat + k.val)

/-- `MemWrite(a, 32, v)`, the write-back write (R9, R39). -/
def memWrite (m : Memory) (a : Addr) (v : Payload) : Memory :=
  (List.finRange 32).foldl (fun m' k => m'.write (a.toNat + k.val) v[k.val]) m

/-! ### Blocks and ways -/

/-- The ways in scan order (R16, R77, R96). -/
def ways : List (Fin 4) := [0, 1, 2, 3]

/-- The sets in the order FLUSH takes them (R121). -/
def sets : List Index := (List.range 32).map (BitVec.ofNat 5)

/-- `B.line[w]` (R16). -/
def Block.line {ρ : Type} (B : Block ρ) (w : Fin 4) : Line ρ := B.lines[w.val]

/-- `B` with way `w` replaced. -/
def Block.setLine {ρ : Type} (B : Block ρ) (w : Fin 4) (l : Line ρ) : Block ρ :=
  { B with lines := B.lines.set w.val l }

/-- `B` with the recency metadata of way `w` replaced: its age or its used bit (R22, R23). -/
def Block.setRecency {ρ : Type} (B : Block ρ) (w : Fin 4) (r : ρ) : Block ρ :=
  B.setLine w { B.line w with recency := r }

/-- Way `w` is occupied (R18). -/
def Block.occupied {ρ : Type} (B : Block ρ) (w : Fin 4) : Bool := w.val < B.occ

/-- `ARR[P].set[s]` (R9, R16). -/
def CacheArray.block {ρ : Type} (arr : CacheArray ρ) (s : Index) : Block ρ := arr[s.toNat]'(s.isLt)

/-- The array with block `s` replaced. -/
def CacheArray.setBlock {ρ : Type} (arr : CacheArray ρ) (s : Index) (B : Block ρ) : CacheArray ρ :=
  arr.set s.toNat B s.isLt

/-- `Lookup(B, t)`: the least occupied way with tag `t` (R77). -/
def lookup {ρ : Type} (B : Block ρ) (t : Tag) : Option (Fin 4) :=
  ways.find? fun w => B.occupied w && (B.line w).tag == t

/-! ### The replacement policies -/

/-- A block after a touch, and whether the touch raised AgeOverflow part of the way through (R135). -/
structure Touched (ρ : Type) where
  block : Block ρ
  raised : Bool
deriving DecidableEq, Repr

/-- The common capability of the two policies (R88). -/
structure PolicyOps (ρ : Type) where
  touch : Block ρ → Fin 4 → Touched ρ
  victim : Block ρ → Fin 4

/-- One turn of the loop of `LRU.Touch(B, w)`: way `v`, if it is another occupied way, ages by 1, or raises AgeOverflow
at the largest age (R94, R97, R135). After a raise nothing more happens. -/
def lruAgeOne (ageW : Option Nat) (w : Fin 4) (t : Touched Nat) (v : Fin 4) : Touched Nat :=
  if t.raised then t
  else if v ≠ w ∧ t.block.occupied v then
    if atLimit ageW (t.block.line v).recency then { t with raised := true }
    else { t with block := t.block.setRecency v ((t.block.line v).recency + 1) }
  else t

/-- `LRU.Touch(B, w)` (R94): every other occupied way ages by 1, way `w` gets age 0. -/
def lruTouch (ageW : Option Nat) (B : Block Nat) (w : Fin 4) : Touched Nat :=
  let t := ways.foldl (lruAgeOne ageW w) { block := B, raised := false }
  if t.raised then t else { t with block := t.block.setRecency w 0 }

/-- The largest age among the occupied ways (R95). -/
def maxAge (B : Block Nat) : Nat :=
  ways.foldl (fun m v => if B.occupied v then max m (B.line v).recency else m) 0

/-- `LRU.Victim(B)`: the least occupied way with the largest age (R95, R96). DESIGN CHOICE (log entry 16): way 0 for a
block with no occupied way, for which it is never called. -/
def lruVictim (B : Block Nat) : Fin 4 :=
  (ways.find? fun v => B.occupied v && (B.line v).recency == maxAge B).getD 0

/-- The LRU policy (R88), for an age width. -/
def lruOps (ageW : Option Nat) : PolicyOps Nat where
  touch := lruTouch ageW
  victim := lruVictim

/-- `PLRU.Touch(B, w)` (R101, R102): set the used bit of `w`; if then all four bits are 1, occupied or not, clear all
four and set that of `w` again. -/
def plruTouch (B : Block Bool) (w : Fin 4) : Block Bool :=
  let B1 := B.setRecency w true
  if ways.all fun v => (B1.line v).recency then
    (ways.foldl (fun C v => C.setRecency v false) B1).setRecency w true
  else B1

/-- `PLRU.Victim(B)`: the least occupied way whose used bit is 0; if there is none, way 0 (R103, R104). -/
def plruVictim (B : Block Bool) : Fin 4 :=
  (ways.find? fun v => B.occupied v && !(B.line v).recency).getD 0

/-- The pseudo-LRU policy (R88); it raises no fault (R101). -/
def plruOps : PolicyOps Bool where
  touch := fun B w => { block := plruTouch B w, raised := false }
  victim := plruVictim

/-! ### The byte sub-access -/

/-- `WriteBack(B, s, w)`: the whole payload to the reconstructed address (R84). -/
def writeBack {ρ : Type} (m : Memory) (B : Block ρ) (s : Index) (w : Fin 4) : Memory :=
  memWrite m (reconstruct (B.line w).tag s) (B.line w).data

/-- The write of a hit: dirty is set and the byte stored, even when it is the byte already there (R80); a read leaves the
line (R79). -/
def Line.store {ρ : Type} (l : Line ρ) (o : Offset) (write : Option Byte) : Line ρ :=
  match write with
  | some b => { l with dirty := true, data := l.data.set o.toNat b o.isLt }
  | none => l

/-- The line a fill makes of the way it takes: payload from `MEM`, new tag, dirty only for a write, whose byte is merged
in (R82). The recency metadata is left to the touch that follows. -/
def Line.fill {ρ : Type} (l : Line ρ) (t : Tag) (data : Payload) (o : Offset) (write : Option Byte) : Line ρ :=
  { l with
    tag := t
    dirty := write.isSome
    data := match write with
      | some b => data.set o.toNat b o.isLt
      | none => data }

/-- The byte of way `w` at offset `o`. -/
def Block.byteAt {ρ : Type} (B : Block ρ) (w : Fin 4) (o : Offset) : Byte :=
  (B.line w).data[o.toNat]'(o.isLt)

/-- What one sub-access leaves and returns (R75), and whether its touch raised AgeOverflow (R135). -/
structure SubResult (ρ : Type) where
  arr : CacheArray ρ
  mem : Memory
  byte : Byte
  hit : Bool
  raised : Bool
deriving DecidableEq, Repr

/-- A hit on way `w` (R79, R80): the touch, then the write. After a raise the write does not happen. -/
def hitAccess {ρ : Type} (pol : PolicyOps ρ) (x : SubAccess) (arr : CacheArray ρ) (m : Memory) (w : Fin 4) :
    SubResult ρ :=
  let f := decompose x.addr
  let t := pol.touch (arr.block f.index) w
  let B := if t.raised then t.block else t.block.setLine w ((t.block.line w).store f.offset x.write)
  { arr := arr.setBlock f.index B, mem := m, byte := B.byteAt w f.offset, hit := true, raised := t.raised }

/-- The way a miss takes: the next free one (R81), or the policy's victim when the block is full (R83). -/
def missWay {ρ : Type} (pol : PolicyOps ρ) (B : Block ρ) : Fin 4 :=
  if h : B.occ < 4 then ⟨B.occ, h⟩ else pol.victim B

/-- `MEM` after the eviction of a miss: a dirty victim of a full block is written back before its way is reused; a clean
victim and a free way write nothing (R81, R83). -/
def evict {ρ : Type} (m : Memory) (B : Block ρ) (s : Index) (w : Fin 4) : Memory :=
  if B.occ < 4 then m else if (B.line w).dirty then writeBack m B s w else m

/-- A miss (R81 to R83): evict, fill from `MEM`, touch, and count the way if it was free. After a raise the occupancy is
not incremented (R89, R135). -/
def missAccess {ρ : Type} (pol : PolicyOps ρ) (x : SubAccess) (arr : CacheArray ρ) (m : Memory) : SubResult ρ :=
  let f := decompose x.addr
  let B := arr.block f.index
  let w := missWay pol B
  let m' := evict m B f.index w
  let filled := B.setLine w ((B.line w).fill f.tag (memRead m' (lineBase x.addr)) f.offset x.write)
  let t := pol.touch filled w
  let B' := if t.raised then t.block else { t.block with occ := if B.occ < 4 then B.occ + 1 else t.block.occ }
  { arr := arr.setBlock f.index B', mem := m', byte := B'.byteAt w f.offset, hit := false, raised := t.raised }

/-- `ByteAccess(P, a, isWrite, b)` (R75, R89). -/
def byteAccess {ρ : Type} (pol : PolicyOps ρ) (x : SubAccess) (arr : CacheArray ρ) (m : Memory) : SubResult ρ :=
  match lookup (arr.block (decompose x.addr).index) (decompose x.addr).tag with
  | some w => hitAccess pol x arr m w
  | none => missAccess pol x arr m

/-- What driving one array through the sub-accesses of an event leaves: `hit` is the `policyHit` of R109, `bytes` the
bytes returned, lowest address first. -/
structure Driven (ρ : Type) where
  arr : CacheArray ρ
  mem : Memory
  hit : Bool
  bytes : List Byte
  raised : Bool
deriving DecidableEq, Repr

/-- The inner loop of Handle for one policy (R109): a miss does not stop it, a raise does (R135, R137). -/
def drive {ρ : Type} (pol : PolicyOps ρ) : List SubAccess → CacheArray ρ → Memory → Driven ρ
  | [], arr, m => { arr := arr, mem := m, hit := true, bytes := [], raised := false }
  | x :: xs, arr, m =>
    let r := byteAccess pol x arr m
    if r.raised then { arr := r.arr, mem := r.mem, hit := false, bytes := [], raised := true }
    else
      let d := drive pol xs r.arr r.mem
      { d with hit := r.hit && d.hit, bytes := r.byte :: d.bytes }

/-- The line addresses that `drive` writes back, in order: for each sub-access that misses in a full block whose victim
is dirty, the address `writeBack` uses (R83, R84). -/
def driveWriteBacks {ρ : Type} (pol : PolicyOps ρ) : List SubAccess → CacheArray ρ → Memory → List Addr
  | [], _, _ => []
  | x :: xs, arr, m =>
    let f := decompose x.addr
    let B := arr.block f.index
    let w := missWay pol B
    let r := byteAccess pol x arr m
    (if (lookup B f.tag).isNone && !(decide (B.occ < 4)) && (B.line w).dirty then [reconstruct (B.line w).tag f.index]
      else []) ++ (if r.raised then [] else driveWriteBacks pol xs r.arr r.mem)

/-! ### Responses, faults, reset -/

/-- Give one response to the host (R61, R141). -/
def State.respond (s : State) (r : Response) : State := { s with responses := s.responses ++ [r] }

/-- The response to a command that faulted or arrived in phase ERROR: FAULT = 1, the stored CAUSE and PHASE, both hit
flags and RDATA 0 (R61, R137, R141). -/
def faultResponse (s : State) : Response := .word (responseWord s.cause true s.phase false false 0#32)

/-- What fault entry stores: the first fault's cause and information, and phase ERROR; nothing in phase ERROR
(R137, R141). -/
def State.enterFault (s : State) (c : Cause) (info : Word) : State :=
  if s.phase = .error then s else { s with cause := c, info := info, phase := .error }

/-- Taking a fault, `raise F(info)` (R137): enter it, then respond. -/
def raiseFault (c : Cause) (info : Word) (s : State) : State :=
  (s.enterFault c info).respond (faultResponse (s.enterFault c info))

/-- A command presented in phase ERROR: answered, nothing else changes (R141). -/
def answerInError (s : State) : State := s.respond (faultResponse s)

/-- The registers and arrays as the release of reset leaves them (R35, R148): `MEM` (R151), the parameters, the host's
moves and the responses already given stay. The fields of unoccupied ways the spec leaves unspecified take the values of
`State.reset` (log entries 2, 10). -/
def State.cleared (s : State) (mode : Mode) : State :=
  { s with
    lru := CacheArray.atReset 0
    plru := CacheArray.atReset false
    mode := mode
    requests := 0
    hitsLru := 0
    hitsPlru := 0
    phase := .run
    cause := .none
    info := 0
    started := false }

/-- The release of reset with a value on `MODE_IN` (R148, R150): the one way out of phase ERROR (R141, R142). An
unrecognised mode (R130) or an illegal geometry (R131, which cannot occur here) is ConfigError before any command. -/
def resetRelease (modeIn : BitVec 2) (s : State) : State :=
  let mode := Mode.ofCode modeIn
  if mode = .unrecognised || !Config.geometry.legal then
    { s.cleared mode with phase := .error, cause := .configError }
  else s.cleared mode

/-- A word that names no command (R65): IllegalCommand in any phase; MalformedEvent unless the run is over, when Protocol
comes first (R132, R133, R138, R139). In phase ERROR `raiseFault` only answers (R141). -/
def rejectWord (e : DecodeError) (cw : Word) (s : State) : State :=
  match e with
  | .illegalCommand => raiseFault .illegalCommand cw s
  | .malformedEvent =>
    if s.phase = .done then raiseFault .protocol cw s else raiseFault .malformedEvent cw s

/-! ### The commands' shared operations -/

/-- `REQUESTS <- REQUESTS + 1` (R31, R109). -/
def State.countRequest (s : State) : State := { s with requests := s.requests + 1 }

/-- A state after one policy's loop, with the policy's hit flag, its bytes, and whether AgeOverflow was raised. -/
structure Ran where
  state : State
  hit : Bool
  bytes : List Byte
  raised : Bool
deriving DecidableEq, Repr

/-- One policy's turn in Handle, for `ARR[LRU]` (R109, R116): nothing when LRU is not enabled, and the flag is then 0
(R61, D27). -/
def runLru (xs : List SubAccess) (s : State) : Ran :=
  if enabled s.mode .lru then
    let d := drive (lruOps s.params.ageW) xs s.lru s.mem
    { state := { s with lru := d.arr, mem := d.mem, hitsLru := s.hitsLru + d.hit.toNat }
      hit := d.hit, bytes := d.bytes, raised := d.raised }
  else { state := s, hit := false, bytes := [], raised := false }

/-- The same for `ARR[PLRU]` (R109, R116). -/
def runPlru (xs : List SubAccess) (s : State) : Ran :=
  if enabled s.mode .plru then
    let d := drive plruOps xs s.plru s.mem
    { state := { s with plru := d.arr, mem := d.mem, hitsPlru := s.hitsPlru + d.hit.toNat }
      hit := d.hit, bytes := d.bytes, raised := d.raised }
  else { state := s, hit := false, bytes := [], raised := false }

/-- `RDATA` of an access: 0 for a write, else the bytes of the LRU array when LRU is enabled, else those of the
pseudo-LRU array (R60, R109, R117). -/
def accessData (mode : Mode) (value : Option Data) (lruBytes plruBytes : List Byte) : Data :=
  if value.isSome then 0#32 else if enabled mode .lru then readData lruBytes else readData plruBytes

/-- The execution part of Handle (R109): count the request, drive the enabled arrays, LRU first (R46), and respond. An
AgeOverflow in the LRU array ends the command there (R135). -/
def perform (cw : Word) (a : Addr) (n : Nat) (value : Option Data) (s : State) : State :=
  let xs := subAccesses a n value
  let l := runLru xs s.countRequest
  if l.raised then raiseFault .ageOverflow cw l.state
  else
    let p := runPlru xs l.state
    p.state.respond
      (.word (responseWord .none false p.state.phase p.hit l.hit (accessData s.mode value l.bytes p.bytes)))

/-- `Handle(ADDR, n, isWrite, WDATA)` (R109): the admission checks in the order of R139, then the execution. The word
itself has been found well formed by the decoder. -/
def handle (cw : Word) (a : Addr) (n : Nat) (value : Option Data) (s : State) : State :=
  if s.phase = .error then answerInError s
  else if s.phase = .done then raiseFault .protocol cw s
  else if !inRange a n then raiseFault .addressRange cw s
  else if atLimit s.params.cntW s.requests then raiseFault .counterOverflow cw s
  else perform cw a n value s

/-- Write back the dirty occupied ways of one block, ways ascending (R120, R121). -/
def drainBlock {ρ : Type} (m : Memory) (B : Block ρ) (s : Index) : Memory :=
  ways.foldl (fun m' w => if B.occupied w && (B.line w).dirty then writeBack m' B s w else m') m

/-- Write back every dirty occupied way of an array, sets ascending (R120, R121). -/
def drainArray {ρ : Type} (arr : CacheArray ρ) (m : Memory) : Memory :=
  sets.foldl (fun m' s => drainBlock m' (arr.block s) s) m

/-- `MEM` after FLUSH: the enabled arrays drained, LRU first (R120, R121). -/
def drainAll (s : State) : Memory :=
  let m := if enabled s.mode .lru then drainArray s.lru s.mem else s.mem
  if enabled s.mode .plru then drainArray s.plru m else m

/-- The record REPORT answers with (R62, R123, R125). -/
def reportRecord (s : State) : ReportRecord where
  valid := s.phase ≠ .error && 0 < s.requests
  mode := s.mode
  requests := s.requests
  hitsLru := s.hitsLru
  hitsPlru := s.hitsPlru
  phase := s.phase
  cause := s.cause

/-- `HITS_P` of a record. -/
def ReportRecord.hits (r : ReportRecord) : Policy → Nat
  | .lru => r.hitsLru
  | .plru => r.hitsPlru

/-- The hit rate the host forms from a record: the exact rational `100 * HITS_P / REQUESTS`, for an enabled policy of a
valid record, else none (R123 to R125, U5). -/
def ReportRecord.hitRate (r : ReportRecord) (P : Policy) : Option Rat :=
  if r.valid && enabled r.mode P then some ((100 * r.hits P : Nat) / (r.requests : Nat) : Rat) else none

/-! ### The host's side -/

/-- The host may load `MEM`: before the first command of a run, or while no run is in progress
(R152, R157, R160; log entry 18). -/
def State.mayLoad (s : State) : Bool := !s.started || s.phase ≠ .run

/-- One byte of `MEM` loaded by the host (R152). -/
def State.load (s : State) (a : Addr) (v : Byte) : State := { s with mem := s.mem.write a.toNat v }

/-- The host's read of `MEM`, defined in phase DONE only (R52, R160, R163; log entry 19). -/
def State.hostRead (s : State) (a : Addr) : Option Byte :=
  if s.phase = .done then some (s.mem.read a.toNat) else none

/-- The machine once it has taken the next input off the host's list. -/
def State.popInput (s : State) : State := { s with inputs := s.inputs.tail }

/-- The machine once it has accepted the next command (R162): the input is taken and the run has begun. -/
def State.accept (s : State) : State := { s with inputs := s.inputs.tail, started := true }

/-- The listing text of a host move (R68): the MODE directive stands for the reset that starts a listing; a word that is
no command and a load have no text. -/
def HostInput.text : HostInput → Option String
  | .command cw =>
    match decode cw with
    | .ok i => some i.text
    | .error _ => none
  | .reset m =>
    match Mode.ofCode m with
    | .both => some "MODE Both"
    | .lruOnly => some "MODE LRUOnly"
    | .plruOnly => some "MODE PLRUOnly"
    | .unrecognised => none
  | .load _ _ => none

end Sys2Proof.Machine
end

