-- ==== Sys2Proof/Machine/Maintenance.lean ====
section
/-! DEFINITION. FLUSH, the one maintenance command (44_engine_commands.md R120 to R122, 20_memory.md R51). -/

namespace Sys2Proof.Machine

/-- The effect of FLUSH in phase RUN: `MEM` drained, `PHASE` DONE, one response; nothing else (R120, R121). -/
def flushed (s : State) : State :=
  { s with mem := drainAll s, phase := .done }.respond (.word (responseWord .none false .done false false 0#32))

/-- `FLUSH` (R120): answered in phase ERROR, Protocol in phase DONE, else every dirty line written back. -/
def execFlush (size : BitVec 3) (addr : Addr) (wdata : Data) (s : State) : Host.Outcome State Fault Refusal :=
  .next
    (if s.phase = .error then answerInError s
     else if s.phase = .done then raiseFault .protocol (encode (.flush size addr wdata)) s
     else flushed s)

end Sys2Proof.Machine
end

