-- ==== Sys2Proof/Machine/Read.lean ====
section
/-! DEFINITION. The READ commands RD1, RD2, RD4 (44_engine_commands.md R110 to R112). They complete in phase RUN; in
phase ERROR they are answered, and they take Protocol, AddressRange, CounterOverflow or AgeOverflow as R109 says. -/

namespace Sys2Proof.Machine

/-- `RD1 addr` is `Handle(addr, 1, 0, -)` (R110). -/
def execRd1 (addr : Addr) (wdata : Data) (s : State) : Host.Outcome State Fault Refusal :=
  .next (handle (encode (.rd1 addr wdata)) addr 1 none s)

/-- `RD2 addr` is `Handle(addr, 2, 0, -)` (R111). -/
def execRd2 (addr : Addr) (wdata : Data) (s : State) : Host.Outcome State Fault Refusal :=
  .next (handle (encode (.rd2 addr wdata)) addr 2 none s)

/-- `RD4 addr` is `Handle(addr, 4, 0, -)` (R112). -/
def execRd4 (addr : Addr) (wdata : Data) (s : State) : Host.Outcome State Fault Refusal :=
  .next (handle (encode (.rd4 addr wdata)) addr 4 none s)

end Sys2Proof.Machine
end

