-- ==== Sys2Proof/Machine/Statistics.lean ====
section
/-! DEFINITION. REPORT, the statistics command (44_engine_commands.md R123 to R125). -/

namespace Sys2Proof.Machine

/-- `REPORT` (R123): respond with the record, in any phase; no register, array or byte of `MEM` changes. Its ignored
fields have no effect (R66). -/
def execReport (_size : BitVec 3) (_addr : Addr) (_wdata : Data) (s : State) : Host.Outcome State Fault Refusal :=
  .next (s.respond (.record (reportRecord s)))

end Sys2Proof.Machine
end

