-- ==== Sys2Proof/Machine/Write.lean ====
section
/-! DEFINITION. The WRITE commands WR1, WR2, WR4 (44_engine_commands.md R113 to R115). -/

namespace Sys2Proof.Machine

/-- `WR1 addr, value` is `Handle(addr, 1, 1, value)` (R113). -/
def execWr1 (addr : Addr) (wdata : Data) (s : State) : Host.Outcome State Fault Refusal :=
  .next (handle (encode (.wr1 addr wdata)) addr 1 (some wdata) s)

/-- `WR2 addr, value` is `Handle(addr, 2, 1, value)` (R114). -/
def execWr2 (addr : Addr) (wdata : Data) (s : State) : Host.Outcome State Fault Refusal :=
  .next (handle (encode (.wr2 addr wdata)) addr 2 (some wdata) s)

/-- `WR4 addr, value` is `Handle(addr, 4, 1, value)` (R115). -/
def execWr4 (addr : Addr) (wdata : Data) (s : State) : Host.Outcome State Fault Refusal :=
  .next (handle (encode (.wr4 addr wdata)) addr 4 (some wdata) s)

end Sys2Proof.Machine
end

