-- ==== Sys2Proof/Machine/Dispatch.lean ====
section
/-! DEFINITION. The meaning of every command, one arm per constructor (30_encoding.md R64). -/

namespace Sys2Proof.Machine

def exec (i : Instr) (s : State) : Host.Outcome State Fault Refusal :=
  match i with
  | .rd1 addr wdata => Sys2Proof.Machine.execRd1 addr wdata s
  | .rd2 addr wdata => Sys2Proof.Machine.execRd2 addr wdata s
  | .rd4 addr wdata => Sys2Proof.Machine.execRd4 addr wdata s
  | .wr1 addr wdata => Sys2Proof.Machine.execWr1 addr wdata s
  | .wr2 addr wdata => Sys2Proof.Machine.execWr2 addr wdata s
  | .wr4 addr wdata => Sys2Proof.Machine.execWr4 addr wdata s
  | .flush size addr wdata => Sys2Proof.Machine.execFlush size addr wdata s
  | .report size addr wdata => Sys2Proof.Machine.execReport size addr wdata s

end Sys2Proof.Machine
end

