-- ==== Sys2Proof/Machine/Step.lean ====
section
/-! DEFINITION. One step of the machine: it takes the host's next move (R160). A command is decoded, run to completion
and answered in one step (R45, D35). -/

namespace Sys2Proof.Machine

/-- Run one command word the engine has accepted (R54, R65). -/
def runCommand (cw : Word) (s : State) : Host.Outcome State Fault Refusal :=
  match decode cw with
  | .ok i => exec i s
  | .error e => .next (rejectWord e cw s)

/-- One step. With no move of the host pending the engine holds its state (R147). A load of `MEM` in phase RUN after the
first command has no meaning (R157, U9). -/
def step (s : State) : Host.Outcome State Fault Refusal :=
  match s.inputs with
  | [] => .next s
  | .command cw :: _ => runCommand cw s.accept
  | .reset modeIn :: _ => .next (resetRelease modeIn s.popInput)
  | .load a v :: _ => if s.mayLoad then .next (s.popInput.load a v) else .fault .hostWroteMem

/-- `s` with the command word of a table row as the host's next move: the command port is where the engine takes its
commands from (R14, R54). Every row has 64 bits; bits above `nbits` are 0. -/
def State.withFetchWord (s : State) (nbits w : Nat) : State :=
  { s with inputs := .command (BitVec.ofNat 64 (w % 2 ^ nbits)) :: s.inputs }

end Sys2Proof.Machine
end

