-- ==== Sys2Proof/Safety.lean ====
section
/-! DEFINITION. What counts as a safe state and run, in the terms the statements use: the invariants of 10_state.md R25 to
R28 and R32, the coherence of 20_memory.md R47, when a command is admitted (R109, R139), and the relations of R34 and
R149. Nothing here is used by the machine. -/

namespace Sys2Proof.Machine

/-! ### Blocks -/

/-- Occupied ways carry pairwise distinct tags (R26). -/
abbrev Block.tagsDistinct {ρ : Type} (B : Block ρ) : Prop :=
  ∀ v w : Fin 4, B.occupied v = true → B.occupied w = true → (B.line v).tag = (B.line w).tag → v = w

/-- Occupied ways of an LRU block carry pairwise distinct ages (R27). -/
abbrev Block.agesDistinct (B : Block Nat) : Prop :=
  ∀ v w : Fin 4, B.occupied v = true → B.occupied w = true → (B.line v).recency = (B.line w).recency → v = w

/-- The used bits of a pseudo-LRU block are as R28 says: those of unoccupied ways are 0, and a full block has between one
and three bits set. -/
abbrev Block.usedLegal (B : Block Bool) : Prop :=
  (∀ w : Fin 4, B.occupied w = false → (B.line w).recency = false) ∧
    (B.occ = 4 → (∃ v : Fin 4, (B.line v).recency = true) ∧ ∃ v : Fin 4, (B.line v).recency = false)

/-- A number fits the width: it is below `2^w` when the width is `w` bits (R22, R31). -/
abbrev fits (width : Option Nat) (n : Nat) : Prop := ∀ w ∈ width, n < 2 ^ w

/-! ### The invariant -/

/-- What every state that a run reaches satisfies (R25 to R28, R30 to R33). -/
structure Inv (s : State) : Prop where
  /-- `MEM` has its canonical form. -/
  memWf : s.mem.wf = true
  /-- Occupancy never exceeds 4 and tags are distinct in `ARR[LRU]` (R25, R26). -/
  lruBlocks : ∀ k : Index, (s.lru.block k).occ ≤ 4 ∧ (s.lru.block k).tagsDistinct
  /-- The same in `ARR[PLRU]`. -/
  plruBlocks : ∀ k : Index, (s.plru.block k).occ ≤ 4 ∧ (s.plru.block k).tagsDistinct
  /-- Ages are distinct, until a fault (R27). -/
  agesDistinct : s.phase ≠ .error → ∀ k : Index, (s.lru.block k).agesDistinct
  /-- Ages fit their width (R22, R97). -/
  agesFit : ∀ (k : Index) (w : Fin 4), (s.lru.block k).occupied w = true →
    fits s.params.ageW ((s.lru.block k).line w).recency
  /-- Used bits are legal (R28). -/
  usedLegal : ∀ k : Index, (s.plru.block k).usedLegal
  /-- `HITS_P <= REQUESTS` (R32). -/
  hitsLruLe : s.hitsLru ≤ s.requests
  hitsPlruLe : s.hitsPlru ≤ s.requests
  /-- `REQUESTS` fits its width (R31, R136). -/
  requestsFit : fits s.params.cntW s.requests
  /-- Phase ERROR exactly when a cause is stored (R33, R137). -/
  errorIffCause : s.phase = .error ↔ s.cause ≠ .none
  /-- `INFO` is 0 when no command has faulted (R33, R129). -/
  infoZero : s.cause = .none ∨ s.cause = .configError → s.info = 0
  /-- An unrecognised mode is held only after its configuration error (R130). -/
  modeLegal : s.mode = .unrecognised → s.cause = .configError
  /-- An array that is not enabled stays empty and its hit counter 0 (R32). -/
  lruDisabled : enabled s.mode .lru = false → s.hitsLru = 0 ∧ ∀ k : Index, (s.lru.block k).occ = 0
  plruDisabled : enabled s.mode .plru = false → s.hitsPlru = 0 ∧ ∀ k : Index, (s.plru.block k).occ = 0

/-! ### Admission -/

/-- The admission checks of Handle pass (R109): phase RUN, the event in range, room in the request counter. -/
structure Admitted (s : State) (a : Addr) (n : Nat) : Prop where
  running : s.phase = .run
  inMem : a.toNat + n ≤ 262144
  counterRoom : ∀ w ∈ s.params.cntW, s.requests ≠ 2 ^ w - 1

/-- No age of a block the event maps to can reach its limit during the event (R97, R135). It holds of every state when
`AGE_W` is infinity, and when LRU is not enabled. -/
def AgeRoom (s : State) (a : Addr) (n : Nat) : Prop :=
  enabled s.mode .lru = true → ∀ w ∈ s.params.ageW, ∀ i < n, ∀ v : Fin 4,
    (s.lru.block (decompose (byteAddr a i)).index).occupied v = true →
      ((s.lru.block (decompose (byteAddr a i)).index).line v).recency + n < 2 ^ w

/-- Some array is enabled (R30). -/
abbrev someEnabled (s : State) : Prop := s.mode ≠ .unrecognised

/-- The line that holds the address is resident in the array (R77, R12). -/
abbrev residentIn {ρ : Type} (arr : CacheArray ρ) (a : Addr) : Prop :=
  (lookup (arr.block (decompose a).index) (decompose a).tag).isSome = true

/-- What an access command that is not cut short leaves besides the arrays and `MEM`, and its response word (R61, R109,
R116): one request counted, a hit counted per policy as its flag says, no fault, and every other register, the parameters
and the host's moves as before. -/
structure AccessDone (s t : State) (rw : Word) : Prop where
  response : t.responses = s.responses ++ [.word rw]
  reserved : reservedOf rw = 0#24
  noFault : faultOf rw = 0#1 ∧ causeOf rw = 0#3 ∧ phaseOf rw = 0#2
  requests : t.requests = s.requests + 1
  hitsLru : t.hitsLru = s.hitsLru + (hitLruOf rw).toNat
  hitsPlru : t.hitsPlru = s.hitsPlru + (hitPlruOf rw).toNat
  phase : t.phase = .run
  cause : t.cause = s.cause
  info : t.info = s.info
  mode : t.mode = s.mode
  params : t.params = s.params
  started : t.started = s.started
  inputs : t.inputs = s.inputs
  lruDisabled : enabled s.mode .lru = false → t.lru = s.lru ∧ hitLruOf rw = 0#1
  plruDisabled : enabled s.mode .plru = false → t.plru = s.plru ∧ hitPlruOf rw = 0#1

/-- A command that faulted at admission (R137, R140): `CAUSE`, `INFO` and `PHASE` are written and the fault is answered;
every other field of the state is as before. -/
def faulted (s : State) (c : Cause) (cw : Word) : State :=
  { s with
    cause := c
    info := cw
    phase := .error
    responses := s.responses ++ [.word (responseWord c true .error false false 0#32)] }

/-! ### Access commands -/

/-- The operands of the six access commands RD1, RD2, RD4, WR1, WR2, WR4, as Handle takes them (R109 to R115): address,
number of bytes, and the write value of a WRITE; none for FLUSH and REPORT. -/
def accessOf : Instr → Option (Addr × Nat × Option Data)
  | .rd1 a _ => some (a, 1, none)
  | .rd2 a _ => some (a, 2, none)
  | .rd4 a _ => some (a, 4, none)
  | .wr1 a d => some (a, 1, some d)
  | .wr2 a d => some (a, 2, some d)
  | .wr4 a d => some (a, 4, some d)
  | .flush _ _ _ => none
  | .report _ _ _ => none

/-! ### The effect of a byte sub-access -/

/-- The age `LRU.Touch(B, w)` leaves way `v` with when it raises nothing (R94). -/
def touchedAge (B : Block Nat) (w v : Fin 4) : Nat :=
  if v = w then 0 else if B.occupied v then (B.line v).recency + 1 else (B.line v).recency

/-- No other occupied way is at the age limit, so that a touch of `w` raises nothing (R97, R135). -/
def touchRoom (ageW : Option Nat) (B : Block Nat) (w : Fin 4) : Prop :=
  ∀ v, v ≠ w → B.occupied v = true → ∀ k ∈ ageW, (B.line v).recency ≠ 2 ^ k - 1

/-- The used bit `PLRU.Touch(B, w)` leaves way `v` with (R101): if the bits of the other three ways are all 1, whatever
the occupancy, they are cleared. -/
def touchedUsed (B : Block Bool) (w v : Fin 4) : Bool :=
  if v = w then true else if (∀ u : Fin 4, u ≠ w → (B.line u).recency = true) then false else (B.line v).recency

/-- The effect of a sub-access that hits way `w` of its block (R79, R80), for a policy whose touch leaves the recency
`after` under the condition `room`: hit, `MEM` and every other block unchanged; in the block the occupancy and the tags
unchanged, the dirty flag of `w` set by a write, one payload byte replaced by a write, the recency of every way as the
touch leaves it. The byte returned is the written one, or the payload's. -/
def HitEffect {ρ : Type} (pol : PolicyOps ρ) (room : Block ρ → Fin 4 → Prop) (after : Block ρ → Fin 4 → Fin 4 → ρ) :
    Prop :=
  ∀ (x : SubAccess) (arr : CacheArray ρ) (m : Memory) (w : Fin 4),
    let f := decompose x.addr
    let B := arr.block f.index
    lookup B f.tag = some w → room B w →
    let r := byteAccess pol x arr m
    let B' := r.arr.block f.index
    r.hit = true ∧ r.raised = false ∧ r.mem = m ∧ r.byte = x.write.getD (B.byteAt w f.offset) ∧
      (∀ k, k ≠ f.index → r.arr.block k = arr.block k) ∧ B'.occ = B.occ ∧
      ∀ v, (B'.line v).tag = (B.line v).tag ∧
        (B'.line v).dirty = ((B.line v).dirty || (decide (v = w) && x.write.isSome)) ∧
        (B'.line v).recency = after B w v ∧
        ∀ o : Offset, B'.byteAt v o =
          if v = w ∧ o = f.offset then x.write.getD (B.byteAt v o) else B.byteAt v o

/-- What a miss leaves in the way `w` it takes and around it (R81 to R83): no hit; `w` holds the line of the address, read
from `MEM`, with a written byte merged in, dirty only for a write; the other ways keep tag, dirty flag and payload; the
recency of every way is as the touch leaves it; every other block is unchanged. -/
def MissFills {ρ : Type} (x : SubAccess) (arr : CacheArray ρ) (m : Memory) (w : Fin 4)
    (after : Block ρ → Fin 4 → Fin 4 → ρ) (r : SubResult ρ) : Prop :=
  let f := decompose x.addr
  let B := arr.block f.index
  let B' := r.arr.block f.index
  r.hit = false ∧ r.raised = false ∧ r.byte = x.write.getD (m.read x.addr.toNat) ∧
    (∀ k, k ≠ f.index → r.arr.block k = arr.block k) ∧
    (B'.line w).tag = f.tag ∧ (B'.line w).dirty = x.write.isSome ∧
    (∀ o : Offset, B'.byteAt w o =
      if o = f.offset then x.write.getD (m.read x.addr.toNat) else m.read ((lineBase x.addr).toNat + o.toNat)) ∧
    (∀ v, v ≠ w → (B'.line v).tag = (B.line v).tag ∧ (B'.line v).dirty = (B.line v).dirty ∧
      (B'.line v).data = (B.line v).data) ∧
    ∀ v, (B'.line v).recency = after B w v

/-- A miss in a block that is not full (R81, R82): it takes way `B.occ`, counts it, and writes nothing to `MEM`. -/
def FreeWayEffect {ρ : Type} (pol : PolicyOps ρ) (room : Block ρ → Fin 4 → Prop)
    (after : Block ρ → Fin 4 → Fin 4 → ρ) : Prop :=
  ∀ (x : SubAccess) (arr : CacheArray ρ) (m : Memory) (w : Fin 4),
    let f := decompose x.addr
    let B := arr.block f.index
    lookup B f.tag = none → B.occ = w.val → room B w →
    let r := byteAccess pol x arr m
    MissFills x arr m w after r ∧ r.mem = m ∧ (r.arr.block f.index).occ = B.occ + 1

/-- A miss in a full block (R83, R84): it takes the policy's victim, leaves the occupancy 4, and `MEM` changes exactly in
the 32 bytes of a dirty victim's line, which get the victim's payload. The fill does not read those bytes. -/
def EvictionEffect {ρ : Type} (pol : PolicyOps ρ) (room : Block ρ → Fin 4 → Prop)
    (after : Block ρ → Fin 4 → Fin 4 → ρ) : Prop :=
  ∀ (x : SubAccess) (arr : CacheArray ρ) (m : Memory),
    let f := decompose x.addr
    let B := arr.block f.index
    let w := pol.victim B
    m.wf = true → lookup B f.tag = none → B.occ = 4 → room B w →
    let r := byteAccess pol x arr m
    MissFills x arr m w after r ∧ (r.arr.block f.index).occ = 4 ∧
      ∀ y : Addr, r.mem.read y.toNat =
        if (B.line w).dirty = true ∧ decompose y = ⟨(B.line w).tag, f.index, (decompose y).offset⟩
        then B.byteAt w (decompose y).offset else m.read y.toNat

/-! ### The sub-accesses of an event, one after the other -/

/-- Sub-access `k` of an event at `a` (R109, R118): the byte at `a + k`, with byte `k` of a write value. -/
def byteOf (a : Addr) (value : Option Data) (k : Nat) : SubAccess where
  addr := byteAddr a k
  write := value.map fun d => writeByte d k

/-- An array and `MEM` after the first `k` sub-accesses of an event, each performed once, in ascending order
(R109, R118). -/
def afterBytes {ρ : Type} (pol : PolicyOps ρ) (a : Addr) (value : Option Data) (arr : CacheArray ρ) (m : Memory) :
    Nat → CacheArray ρ × Memory
  | 0 => (arr, m)
  | k + 1 =>
    let before := afterBytes pol a value arr m k
    let r := byteAccess pol (byteOf a value k) before.1 before.2
    (r.arr, r.mem)

/-- What sub-access `k` of an event returns, performed after those below it (R75, R109). -/
def byteResult {ρ : Type} (pol : PolicyOps ρ) (a : Addr) (value : Option Data) (arr : CacheArray ρ) (m : Memory)
    (k : Nat) : SubResult ρ :=
  byteAccess pol (byteOf a value k) (afterBytes pol a value arr m k).1 (afterBytes pol a value arr m k).2

/-- The little-endian sum `b_0 * 256^0 + b_1 * 256^1 + ...` of `n` bytes (R41, R109). -/
def byteSum (n : Nat) (b : Nat → Byte) : Nat := ((List.range n).map fun k => (b k).toNat * 256 ^ k).sum

/-! ### The lines an event writes back -/

/-- The line addresses the LRU array's turn writes back to during an event (R84, R109). -/
def lruWriteBacks (s : State) (xs : List SubAccess) : List Addr :=
  if enabled s.mode .lru then driveWriteBacks (lruOps s.params.ageW) xs s.lru s.mem else []

/-- The same for the pseudo-LRU array, which runs after the LRU array (R46), unless that one ended the command (R135). -/
def plruWriteBacks (s : State) (xs : List SubAccess) : List Addr :=
  if enabled s.mode .plru && !(runLru xs s.countRequest).raised then
    driveWriteBacks plruOps xs s.plru (runLru xs s.countRequest).state.mem
  else []

/-- The address `x` is one of the 32 bytes of the line at `b`. -/
abbrev inLine (b : Addr) (x : Nat) : Prop := b.toNat ≤ x ∧ x < b.toNat + 32

/-! ### Coherence (R47) -/

/-- The addressed line is resident in the array and dirty. -/
def residentDirty {ρ : Type} (arr : CacheArray ρ) (a : Addr) : Bool :=
  match lookup (arr.block (decompose a).index) (decompose a).tag with
  | some w => ((arr.block (decompose a).index).line w).dirty
  | none => false

/-- An array and `MEM` agree with the true content `C` (R47): (i) a resident line's payload is the true content of its
bytes, and (ii) where the line is not resident dirty, `MEM` holds the true content. -/
structure CoherentArray {ρ : Type} (C : Addr → Byte) (arr : CacheArray ρ) (m : Memory) : Prop where
  payload : ∀ (a : Addr) (w : Fin 4), lookup (arr.block (decompose a).index) (decompose a).tag = some w →
    (arr.block (decompose a).index).byteAt w (decompose a).offset = C a
  clean : ∀ a : Addr, residentDirty arr a = false → m.read a.toNat = C a

/-- Every enabled array agrees with the true content (R47). -/
structure Coherent (C : Addr → Byte) (s : State) : Prop where
  lru : enabled s.mode .lru = true → CoherentArray C s.lru s.mem
  plru : enabled s.mode .plru = true → CoherentArray C s.plru s.mem

/-- The true content after a WRITE of `n` bytes of `d` at `a` (R41, R47). -/
def contentAfterWrite (C : Addr → Byte) (a : Addr) (n : Nat) (d : Data) : Addr → Byte := fun x =>
  if a.toNat ≤ x.toNat ∧ x.toNat < a.toNat + n then writeByte d (x.toNat - a.toNat) else C x

/-- The little-endian value of `n` bytes of the content from `a` up, zero-extended (R41, R60). -/
def contentValue (C : Addr → Byte) (a : Addr) (n : Nat) : Data :=
  readData ((List.range n).map fun i => C (byteAddr a i))

/-! ### Relations between two states -/

/-- Two blocks agree on everything but payload bytes: occupancy, tags, dirty flags and recency metadata (R34). -/
def Block.sameMeta {ρ : Type} (B B' : Block ρ) : Prop :=
  B.occ = B'.occ ∧ ∀ w : Fin 4, (B.line w).tag = (B'.line w).tag ∧ (B.line w).dirty = (B'.line w).dirty ∧
    (B.line w).recency = (B'.line w).recency

/-- Two blocks agree on the occupancy and on every occupied way (R149). -/
def Block.sameOccupied {ρ : Type} (B B' : Block ρ) : Prop :=
  B.occ = B'.occ ∧ ∀ w : Fin 4, B.occupied w = true → B.line w = B'.line w

/-- Two states that differ only in fields of unoccupied ways that the spec leaves unspecified: tag, dirty, payload, age,
but not the used bit (R149, R35). -/
structure SameButUnoccupied (s s' : State) : Prop where
  registers : { s with lru := s'.lru, plru := s'.plru } = s'
  lru : ∀ k : Index, (s.lru.block k).sameOccupied (s'.lru.block k)
  plru : ∀ k : Index, (s.plru.block k).sameOccupied (s'.plru.block k)
  used : ∀ (k : Index) (w : Fin 4), ((s.plru.block k).line w).recency = ((s'.plru.block k).line w).recency

/-- An occupied dirty way of the array holds the line of the address: FLUSH writes that line back (R120). -/
def flushes {ρ : Type} (arr : CacheArray ρ) (x : Addr) (w : Fin 4) : Prop :=
  let B := arr.block (decompose x).index
  B.occupied w = true ∧ (B.line w).dirty = true ∧ (B.line w).tag = (decompose x).tag

/-! ### The flat memory the engine stands for (R45 (3), R47, R51) -/

/-- What a sequence of access commands does to a flat memory: its final contents, and the value each command answers, 0
for a WRITE (R60). -/
def flatRun : (Addr → Byte) → List Instr → (Addr → Byte) × List Data
  | C, [] => (C, [])
  | C, i :: is =>
    match accessOf i with
    | some (a, n, none) => ((flatRun C is).1, contentValue C a n :: (flatRun C is).2)
    | some (a, n, some d) =>
      ((flatRun (contentAfterWrite C a n d) is).1, 0#32 :: (flatRun (contentAfterWrite C a n d) is).2)
    | none => flatRun C is

/-- `RDATA` of a response; a record has none. -/
def Response.rdata : Response → Option Data
  | .word rw => some (rdataOf rw)
  | .record _ => none

/-- The state with `INFO` set aside: what two commands that differ only in ignored fields may differ in (R66, R129). -/
def State.withoutInfo (s : State) : State := { s with info := 0 }

end Sys2Proof.Machine
end

