-- ==== Sys2Proof/Certificates/Slice0/Obligations.lean ====
section
/-! DEFINITION. The statements about the engine. Each docstring names the rule of spec/ it formalises. -/

open Sys2Proof Sys2Proof.Machine

/-! ### Encoding (30_encoding.md) -/

/-- The decoder reads back every instruction from its command word, with every operand and every ignored field at every
value (R55, R56, R57, R64). -/
def Obligations.DecodeOfEncodeIsTheInstruction : Prop :=
  ∀ i : Instr, decode (encode i) = .ok i

/-- A word that decodes has one meaning: the instruction it decodes to has that word (R55, R64). That an instruction keeps
the fields its command ignores, so that encoding gives them back, is the model's choice, log entry 12. -/
def Obligations.EncodeOfDecodeIsTheWord : Prop :=
  ∀ (cw : Word) (i : Instr), decode cw = .ok i → encode i = cw

/-- A word is the command whose table row it matches under the row's mask, and a word no row matches is refused by the
decoder (R64). -/
def Obligations.WordIsTheCommandItsRowMatches : Prop :=
  ∀ cw : Word,
    (cw &&& 0xFFFC000000000000#64 = 0x0004000000000000#64 ↔ ∃ a d, decode cw = .ok (.rd1 a d)) ∧
    (cw &&& 0xFFFC000000000000#64 = 0x0008000000000000#64 ↔ ∃ a d, decode cw = .ok (.rd2 a d)) ∧
    (cw &&& 0xFFFC000000000000#64 = 0x0010000000000000#64 ↔ ∃ a d, decode cw = .ok (.rd4 a d)) ∧
    (cw &&& 0xFFFC000000000000#64 = 0x0024000000000000#64 ↔ ∃ a d, decode cw = .ok (.wr1 a d)) ∧
    (cw &&& 0xFFFC000000000000#64 = 0x0028000000000000#64 ↔ ∃ a d, decode cw = .ok (.wr2 a d)) ∧
    (cw &&& 0xFFFC000000000000#64 = 0x0030000000000000#64 ↔ ∃ a d, decode cw = .ok (.wr4 a d)) ∧
    (cw &&& 0xFFE0000000000000#64 = 0x0040000000000000#64 ↔ ∃ z a d, decode cw = .ok (.flush z a d)) ∧
    (cw &&& 0xFFE0000000000000#64 = 0x0060000000000000#64 ↔ ∃ z a d, decode cw = .ok (.report z a d)) ∧
    ((cw &&& 0xFFFC000000000000#64) ∉
        [0x0004000000000000#64, 0x0008000000000000#64, 0x0010000000000000#64, 0x0024000000000000#64,
          0x0028000000000000#64, 0x0030000000000000#64] ∧
      (cw &&& 0xFFE0000000000000#64) ∉ [0x0040000000000000#64, 0x0060000000000000#64] ↔
        decode cw = .error .illegalCommand ∨ decode cw = .error .malformedEvent)

/-- Words written out from the encoding of R55 decode to the commands they stand for, and reserved words are refused by
name (R64, R65). -/
def Obligations.WrittenWordsDecode : Prop :=
  decode 0x0004040000000000#64 = .ok (.rd1 0x00400#18 0#32) ∧
  decode 0x000BFFFE00000000#64 = .ok (.rd2 0x3FFFE#18 0#32) ∧
  decode 0x0013FFFC00000000#64 = .ok (.rd4 0x3FFFC#18 0#32) ∧
  decode 0x00240400000000BB#64 = .ok (.wr1 0x00400#18 0xBB#32) ∧
  decode 0x002803FF0000A55A#64 = .ok (.wr2 0x003FF#18 0xA55A#32) ∧
  decode 0x00300010DEADBEEF#64 = .ok (.wr4 0x00010#18 0xDEADBEEF#32) ∧
  decode 0x005FFFFFFFFFFFFF#64 = .ok (.flush 7#3 0x3FFFF#18 0xFFFFFFFF#32) ∧
  decode 0x007C000000000000#64 = .ok (.report 7#3 0#18 0#32) ∧
  decode 0x000C010000000000#64 = .error .malformedEvent ∧
  decode 0x0080000000000000#64 = .error .illegalCommand ∧
  decode 0x0104000000000000#64 = .error .illegalCommand

/-- An access event of size 1, 2 or 4 with its address in `0 .. 262143` and a value exactly when it is a write is one
command, which names its address, size and value (R53, R55, R58, R108), and which keeps the host's duty of R156 exactly when
the event's last byte lies in `MEM`; any other event has no command. That a value is taken to its low 32 bits is the model's
choice, log entry 23. -/
def Obligations.WellFormedEventHasItsCommand : Prop :=
  ∀ e : Event,
    (e.size ∈ [1, 2, 4] → e.address ≤ 262143 → e.value.isSome = e.isWrite →
      ∃ i, e.toInstr = some i ∧ (i.wellFormed = true ↔ e.address + e.size - 1 ≤ 262143) ∧
        ∃ a : Addr, a.toNat = e.address ∧ accessOf i = some (a, e.size, e.value.map (BitVec.ofNat 32))) ∧
    (e.size ∉ [1, 2, 4] ∨ 262143 < e.address ∨ e.value.isSome ≠ e.isWrite → e.toInstr = none)

/-- A step runs the decoded instruction: when the host's next move is a command word that decodes to `i`, the step is
`exec i` at the state that has taken that move off the host's list and marked the run as begun; nothing else is added.
The list and the mark are the model's, log entries 4 and 6. -/
def Obligations.StepRunsTheDecodedCommand : Prop :=
  ∀ (s : State) (cw : Word) (rest : List HostInput) (i : Instr),
    s.inputs = .command cw :: rest → decode cw = .ok i →
      step s = exec i { s with inputs := rest, started := true }

/-! ### The address decomposer (40_address_decomposer.md) -/

/-- The three fields of an address (R69), with the rule's example. -/
def Obligations.DecomposeGivesTagIndexOffset : Prop :=
  (∀ a : Addr,
    (decompose a).offset.toNat = a.toNat % 32 ∧ (decompose a).offset = a.extractLsb' 0 5 ∧
    (decompose a).index.toNat = (a.toNat >>> 5) % 32 ∧ (decompose a).index = a.extractLsb' 5 5 ∧
    (decompose a).tag.toNat = a.toNat >>> 10 ∧ (decompose a).tag = a.extractLsb' 10 8) ∧
  decompose 0x2A7F3#18 = ⟨0xA9#8, 0x1F#5, 0x13#5⟩

/-- Decomposing is a bijection, and the next address has the next offset, wrapping into the next set and then the next
tag; so the two lines an event can straddle are in adjacent sets, with different tags only from set 31 (R70). -/
def Obligations.DecomposePartitionsTheAddress : Prop :=
  Function.Bijective decompose ∧
  (∀ a : Addr, a.toNat = (decompose a).tag.toNat * 1024 + (decompose a).index.toNat * 32 + (decompose a).offset.toNat) ∧
  ∀ a b : Addr, b.toNat = a.toNat + 1 →
    ((decompose a).offset ≠ 31#5 → (decompose b).tag = (decompose a).tag ∧ (decompose b).index = (decompose a).index ∧
      (decompose b).offset = (decompose a).offset + 1#5) ∧
    ((decompose a).offset = 31#5 → (decompose b).offset = 0#5 ∧ (decompose b).index = (decompose a).index + 1#5 ∧
      (decompose b).tag = if (decompose a).index = 31#5 then (decompose a).tag + 1#8 else (decompose a).tag)

/-- The line base of an address (R71), the address rebuilt from a tag and a set (R72), and their round trip (R73): a fill
and a write-back never leave `MEM`, and a line is written back to the bytes it was filled from. -/
def Obligations.LineAddressesStayInMemory : Prop :=
  (∀ a : Addr, (lineBase a).toNat = a.toNat - a.toNat % 32 ∧ lineBase a = a.extractLsb' 5 13 ++ 0#5 ∧
    (lineBase a).toNat = (decompose a).tag.toNat * 1024 + (decompose a).index.toNat * 32 ∧
    (lineBase a).toNat ≤ 262112 ∧ (lineBase a).toNat + 31 ≤ 262143 ∧
    reconstruct (decompose a).tag (decompose a).index = lineBase a) ∧
  (∀ (t : Tag) (k : Index), (reconstruct t k).toNat = t.toNat * 1024 + k.toNat * 32 ∧
    reconstruct t k = t ++ k ++ 0#5 ∧
    (reconstruct t k).toNat ≤ 262112 ∧ decompose (reconstruct t k) = ⟨t, k, 0#5⟩) ∧
  lineBase 0x2A7F3#18 = 0x2A7E0#18 ∧ reconstruct 0xA9#8 0x1F#5 = 0x2A7E0#18

/-! ### The backing store (20_memory.md) -/

/-- One byte written to `MEM` reads back, every other byte reads as before, and the canonical form is kept (R9, R29). The
canonical form is the model's, log entry 1. -/
def Obligations.ByteOfMemReadsAsLastWritten : Prop :=
  ∀ (m : Memory) (a : Nat) (v : Byte), m.wf = true → a < 262144 →
    (m.write a v).wf = true ∧ ∀ b : Nat, (m.write a v).read b = if b = a then v else m.read b

/-- `MemWrite` of a line sets its 32 bytes and no other byte of `MEM` (R39). -/
def Obligations.LineWriteSetsItsBytesOnly : Prop :=
  ∀ (m : Memory) (a : Addr) (v : Payload), m.wf = true → a.toNat % 32 = 0 →
    (memWrite m a v).wf = true ∧
    (∀ (k : Nat) (hk : k < 32), (memWrite m a v).read (a.toNat + k) = v[k]) ∧
    (∀ b : Nat, b < a.toNat ∨ a.toNat + 32 ≤ b → (memWrite m a v).read b = m.read b) ∧
    memRead (memWrite m a v) a = v

/-! ### The LRU policy (42_lru_policy.md) -/

/-- `LRU.Touch` (R94): every other occupied way ages by 1 and the touched way gets age 0, nothing else changes; it raises
AgeOverflow exactly when an age to be incremented is the largest its finite width holds, never when the width is
infinite. -/
def Obligations.LruTouchAgesTheOtherWays : Prop :=
  ∀ (ageW : Option Nat) (B : Block Nat) (w : Fin 4),
    let t := lruTouch ageW B w
    (t.raised = true ↔ ∃ v : Fin 4, v ≠ w ∧ v.val < B.occ ∧ ∃ k, ageW = some k ∧ (B.line v).recency = 2 ^ k - 1) ∧
    t.block.occ = B.occ ∧
    (∀ v : Fin 4, (t.block.line v).tag = (B.line v).tag ∧ (t.block.line v).dirty = (B.line v).dirty ∧
      (t.block.line v).data = (B.line v).data) ∧
    (t.raised = false → ∀ v : Fin 4, (t.block.line v).recency =
      if v = w then 0 else if v.val < B.occ then (B.line v).recency + 1 else (B.line v).recency)

/-- `LRU.Victim` (R95, R96): an occupied way of maximum age, the lowest-numbered among equal maxima; on ages
(5, 7, 7, 2) it is way 1. Where ages are distinct, as in every state that a run reaches (R27), there is no tie. -/
def Obligations.LruVictimIsFirstOfMaximumAge : Prop :=
  ∀ B : Block Nat,
    (0 < B.occ → (lruVictim B).val < B.occ ∧
      (∀ v : Fin 4, v.val < B.occ → (B.line v).recency ≤ (B.line (lruVictim B)).recency) ∧
      (∀ v : Fin 4, v < lruVictim B → (B.line v).recency < (B.line (lruVictim B)).recency) ∧
      (B.agesDistinct → ∀ v : Fin 4, v.val < B.occ → v ≠ lruVictim B →
        (B.line v).recency < (B.line (lruVictim B)).recency)) ∧
    (B.occ = 4 → (B.line 0).recency = 5 → (B.line 1).recency = 7 → (B.line 2).recency = 7 → (B.line 3).recency = 2 →
      lruVictim B = 1)

/-- True LRU (R98): in a full block, after any sequence of touches that reaches every way, and whatever the ages before
it, the victim is the way whose latest touch is earliest. Positions are counted back from the end of the sequence. -/
def Obligations.LruVictimIsLeastRecentlyTouched : Prop :=
  ∀ (B : Block Nat) (touches : List (Fin 4)), B.occ = 4 → (∀ w : Fin 4, w ∈ touches) →
    let B' := touches.foldl (fun C w => (lruTouch none C w).block) B
    ∀ v : Fin 4, v ≠ lruVictim B' → touches.reverse.idxOf v < touches.reverse.idxOf (lruVictim B')

/-! ### The pseudo-LRU policy (43_plru_policy.md) -/

/-- `PLRU.Touch` (R101, R102): the used bit of the touched way is set; if then all four bits of the block are 1, whatever
the occupancy, the other three are cleared; nothing else changes. -/
def Obligations.PlruTouchSetsAndClearsAll : Prop :=
  ∀ (B : Block Bool) (w : Fin 4),
    (plruTouch B w).occ = B.occ ∧
    ∀ v : Fin 4, (plruTouch B w).line v =
      { B.line v with recency :=
          if v = w then true
          else if (∀ u : Fin 4, u ≠ w → (B.line u).recency = true) then false
          else (B.line v).recency }

/-- `PLRU.Victim` (R103, R104): the lowest occupied way whose used bit is 0; way 0 when there is none, which the
invariant of R28 rules out for a full block. -/
def Obligations.PlruVictimIsFirstClearWay : Prop :=
  ∀ B : Block Bool,
    ((∃ v : Fin 4, v.val < B.occ ∧ (B.line v).recency = false) →
      (plruVictim B).val < B.occ ∧ (B.line (plruVictim B)).recency = false ∧
      ∀ v : Fin 4, v < plruVictim B → (B.line v).recency = true) ∧
    ((∀ v : Fin 4, v.val < B.occ → (B.line v).recency = true) → plruVictim B = 0) ∧
    (B.occ = 4 → B.usedLegal → ∃ v : Fin 4, v.val < B.occ ∧ (B.line v).recency = false)

/-- After any touch of a full block between one and three used bits are 1 and the touched way's is, so the way just
touched is not the next victim (R105). -/
def Obligations.PlruTouchedWayIsNotTheNextVictim : Prop :=
  ∀ (B : Block Bool) (w : Fin 4), B.occ = 4 →
    ((plruTouch B w).line w).recency = true ∧
    1 ≤ (ways.filter fun v => ((plruTouch B w).line v).recency).length ∧
    (ways.filter fun v => ((plruTouch B w).line v).recency).length ≤ 3 ∧
    plruVictim (plruTouch B w) ≠ w

/-- The clear-all fires only on a touch after which the block has four occupied ways (R28 (b)): in a block whose
unoccupied ways have clear bits, if touching an occupied way or the one being filled clears a bit, the block is full or
that touch is its fourth fill, and then the touched way's bit alone is 1 (R101). -/
def Obligations.ClearAllFiresOnlyWhenBlockIsFull : Prop :=
  ∀ (B : Block Bool) (w : Fin 4), B.occ ≤ 4 → B.usedLegal → w.val ≤ B.occ →
    (∃ v : Fin 4, (B.line v).recency = true ∧ ((plruTouch B w).line v).recency = false) →
      (B.occ = 4 ∨ (B.occ = 3 ∧ w = 3)) ∧ ∀ u : Fin 4, ((plruTouch B w).line u).recency = decide (u = w)

/-! ### The byte sub-access (41_block_lookup_fill.md) -/

/-- Lookup answers the least occupied way with the tag, and none exactly when no occupied way has it; where the tags of
occupied ways are distinct (R26) the one way that has it is the answer (R77). -/
def Obligations.LookupIsLeastOccupiedMatch : Prop :=
  ∀ (ρ : Type) (B : Block ρ) (t : Tag),
    (∀ w : Fin 4, lookup B t = some w ↔
      w.val < B.occ ∧ (B.line w).tag = t ∧ ∀ v : Fin 4, v < w → ¬(v.val < B.occ ∧ (B.line v).tag = t)) ∧
    (lookup B t = none ↔ ∀ v : Fin 4, v.val < B.occ → (B.line v).tag ≠ t) ∧
    (B.tagsDistinct → ∀ w : Fin 4, w.val < B.occ → (B.line w).tag = t → lookup B t = some w)

/-- Read hit and write hit in either array (R79, R80), with the recency its policy gives (R94, R101). -/
def Obligations.HitTouchesAndStoresOneByte : Prop :=
  (∀ ageW : Option Nat, HitEffect (lruOps ageW) (touchRoom ageW) touchedAge) ∧
  HitEffect plruOps (fun _ _ => True) touchedUsed

/-- A miss in a block that is not full, in either array (R81, R82). -/
def Obligations.MissFillsTheNextFreeWay : Prop :=
  (∀ ageW : Option Nat, FreeWayEffect (lruOps ageW) (touchRoom ageW) touchedAge) ∧
  FreeWayEffect plruOps (fun _ _ => True) touchedUsed

/-- A miss in a full block, in either array: write-back of a dirty victim, then the fill (R83, R84). -/
def Obligations.MissInFullBlockEvictsTheVictim : Prop :=
  (∀ ageW : Option Nat, EvictionEffect (lruOps ageW) (touchRoom ageW) touchedAge) ∧
  EvictionEffect plruOps (fun _ _ => True) touchedUsed

/-! ### The access commands RD1, RD2, RD4, WR1, WR2, WR4 (44_engine_commands.md) -/

/-- Each of RD1, RD2, RD4, WR1, WR2, WR4 completes when it is admitted and no age can overflow, and leaves every register
but the request and hit counters, the parameters and the host's moves unchanged; a WRITE answers RDATA 0 (R109 to
R116). -/
def Obligations.AccessCompletesAndCountsOneRequest : Prop :=
  ∀ (i : Instr) (a : Addr) (n : Nat) (value : Option Data) (s : State),
    accessOf i = some (a, n, value) → Admitted s a n → AgeRoom s a n →
      ∃ t rw, exec i s = .next t ∧ AccessDone s t rw ∧ (value.isSome = true → rdataOf rw = 0#32)

/-- A whole access command is `ByteAccess` taken once over each byte of the event, ascending, in `ARR[LRU]` and then, on the
`MEM` that leaves, in `ARR[PLRU]`, each if enabled (R46, R109, R118): that gives both arrays with their tags, dirty flags,
payloads, occupancy and recency, and `MEM`. A hit flag is 1 exactly when every sub-access of its enabled policy hit, and
`RDATA` of a READ is the little-endian sum of the bytes returned, from the LRU array when that is enabled (R116, R117). -/
def Obligations.AccessIsItsSubAccessesInOrder : Prop :=
  ∀ (i : Instr) (a : Addr) (n : Nat) (value : Option Data) (s : State),
    accessOf i = some (a, n, value) → Admitted s a n → AgeRoom s a n →
      let lruPol := lruOps s.params.ageW
      let afterLru := if enabled s.mode .lru then afterBytes lruPol a value s.lru s.mem n else (s.lru, s.mem)
      let afterPlru :=
        if enabled s.mode .plru then afterBytes plruOps a value s.plru afterLru.2 n else (s.plru, afterLru.2)
      let lruByte := byteResult lruPol a value s.lru s.mem
      let plruByte := byteResult plruOps a value s.plru afterLru.2
      ∃ t rw, exec i s = .next t ∧ AccessDone s t rw ∧ t.lru = afterLru.1 ∧ t.plru = afterPlru.1 ∧ t.mem = afterPlru.2 ∧
        (hitLruOf rw = 1#1 ↔ enabled s.mode .lru = true ∧ ∀ k < n, (lruByte k).hit = true) ∧
        (hitPlruOf rw = 1#1 ↔ enabled s.mode .plru = true ∧ ∀ k < n, (plruByte k).hit = true) ∧
        (value.isSome = true → rdataOf rw = 0#32) ∧
        (value = none → someEnabled s → (rdataOf rw).toNat =
          if enabled s.mode .lru then byteSum n fun k => (lruByte k).byte else byteSum n fun k => (plruByte k).byte)

/-- The hit flag of an enabled policy is 1 exactly when every byte of the event was resident in its array before the
command, and that of a policy not enabled is 0 (R61, R116). -/
def Obligations.HitFlagIffEveryByteResident : Prop :=
  ∀ (i : Instr) (a : Addr) (n : Nat) (value : Option Data) (s : State),
    accessOf i = some (a, n, value) → Admitted s a n → AgeRoom s a n →
      ∃ t rw, exec i s = .next t ∧ AccessDone s t rw ∧
        (hitLruOf rw = 1#1 ↔ enabled s.mode .lru = true ∧ ∀ j < n, residentIn s.lru (byteAddr a j)) ∧
        (hitPlruOf rw = 1#1 ↔ enabled s.mode .plru = true ∧ ∀ j < n, residentIn s.plru (byteAddr a j))

/-- After an access command every byte of its event is resident in every enabled array: write-allocate as well as
read-allocate (R85, R91). -/
def Obligations.AccessLeavesItsBytesResident : Prop :=
  ∀ (i : Instr) (a : Addr) (n : Nat) (value : Option Data) (s : State),
    accessOf i = some (a, n, value) → Admitted s a n → AgeRoom s a n →
      ∃ t, exec i s = .next t ∧
        (enabled s.mode .lru = true → ∀ j < n, residentIn t.lru (byteAddr a j)) ∧
        (enabled s.mode .plru = true → ∀ j < n, residentIn t.plru (byteAddr a j))

/-- The memory frame of the access commands, faulted or not: a byte of `MEM` outside the lines that the event writes back
is unchanged, and each of those lines lies in a set that some byte of the event maps to (R40, R84). The lines are computed
by the recursion of the meaning itself. -/
def Obligations.AccessChangesOnlyLinesItWritesBack : Prop :=
  ∀ (i : Instr) (a : Addr) (n : Nat) (value : Option Data) (s t : State),
    accessOf i = some (a, n, value) → s.mem.wf = true → exec i s = .next t →
      let xs := subAccesses a n value
      (∀ x : Nat, (∀ b ∈ lruWriteBacks s xs ++ plruWriteBacks s xs, ¬inLine b x) → t.mem.read x = s.mem.read x) ∧
      ∀ b ∈ lruWriteBacks s xs ++ plruWriteBacks s xs,
        b.toNat % 32 = 0 ∧ ∃ j < n, (decompose b).index = (decompose (byteAddr a j)).index

/-- The array frame of the access commands, faulted or not: a block that no byte of the event maps to is unchanged in
both arrays, and an array that is not enabled is unchanged (R75, R109). -/
def Obligations.AccessChangesOnlyBlocksItMapsTo : Prop :=
  ∀ (i : Instr) (a : Addr) (n : Nat) (value : Option Data) (s t : State),
    accessOf i = some (a, n, value) → exec i s = .next t →
      (∀ k : Index, (∀ j < n, k ≠ (decompose (byteAddr a j)).index) →
        t.lru.block k = s.lru.block k ∧ t.plru.block k = s.plru.block k) ∧
      (enabled s.mode .lru = false → t.lru = s.lru) ∧ (enabled s.mode .plru = false → t.plru = s.plru)

/-- A WRITE of 1, 2 or 4 bytes and then a READ of as many at the same address returns the written value, zero-extended
from its size, as a hit in every enabled array (R115, R41). -/
def Obligations.ReadAfterWriteReturnsTheValue : Prop :=
  ∀ (s : State) (a : Addr) (d e : Data), someEnabled s →
    (Admitted s a 1 → AgeRoom s a 1 → ∃ t, exec (.wr1 a d) s = .next t ∧
      (Admitted t a 1 → AgeRoom t a 1 → ∃ u rw, exec (.rd1 a e) t = .next u ∧ AccessDone t u rw ∧
        rdataOf rw = (d.extractLsb' 0 8).setWidth 32 ∧
        (enabled s.mode .lru = true → hitLruOf rw = 1#1) ∧ (enabled s.mode .plru = true → hitPlruOf rw = 1#1))) ∧
    (Admitted s a 2 → AgeRoom s a 2 → ∃ t, exec (.wr2 a d) s = .next t ∧
      (Admitted t a 2 → AgeRoom t a 2 → ∃ u rw, exec (.rd2 a e) t = .next u ∧ AccessDone t u rw ∧
        rdataOf rw = (d.extractLsb' 0 16).setWidth 32 ∧
        (enabled s.mode .lru = true → hitLruOf rw = 1#1) ∧ (enabled s.mode .plru = true → hitPlruOf rw = 1#1))) ∧
    (Admitted s a 4 → AgeRoom s a 4 → ∃ t, exec (.wr4 a d) s = .next t ∧
      (Admitted t a 4 → AgeRoom t a 4 → ∃ u rw, exec (.rd4 a e) t = .next u ∧ AccessDone t u rw ∧
        rdataOf rw = d ∧
        (enabled s.mode .lru = true → hitLruOf rw = 1#1) ∧ (enabled s.mode .plru = true → hitPlruOf rw = 1#1)))

/-! ### Coherence (20_memory.md R47) -/

/-- RD1, RD2 and RD4 return the true content of their bytes, little-endian, whether they hit or miss and whichever array
supplies it, and keep every enabled array coherent with `MEM` (R41, R47, R117). -/
def Obligations.ReadReturnsTheTrueContent : Prop :=
  ∀ (C : Addr → Byte) (i : Instr) (a : Addr) (n : Nat) (s : State),
    accessOf i = some (a, n, none) → Inv s → Coherent C s → someEnabled s → Admitted s a n → AgeRoom s a n →
      ∃ t rw, exec i s = .next t ∧ AccessDone s t rw ∧ rdataOf rw = contentValue C a n ∧ Coherent C t

/-- WR1, WR2 and WR4 replace the true content of their bytes, in every enabled array, and keep every enabled array
coherent with `MEM` (R41, R47). -/
def Obligations.WriteReplacesTheTrueContent : Prop :=
  ∀ (C : Addr → Byte) (i : Instr) (a : Addr) (n : Nat) (d : Data) (s : State),
    accessOf i = some (a, n, some d) → Inv s → Coherent C s → Admitted s a n → AgeRoom s a n →
      ∃ t rw, exec i s = .next t ∧ AccessDone s t rw ∧ Coherent (contentAfterWrite C a n d) t

/-- FLUSH leaves the true content of every address in `MEM`, where the host may then read it (R51, R122). -/
def Obligations.FlushPublishesTheTrueContent : Prop :=
  ∀ (C : Addr → Byte) (z : BitVec 3) (a : Addr) (d : Data) (s : State),
    Inv s → Coherent C s → someEnabled s → s.phase = .run →
      ∃ t, exec (.flush z a d) s = .next t ∧ t.phase = .done ∧
        ∀ x : Addr, t.mem.read x.toNat = C x ∧ t.hostRead x = some (C x)

/-- Every release of reset leaves the arrays coherent with whatever `MEM` holds: that is then the true content, MEM_INIT
(R47, R151). -/
def Obligations.ResetStartsCoherent : Prop :=
  ∀ (s : State) (modeIn : BitVec 2), Coherent (fun x => s.mem.read x.toNat) (resetRelease modeIn s)

/-- The engine is a flat memory to the host (R45, R47, R51): any sequence of in-range access commands, presented to a
coherent machine in phase RUN with unbounded ages and counters, answers what the same sequence answers on a flat memory
with the same true content, one response per command and in order, and ends coherent with that memory's final
contents. -/
def Obligations.EngineRefinesFlatMemory : Prop :=
  ∀ (is : List Instr) (C : Addr → Byte) (s : State) (rest : List HostInput),
    (∀ i ∈ is, (accessOf i).isSome = true ∧ i.wellFormed = true) →
    Inv s → Coherent C s → someEnabled s → s.phase = .run → s.params = Config.defaultParams →
    s.inputs = is.map (fun i => .command (encode i)) ++ rest →
      ∃ t rs, Host.Core.run Sys2Proof.core is.length s = .next t ∧ t.inputs = rest ∧
        t.responses = s.responses ++ rs ∧ rs.map Response.rdata = (flatRun C is).2.map some ∧
        t.requests = s.requests + is.length ∧ t.phase = .run ∧ Coherent (flatRun C is).1 t

/-! ### FLUSH and REPORT (44_engine_commands.md) -/

/-- FLUSH completes in phase RUN (R120 to R122): `MEM` and `PHASE` are all it changes, besides giving its one response.
A byte of `MEM` whose line no enabled array holds dirty is unchanged; a byte whose line an enabled array holds dirty gets
that array's payload byte, that of the pseudo-LRU array, which is drained last, where both hold it. -/
def Obligations.FlushWritesBackEveryDirtyLine : Prop :=
  ∀ (z : BitVec 3) (a : Addr) (d : Data) (s : State), s.phase = .run →
    ∃ t rw, exec (.flush z a d) s = .next t ∧
      t = { s with mem := t.mem, phase := .done, responses := s.responses ++ [.word rw] } ∧
      reservedOf rw = 0#24 ∧ faultOf rw = 0#1 ∧ causeOf rw = 0#3 ∧ phaseOf rw = 1#2 ∧ hitLruOf rw = 0#1 ∧ hitPlruOf rw = 0#1 ∧
      rdataOf rw = 0#32 ∧
      (s.mem.wf = true → (∀ k, (s.lru.block k).tagsDistinct) → (∀ k, (s.plru.block k).tagsDistinct) →
        t.mem.wf = true ∧ ∀ x : Addr,
          (∀ w, enabled s.mode .plru = true → flushes s.plru x w →
            t.mem.read x.toNat = (s.plru.block (decompose x).index).byteAt w (decompose x).offset) ∧
          (∀ w, enabled s.mode .lru = true → flushes s.lru x w →
            ¬(enabled s.mode .plru = true ∧ ∃ v, flushes s.plru x v) →
            t.mem.read x.toNat = (s.lru.block (decompose x).index).byteAt w (decompose x).offset) ∧
          (¬(enabled s.mode .lru = true ∧ ∃ v, flushes s.lru x v) →
            ¬(enabled s.mode .plru = true ∧ ∃ v, flushes s.plru x v) →
            t.mem.read x.toNat = s.mem.read x.toNat))

/-- REPORT completes in every phase and changes nothing but that it gives its record, the registers with VALID 1 exactly
when the phase is not ERROR and a request has been counted (R62, R123, R125). That a record with VALID 0 in phase ERROR
still holds the mode and the counters of the registers is the model's choice, log entry 13. -/
def Obligations.ReportAnswersTheRegisters : Prop :=
  ∀ (z : BitVec 3) (a : Addr) (d : Data) (s : State),
    exec (.report z a d) s = .next { s with
      responses := s.responses ++ [.record
        { valid := decide (s.phase ≠ .error ∧ 0 < s.requests), mode := s.mode, requests := s.requests,
          hitsLru := s.hitsLru, hitsPlru := s.hitsPlru, phase := s.phase, cause := s.cause }] }

/-- The hit rate formed from a record lies between 0 and 100 and is `100 * HITS_P / REQUESTS`; there is none when no
request has been counted, when the phase is ERROR, or for a policy not enabled (R124, R125). -/
def Obligations.HitRateIsAPercentage : Prop :=
  ∀ (s : State) (P : Policy), Inv s →
    (∀ q : Rat, (reportRecord s).hitRate P = some q →
      0 ≤ q ∧ q ≤ 100 ∧ q * s.requests = 100 * (reportRecord s).hits P) ∧
    ((reportRecord s).hitRate P = none ↔ s.requests = 0 ∨ s.phase = .error ∨ enabled s.mode P = false)

/-- The fields a command ignores have no effect but on `INFO`, which records the whole word of a command that faults
(R66, R129). -/
def Obligations.IgnoredFieldsHaveNoEffect : Prop :=
  ∀ (s : State) (a a' : Addr) (d d' : Data) (z z' : BitVec 3),
    (∃ t t', exec (.rd1 a d) s = .next t ∧ exec (.rd1 a d') s = .next t' ∧ t.withoutInfo = t'.withoutInfo) ∧
    (∃ t t', exec (.rd2 a d) s = .next t ∧ exec (.rd2 a d') s = .next t' ∧ t.withoutInfo = t'.withoutInfo) ∧
    (∃ t t', exec (.rd4 a d) s = .next t ∧ exec (.rd4 a d') s = .next t' ∧ t.withoutInfo = t'.withoutInfo) ∧
    (d.extractLsb' 0 8 = d'.extractLsb' 0 8 →
      ∃ t t', exec (.wr1 a d) s = .next t ∧ exec (.wr1 a d') s = .next t' ∧ t.withoutInfo = t'.withoutInfo) ∧
    (d.extractLsb' 0 16 = d'.extractLsb' 0 16 →
      ∃ t t', exec (.wr2 a d) s = .next t ∧ exec (.wr2 a d') s = .next t' ∧ t.withoutInfo = t'.withoutInfo) ∧
    (∃ t t', exec (.flush z a d) s = .next t ∧ exec (.flush z' a' d') s = .next t' ∧
      t.withoutInfo = t'.withoutInfo) ∧
    exec (.report z a d) s = exec (.report z' a' d') s

/-! ### Faults (60_exceptions.md) -/

/-- Fault entry (R137): in a phase other than ERROR the cause, the information and phase ERROR are stored, in phase ERROR
nothing is; either way one response is given, with FAULT 1, the stored cause, phase ERROR, hit flags and RDATA 0; nothing
else changes; and a later REPORT has VALID 0. -/
def Obligations.FaultEntryStoresTheFirstFault : Prop :=
  ∀ (c : Cause) (info : Word) (s : State),
    ∃ rw, reservedOf rw = 0#24 ∧ faultOf rw = 1#1 ∧ phaseOf rw = 2#2 ∧ hitLruOf rw = 0#1 ∧ hitPlruOf rw = 0#1 ∧ rdataOf rw = 0#32 ∧
      (s.phase ≠ .error → causeOf rw = c.code ∧ raiseFault c info s =
        { s with cause := c, info := info, phase := .error, responses := s.responses ++ [.word rw] }) ∧
      (s.phase = .error → causeOf rw = s.cause.code ∧
        raiseFault c info s = { s with responses := s.responses ++ [.word rw] }) ∧
      (reportRecord (raiseFault c info s)).valid = false

/-- The cause codes (R129): 0 is no fault, 1 is ConfigError, and taking any other fault outside phase ERROR stores and
answers its code of the table, IllegalCommand 2, MalformedEvent 3, AddressRange 4, Protocol 5, AgeOverflow 6,
CounterOverflow 7. -/
def Obligations.FaultResponseCarriesItsTabledCode : Prop :=
  Cause.none.code = 0#3 ∧ Cause.configError.code = 1#3 ∧
  ∀ (s : State) (info : Word), s.phase ≠ .error →
    ∀ p ∈ [(Cause.illegalCommand, 2#3), (.malformedEvent, 3#3), (.addressRange, 4#3), (.protocol, 5#3),
        (.ageOverflow, 6#3), (.counterOverflow, 7#3)],
      (raiseFault p.1 info s).cause.code = p.2 ∧
      ∃ rw, (raiseFault p.1 info s).responses = s.responses ++ [.word rw] ∧ causeOf rw = p.2

/-- IllegalCommand (R132): a command word with a nonzero reserved field or a reserved `OP`, in phase RUN or DONE, faults;
nothing but the cause, the information, the phase and the response changes. -/
def Obligations.ReservedWordsAreIllegal : Prop :=
  ∀ (s : State) (cw : Word) (rest : List HostInput), s.inputs = .command cw :: rest → s.phase ≠ .error →
    (cw.extractLsb' 56 8 ≠ 0#8 ∨ 4 ≤ (cw.extractLsb' 53 3).toNat) →
      step s = .next (faulted { s with inputs := rest, started := true } .illegalCommand cw)

/-- MalformedEvent (R133): a READ or WRITE whose `SIZE` is not 1, 2 or 4, in phase RUN, faults before any state
change. -/
def Obligations.BadSizeIsMalformed : Prop :=
  ∀ (s : State) (cw : Word) (rest : List HostInput), s.inputs = .command cw :: rest → s.phase = .run →
    cw.extractLsb' 56 8 = 0#8 → (cw.extractLsb' 53 3).toNat < 2 → cw.extractLsb' 50 3 ∉ [1#3, 2#3, 4#3] →
      step s = .next (faulted { s with inputs := rest, started := true } .malformedEvent cw)

/-- AddressRange (R134): a READ or WRITE whose last byte lies outside `MEM` faults at admission, before the request is
counted and before any byte is accessed; it can happen only for 2 bytes at 0x3FFFF and for 4 bytes from 0x3FFFD on. -/
def Obligations.EventPastTheTopFaults : Prop :=
  ∀ (i : Instr) (a : Addr) (n : Nat) (value : Option Data) (s : State), accessOf i = some (a, n, value) →
    (s.phase = .run → 262143 < a.toNat + n - 1 → exec i s = .next (faulted s .addressRange (encode i))) ∧
    (262143 < a.toNat + n - 1 ↔ (n = 2 ∧ a = 0x3FFFF#18) ∨ (n = 4 ∧ 0x3FFFD ≤ a.toNat))

/-- CounterOverflow (R136): with a finite `CNT_W`, an in-range READ or WRITE in phase RUN with `REQUESTS` at its largest
value faults before any state change; with an infinite one it never occurs. -/
def Obligations.FullRequestCounterFaults : Prop :=
  ∀ (i : Instr) (a : Addr) (n : Nat) (value : Option Data) (s : State), accessOf i = some (a, n, value) →
    s.phase = .run → a.toNat + n ≤ 262144 →
      (∀ w, s.params.cntW = some w → s.requests = 2 ^ w - 1 →
        exec i s = .next (faulted s .counterOverflow (encode i))) ∧
      (s.params.cntW = none → ∃ t, exec i s = .next t ∧ (t.cause = .counterOverflow → s.cause = .counterOverflow))

/-- AgeOverflow (R135): with a finite `AGE_W`, an admitted access whose first byte touches a way of `ARR[LRU]` while
another occupied way of the block has the largest age ends in phase ERROR with that cause, after the request has been
counted; no hit is counted, the pseudo-LRU array is not driven (from the order of R109, log entry 11). -/
def Obligations.AgeAtItsLimitEndsTheCommand : Prop :=
  ∀ (i : Instr) (a : Addr) (n : Nat) (value : Option Data) (s : State) (k : Nat) (v : Fin 4),
    accessOf i = some (a, n, value) → Admitted s a n → enabled s.mode .lru = true → s.params.ageW = some k →
    let B := s.lru.block (decompose a).index
    let u := (lookup B (decompose a).tag).getD (missWay (lruOps (some k)) B)
    v ≠ u → v.val < B.occ → (B.line v).recency = 2 ^ k - 1 →
      ∃ t rw, exec i s = .next t ∧ t.phase = .error ∧ t.cause = .ageOverflow ∧ t.info = encode i ∧
        t.responses = s.responses ++ [.word rw] ∧ reservedOf rw = 0#24 ∧ faultOf rw = 1#1 ∧ causeOf rw = 6#3 ∧ phaseOf rw = 2#2 ∧
        hitLruOf rw = 0#1 ∧ hitPlruOf rw = 0#1 ∧ rdataOf rw = 0#32 ∧
        t.requests = s.requests + 1 ∧ t.hitsLru = s.hitsLru ∧ t.hitsPlru = s.hitsPlru ∧ t.plru = s.plru ∧
        t.mode = s.mode ∧ t.params = s.params ∧ t.inputs = s.inputs ∧ t.started = s.started

/-- Protocol (R138): in phase DONE each of RD1, RD2, RD4, WR1, WR2, WR4 and FLUSH faults, whatever its operands, as does
a READ or WRITE of a bad size; REPORT is legal there. -/
def Obligations.CommandsAfterFlushFault : Prop :=
  ∀ s : State, s.phase = .done →
    (∀ i : Instr, (∀ z a d, i ≠ .report z a d) → exec i s = .next (faulted s .protocol (encode i))) ∧
    (∀ cw rest, s.inputs = .command cw :: rest → decode cw = .error .malformedEvent →
      step s = .next (faulted { s with inputs := rest, started := true } .protocol cw)) ∧
    ∀ z a d, exec (.report z a d) s = .next { s with responses := s.responses ++ [.record (reportRecord s)] }

/-- The order of the checks (R139): a command that meets several conditions reports the first in the order ERROR phase,
IllegalCommand, Protocol, MalformedEvent, AddressRange, CounterOverflow; a command that passes them all either takes no
fault or, being a READ or WRITE, takes AgeOverflow. -/
def Obligations.FirstConditionInOrderIsReported : Prop :=
  ∀ (s : State) (cw : Word) (rest : List HostInput), s.inputs = .command cw :: rest →
    let s' := { s with inputs := rest, started := true }
    let op := (cw.extractLsb' 53 3).toNat
    let size := (cw.extractLsb' 50 3).toNat
    let addr := (cw.extractLsb' 32 18).toNat
    ∃ t, step s = .next t ∧
      if s.phase = .error then t.phase = .error ∧ t.cause = s.cause ∧ t.info = s.info
      else if cw.extractLsb' 56 8 ≠ 0#8 ∨ 4 ≤ op then t = faulted s' .illegalCommand cw
      else if op ≠ 3 ∧ s.phase = .done then t = faulted s' .protocol cw
      else if op < 2 ∧ size ≠ 1 ∧ size ≠ 2 ∧ size ≠ 4 then t = faulted s' .malformedEvent cw
      else if op < 2 ∧ 262143 < addr + size - 1 then t = faulted s' .addressRange cw
      else if op < 2 ∧ ∃ w, s.params.cntW = some w ∧ s.requests = 2 ^ w - 1 then t = faulted s' .counterOverflow cw
      else (t.phase ≠ .error ∧ t.cause = s.cause ∧ t.info = s.info) ∨
        (op < 2 ∧ t.phase = .error ∧ t.cause = .ageOverflow ∧ t.info = cw)

/-- Precision (R140): a command that takes a fault other than AgeOverflow leaves the state after the previous command,
but for the cause, the information, the phase and the response. -/
def Obligations.FaultsButAgeOverflowArePrecise : Prop :=
  ∀ (s t : State) (cw : Word) (rest : List HostInput), s.inputs = .command cw :: rest → step s = .next t →
    s.phase ≠ .error → t.phase = .error → t.cause ≠ .ageOverflow →
      t = faulted { s with inputs := rest, started := true } t.cause cw

/-- Phase ERROR (R141): every command presented there, legal or not, gets exactly one response, with FAULT 1 and the
stored cause, or for REPORT the record with VALID 0 and the stored cause, and changes no state; a step leaves the phase
only by a reset. That a word with the `OP` of REPORT and a nonzero `RSV` gets the former is log entry 14. -/
def Obligations.ErrorPhaseAnswersAndStays : Prop :=
  ∀ s : State, s.phase = .error →
    (∀ cw rest, s.inputs = .command cw :: rest → ∃ r,
      step s = .next { s with inputs := rest, started := true, responses := s.responses ++ [r] } ∧
      if ∃ z a d, decode cw = .ok (.report z a d) then
        ∃ q, r = .record q ∧ q.valid = false ∧ q.phase = .error ∧ q.cause = s.cause
      else ∃ rw, r = .word rw ∧ reservedOf rw = 0#24 ∧ faultOf rw = 1#1 ∧ causeOf rw = s.cause.code ∧ phaseOf rw = 2#2 ∧
        hitLruOf rw = 0#1 ∧ hitPlruOf rw = 0#1 ∧ rdataOf rw = 0#32) ∧
    ∀ t, step s = .next t → t.phase = .error ∨ ∃ m rest, s.inputs = .reset m :: rest

/-- The engine never hangs (R141): every command word, legal or not, in any phase and any state, is taken off the host's
list and gets exactly one response. -/
def Obligations.EveryCommandGetsOneResponse : Prop :=
  ∀ (s : State) (cw : Word) (rest : List HostInput), s.inputs = .command cw :: rest →
    ∃ t r, step s = .next t ∧ t.inputs = rest ∧ t.responses = s.responses ++ [r]

/-! ### Reset and the host's moves (70_reset_and_hazards.md) -/

/-- Reset (R148, R151): its release with a recognised `MODE_IN` empties every block, clears every used bit, zeroes the
counters, the cause and the information, starts phase RUN in the sampled mode and leaves `MEM`; and reset is the only way
to empty a block, to zero a counter, to change `MODE` and to leave phase DONE for RUN, or ERROR. -/
def Obligations.ResetAndOnlyResetStartsAfresh : Prop :=
  (∀ (s : State) (m : BitVec 2) (rest : List HostInput), s.inputs = .reset m :: rest → m ≠ 3#2 →
    ∃ t, step s = .next t ∧ (∀ k, (t.lru.block k).occ = 0) ∧ (∀ k, (t.plru.block k).occ = 0) ∧
      (∀ k w, ((t.plru.block k).line w).recency = false) ∧ t.requests = 0 ∧ t.hitsLru = 0 ∧ t.hitsPlru = 0 ∧
      t.phase = .run ∧ t.cause = .none ∧ t.info = 0 ∧ t.mode.code = m ∧ t.mem = s.mem ∧ t.params = s.params ∧
      t.inputs = rest ∧ t.responses = s.responses) ∧
  ∀ s t : State, (∀ m rest, s.inputs ≠ .reset m :: rest) → step s = .next t →
    (∀ k, (s.lru.block k).occ ≤ (t.lru.block k).occ) ∧ (∀ k, (s.plru.block k).occ ≤ (t.plru.block k).occ) ∧
    s.requests ≤ t.requests ∧ s.hitsLru ≤ t.hitsLru ∧ s.hitsPlru ≤ t.hitsPlru ∧ t.mode = s.mode ∧
    t.params = s.params ∧ (s.phase = .done → t.phase ≠ .run) ∧ (s.phase = .error → t.phase = .error)

/-- ConfigError (R130): a reset released with `MODE_IN` = 3 enters phase ERROR with cause 1 and information 0 before any
command; `MODE` then holds 3 and no array is enabled. The values 0, 1 and 2 are the recognised ones: with them the phase
is RUN, and 0 enables both arrays, 1 the LRU array only, 2 the pseudo-LRU array only (R63, R9). -/
def Obligations.UnrecognisedModeIsAConfigError : Prop :=
  ∀ (s : State) (rest : List HostInput),
    (s.inputs = .reset 3#2 :: rest →
      ∃ t, step s = .next t ∧ t.phase = .error ∧ t.cause = .configError ∧ t.cause.code = 1#3 ∧ t.info = 0 ∧
        t.mode.code = 3#2 ∧ (∀ P, enabled t.mode P = false) ∧ t.inputs = rest) ∧
    ∀ m, m ≠ 3#2 → s.inputs = .reset m :: rest → ∃ t, step s = .next t ∧ t.phase = .run ∧ t.mode.code = m ∧
      (enabled t.mode .lru = true ↔ m = 0#2 ∨ m = 1#2) ∧ (enabled t.mode .plru = true ↔ m = 0#2 ∨ m = 2#2)

/-- The state right after reset (R35, R148): empty blocks, clear used bits, zero counters, phase RUN, mode Both, no cause,
and it is what the release of reset with `MODE_IN` = 0 leaves of itself. -/
def Obligations.ResetStateIsAsTheSpecSays : Prop :=
  (∀ k, (State.reset.lru.block k).occ = 0 ∧ (State.reset.plru.block k).occ = 0) ∧
  (∀ k w, ((State.reset.plru.block k).line w).recency = false) ∧
  State.reset.requests = 0 ∧ State.reset.hitsLru = 0 ∧ State.reset.hitsPlru = 0 ∧ State.reset.phase = .run ∧
  State.reset.cause = .none ∧ State.reset.info = 0 ∧ State.reset.mode = .both ∧
  resetRelease 0#2 State.reset = State.reset

/-- What the host does outside the command set. With no move pending the engine holds its state (R147). A load of a byte
of `MEM` changes that byte and nothing else, before the first command of a run and in phases DONE and ERROR; in phase RUN
after the first command it has no meaning (R152, R157). The stop and the mark that a run has begun are the model's choice,
log entries 6, 7 and 18. -/
def Obligations.HostMovesOutsideTheCommands : Prop :=
  ∀ s : State,
    (s.inputs = [] → step s = .next s) ∧
    ∀ a v rest, s.inputs = .load a v :: rest →
      (s.started = false ∨ s.phase ≠ .run → ∃ t, step s = .next t ∧ t = { s with inputs := rest, mem := t.mem } ∧
        (s.mem.wf = true → t.mem.wf = true ∧ ∀ x : Nat, t.mem.read x = if x = a.toNat then v else s.mem.read x)) ∧
      (s.started = true → s.phase = .run → step s = .fault .hostWroteMem)

/-! ### Invariants and relations (10_state.md) -/

/-- The state right after reset satisfies the invariant. -/
def Obligations.InvariantHoldsAtReset : Prop := Inv State.reset

/-- Every step keeps the invariant, from every state that satisfies it (R25 to R28, R32, R33, R90): the canonical form of
`MEM`, occupancy at most 4, distinct tags, distinct ages until a fault, legal used bits, hits at most requests, ages and
counters within their widths, the fault registers consistent, and arrays that are not enabled empty. -/
def Obligations.EveryStepKeepsTheInvariant : Prop :=
  ∀ s t : State, Inv s → step s = .next t → Inv t

/-- The independence of the arrays (R34): tags, occupancy, dirty flags, recency metadata, hit flags and hit counts of one
array after a command are a function of the same before it and of the command; neither the payloads, nor the other array,
nor whether it is enabled, nor `MEM` enters. Ages are taken unbounded, so that no fault ends a command early. -/
def Obligations.ArraysDoNotInfluenceEachOther : Prop :=
  ∀ (i : Instr) (s s' t t' : State), s.phase = s'.phase → s.params = s'.params → s.requests = s'.requests →
    s.params.ageW = none → exec i s = .next t → exec i s' = .next t' →
      ((enabled s.mode .lru = enabled s'.mode .lru → (∀ k, (s.lru.block k).sameMeta (s'.lru.block k)) →
        (∀ k, (t.lru.block k).sameMeta (t'.lru.block k)) ∧ t.hitsLru + s'.hitsLru = t'.hitsLru + s.hitsLru) ∧
      (enabled s.mode .plru = enabled s'.mode .plru → (∀ k, (s.plru.block k).sameMeta (s'.plru.block k)) →
        (∀ k, (t.plru.block k).sameMeta (t'.plru.block k)) ∧ t.hitsPlru + s'.hitsPlru = t'.hitsPlru + s.hitsPlru)) ∧
      t.phase = t'.phase ∧ t.requests = t'.requests

/-- The unspecified fields of unoccupied ways are never read (R90, R149): two states that differ only in the tag, dirty
flag, payload or age of unoccupied ways take steps that stop alike or lead to two states that again differ only so. The
values the model names for those fields at reset (log entry 2) therefore show nowhere. -/
def Obligations.UnoccupiedWaysAreNeverRead : Prop :=
  ∀ s s' : State, SameButUnoccupied s s' →
    (∀ t, step s = .next t → ∃ t', step s' = .next t' ∧ SameButUnoccupied t t') ∧
    (∀ f, step s = .fault f → step s' = .fault f)
end

