-- ==== Sys2Proof/Laws/Address.lean ====
section
/-! SUPPORT. The address decomposer as arithmetic on natural numbers (R69 to R73), and the sub-accesses of an event. -/

namespace Sys2Proof.Machine

@[simp] theorem decompose_tag_toNat (a : Addr) : (decompose a).tag.toNat = a.toNat / 1024 := by
  have := a.isLt
  simp [decompose, BitVec.extractLsb'_toNat, Nat.shiftRight_eq_div_pow]
  omega

@[simp] theorem decompose_index_toNat (a : Addr) : (decompose a).index.toNat = a.toNat / 32 % 32 := by
  simp [decompose, BitVec.extractLsb'_toNat, Nat.shiftRight_eq_div_pow]

@[simp] theorem decompose_offset_toNat (a : Addr) : (decompose a).offset.toNat = a.toNat % 32 := by
  simp [decompose, BitVec.extractLsb'_toNat]

@[simp] theorem lineBase_toNat (a : Addr) : (lineBase a).toNat = a.toNat / 32 * 32 := by
  have := a.isLt
  have h : (lineBase a).toNat = (BitVec.extractLsb' 5 13 a).toNat <<< 5 ||| (0#5).toNat := BitVec.toNat_append ..
  rw [h]
  simp [BitVec.extractLsb'_toNat, Nat.shiftRight_eq_div_pow, Nat.shiftLeft_eq]
  omega

@[simp] theorem reconstruct_toNat (t : Tag) (s : Index) : (reconstruct t s).toNat = t.toNat * 1024 + s.toNat * 32 := by
  have ht := t.isLt
  have hs := s.isLt
  have h : (reconstruct t s).toNat = (t ++ s).toNat <<< 5 ||| (0#5).toNat := BitVec.toNat_append ..
  rw [h, BitVec.toNat_append]
  have h1 : t.toNat <<< 5 ||| s.toNat = t.toNat * 32 + s.toNat := by
    rw [← Nat.shiftLeft_add_eq_or_of_lt hs, Nat.shiftLeft_eq]
  rw [h1]
  simp [Nat.shiftLeft_eq]
  omega

theorem lineBase_mod (a : Addr) : (lineBase a).toNat % 32 = 0 := by simp

theorem reconstruct_mod (t : Tag) (s : Index) : (reconstruct t s).toNat % 32 = 0 := by
  rw [reconstruct_toNat]; omega

/-- The round trip of R73, first half. -/
@[simp] theorem reconstruct_decompose (a : Addr) : reconstruct (decompose a).tag (decompose a).index = lineBase a := by
  apply BitVec.eq_of_toNat_eq
  simp
  omega

/-- Two addresses with the same fields are one (R70). -/
theorem decompose_inj {a b : Addr} (h : decompose a = decompose b) : a = b := by
  apply BitVec.eq_of_toNat_eq
  have h1 := decompose_tag_toNat a
  have h2 := decompose_index_toNat a
  have h3 := decompose_offset_toNat a
  rw [h] at h1 h2 h3
  simp at h1 h2 h3
  omega

/-- An address lies in the line at `reconstruct t s` exactly when its tag and index are `t` and `s` (R70, R72). -/
theorem inLine_reconstruct_iff (t : Tag) (s : Index) (x : Addr) :
    ((reconstruct t s).toNat ≤ x.toNat ∧ x.toNat < (reconstruct t s).toNat + 32) ↔
      (decompose x).tag = t ∧ (decompose x).index = s := by
  rw [← BitVec.toNat_inj, ← BitVec.toNat_inj (x := (decompose x).index)]
  have ht := t.isLt
  have hs := s.isLt
  simp
  omega

/-- The position of an address in its line is its offset. -/
theorem sub_lineBase (x : Addr) : x.toNat - (lineBase x).toNat = (decompose x).offset.toNat := by
  simp
  omega

/-- The address of a sub-access of an event in range does not wrap (R58, R127). -/
theorem byteAddr_toNat {a : Addr} {i : Nat} (h : a.toNat + i < 262144) : (byteAddr a i).toNat = a.toNat + i := by
  simp [byteAddr, h]

/-- Two bytes of one event that map to the same set lie in the same line (R119). -/
theorem same_index_same_tag {x y : Addr} (h : (decompose x).index = (decompose y).index)
    (hxy : x.toNat < y.toNat + 32) (hyx : y.toNat < x.toNat + 32) : (decompose x).tag = (decompose y).tag := by
  have h' := congrArg BitVec.toNat h
  apply BitVec.eq_of_toNat_eq
  simp at h' ⊢
  omega

/-- The range check in arithmetic (R134). -/
@[simp] theorem inRange_iff (a : Addr) (n : Nat) : inRange a n = true ↔ a.toNat + n ≤ 262144 := by
  simp [inRange, Config.memSize]

theorem mem_subAccesses {a : Addr} {n : Nat} {value : Option Data} {x : SubAccess} :
    x ∈ subAccesses a n value ↔
      ∃ i < n, x = { addr := byteAddr a i, write := value.map fun d => writeByte d i } := by
  simp only [subAccesses, List.mem_map, List.mem_range]
  exact ⟨fun ⟨i, h, e⟩ => ⟨i, h, e.symm⟩, fun ⟨i, h, e⟩ => ⟨i, h, e.symm⟩⟩

/-- The addresses of an event's sub-accesses are its bytes (R58, R118). -/
theorem forall_subAccesses {P : Addr → Prop} {a : Addr} {n : Nat} {value : Option Data} :
    (∀ x ∈ subAccesses a n value, P x.addr) ↔ ∀ j < n, P (byteAddr a j) := by
  simp only [subAccesses, List.forall_mem_map, List.mem_range]

end Sys2Proof.Machine
end

