-- ==== Sys2Proof/Laws/Memory.lean ====
section
/-! SUPPORT. The backing store: reading after writing, and the canonical form, which every operation keeps. -/

namespace Sys2Proof.Machine

/-! ### Lists of cells -/

theorem findCell_eq_none_of_rising {cells : List Host.Cell} {lo a : Nat} (h : risingFrom lo cells = true)
    (ha : a < lo) : findCell cells a = none := by
  induction cells generalizing lo with
  | nil => rfl
  | cons c rest ih =>
    obtain ⟨b, x⟩ := c
    simp only [risingFrom, Bool.and_eq_true, decide_eq_true_eq] at h
    simp only [findCell]
    rw [if_neg (by omega)]
    exact ih h.2 (by omega)

theorem findCell_putCell {cells : List Host.Cell} {lo : Nat} (h : risingFrom lo cells = true) (a : Nat) (v : Byte)
    (b : Nat) : findCell (putCell cells a v) b = if b = a then some v else findCell cells b := by
  induction cells generalizing lo with
  | nil =>
    by_cases hb : b = a
    · simp [putCell, findCell, hb]
    · simp [putCell, findCell, hb, Ne.symm hb]
  | cons c rest ih =>
    obtain ⟨k, x⟩ := c
    simp only [risingFrom, Bool.and_eq_true, decide_eq_true_eq] at h
    have ih := ih h.2
    unfold putCell
    split
    · simp only [findCell, eq_comm (a := a)]
    · split
      · rename_i hk
        subst hk
        by_cases hb : b = a
        · simp [findCell, hb]
        · simp [findCell, hb, Ne.symm hb]
      · rename_i hk
        simp only [findCell, ih]
        by_cases hb : b = a
        · subst hb
          simp [Ne.symm hk]
        · simp [hb]

theorem findCell_dropCell {cells : List Host.Cell} {lo : Nat} (h : risingFrom lo cells = true) (a b : Nat) :
    findCell (dropCell cells a) b = if b = a then none else findCell cells b := by
  induction cells generalizing lo with
  | nil => simp [dropCell, findCell]
  | cons c rest ih =>
    obtain ⟨k, x⟩ := c
    simp only [risingFrom, Bool.and_eq_true, decide_eq_true_eq] at h
    have ih := ih h.2
    unfold dropCell
    split
    · rename_i hk
      subst hk
      by_cases hb : b = k
      · subst hb
        simp [findCell_eq_none_of_rising h.2 (Nat.lt_succ_self b)]
      · simp [findCell, hb, Ne.symm hb]
    · rename_i hk
      simp only [findCell, ih]
      by_cases hb : b = a
      · subst hb
        simp [hk]
      · simp [hb]

theorem risingFrom_mono {cells : List Host.Cell} {lo lo' : Nat} (hl : lo' ≤ lo) (h : risingFrom lo cells = true) :
    risingFrom lo' cells = true := by
  cases cells with
  | nil => rfl
  | cons c rest =>
    simp only [risingFrom, Bool.and_eq_true, decide_eq_true_eq] at h ⊢
    exact ⟨by omega, h.2⟩

theorem risingFrom_putCell {cells : List Host.Cell} {lo : Nat} (h : risingFrom lo cells = true) {a : Nat} (v : Byte)
    (ha : lo ≤ a) : risingFrom lo (putCell cells a v) = true := by
  induction cells generalizing lo with
  | nil => simp [putCell, risingFrom, ha]
  | cons c rest ih =>
    obtain ⟨k, x⟩ := c
    simp only [risingFrom, Bool.and_eq_true, decide_eq_true_eq] at h
    unfold putCell
    split
    · simp [risingFrom, ha, h.2]; omega
    · split
      · rename_i hk; subst hk; simp [risingFrom, ha, h.2]
      · simp [risingFrom, h.1, ih h.2 (by omega)]

theorem risingFrom_dropCell {cells : List Host.Cell} {lo : Nat} (h : risingFrom lo cells = true) (a : Nat) :
    risingFrom lo (dropCell cells a) = true := by
  induction cells generalizing lo with
  | nil => rfl
  | cons c rest ih =>
    obtain ⟨k, x⟩ := c
    simp only [risingFrom, Bool.and_eq_true, decide_eq_true_eq] at h
    unfold dropCell
    split
    · exact risingFrom_mono (by omega) h.2
    · simp [risingFrom, h.1, ih h.2]

theorem all_putCell {p : Host.Cell → Bool} {cells : List Host.Cell} {a : Nat} {v : Byte} (h : cells.all p = true)
    (hp : p (a, v) = true) : (putCell cells a v).all p = true := by
  induction cells with
  | nil => simp [putCell, hp]
  | cons c rest ih =>
    obtain ⟨k, x⟩ := c
    simp only [List.all_cons, Bool.and_eq_true] at h
    unfold putCell
    split
    · simp [hp, h.1, h.2]
    · split
      · simp [hp, h.2]
      · simp [h.1, ih h.2]

theorem all_dropCell {p : Host.Cell → Bool} {cells : List Host.Cell} (a : Nat) (h : cells.all p = true) :
    (dropCell cells a).all p = true := by
  induction cells with
  | nil => rfl
  | cons c rest ih =>
    obtain ⟨k, x⟩ := c
    simp only [List.all_cons, Bool.and_eq_true] at h
    unfold dropCell
    split
    · exact h.2
    · simp [h.1, ih h.2]

/-! ### One byte -/

theorem Memory.rising_of_wf {m : Memory} (h : m.wf = true) : risingFrom 0 m.cells = true := by
  simp only [Memory.wf, Bool.and_eq_true] at h; exact h.1

/-- Reading after writing one byte (R9, R29). -/
theorem Memory.read_write {m : Memory} (h : m.wf = true) (a : Nat) (v : Byte) (b : Nat) :
    (m.write a v).read b = if b = a then v else m.read b := by
  have hr := Memory.rising_of_wf h
  unfold Memory.read Memory.write
  by_cases hv : v = Memory.unlisted a
  · simp only [hv, if_true, findCell_dropCell hr]
    by_cases hb : b = a <;> simp [hb]
  · simp only [hv, if_false, findCell_putCell hr]
    by_cases hb : b = a <;> simp [hb]

/-- Writing one byte of `MEM` keeps the canonical form. -/
theorem Memory.write_wf {m : Memory} (h : m.wf = true) {a : Nat} (ha : a < Config.memSize) (v : Byte) :
    (m.write a v).wf = true := by
  have h' := h
  simp only [Memory.wf, Bool.and_eq_true] at h'
  unfold Memory.write
  by_cases hv : v = Memory.unlisted a
  · simp only [hv, if_true, Memory.wf, Bool.and_eq_true]
    exact ⟨risingFrom_dropCell h'.1 a, all_dropCell a h'.2⟩
  · simp only [hv, if_false, Memory.wf, Bool.and_eq_true]
    exact ⟨risingFrom_putCell h'.1 v (Nat.zero_le a), all_putCell h'.2 (by simp [ha, hv])⟩

/-- In a well-formed memory an address is listed exactly when it does not read as an unlisted one. -/
theorem findCell_isSome_iff {m : Memory} (h : m.wf = true) (a : Nat) :
    (findCell m.cells a).isSome = true ↔ m.read a ≠ Memory.unlisted a := by
  have key : ∀ cells : List Host.Cell,
      (cells.all fun c => c.1 < Config.memSize && c.2 ≠ Memory.unlisted c.1) = true →
      ∀ v, findCell cells a = some v → v ≠ Memory.unlisted a := by
    intro cells
    induction cells with
    | nil => intro _ v hv; simp [findCell] at hv
    | cons c rest ih =>
      obtain ⟨k, x⟩ := c
      intro hall v hv
      simp only [List.all_cons, Bool.and_eq_true] at hall
      simp only [findCell] at hv
      split at hv
      · rename_i hk
        subst hk
        simp only [Option.some.injEq] at hv
        subst hv
        simpa using hall.1.2
      · exact ih hall.2 v hv
  simp only [Memory.wf, Bool.and_eq_true] at h
  unfold Memory.read
  cases hf : findCell m.cells a with
  | none => simp
  | some v => simp [key _ h.2 v hf]

theorem cells_ext {cells cells' : List Host.Cell} {lo lo' : Nat} (h : risingFrom lo cells = true)
    (h' : risingFrom lo' cells' = true) (heq : ∀ a, findCell cells a = findCell cells' a) : cells = cells' := by
  induction cells generalizing lo lo' cells' with
  | nil =>
    cases cells' with
    | nil => rfl
    | cons c rest =>
      have := heq c.1
      simp [findCell] at this
  | cons c rest ih =>
    obtain ⟨k, x⟩ := c
    cases cells' with
    | nil =>
      have := heq k
      simp [findCell] at this
    | cons c' rest' =>
      obtain ⟨k', x'⟩ := c'
      simp only [risingFrom, Bool.and_eq_true, decide_eq_true_eq] at h h'
      have hkk : k = k' := by
        rcases Nat.lt_trichotomy k k' with hlt | heq' | hlt
        · have := heq k
          simp only [findCell, if_true, if_neg (show ¬k' = k by omega)] at this
          rw [findCell_eq_none_of_rising h'.2 (by omega)] at this
          exact absurd this (by simp)
        · exact heq'
        · have := heq k'
          simp only [findCell, if_true, if_neg (show ¬k = k' by omega)] at this
          rw [findCell_eq_none_of_rising h.2 (by omega)] at this
          exact absurd this (by simp)
      subst hkk
      have hx : x = x' := by simpa [findCell] using heq k
      subst hx
      congr 1
      refine ih h.2 h'.2 fun a => ?_
      by_cases ha : k = a
      · subst ha
        rw [findCell_eq_none_of_rising h.2 (Nat.lt_succ_self k), findCell_eq_none_of_rising h'.2 (Nat.lt_succ_self k)]
      · simpa [findCell, ha] using heq a

/-- A well-formed memory is determined by what it reads: equal memories are equal data. -/
theorem Memory.ext_of_read {m m' : Memory} (h : m.wf = true) (h' : m'.wf = true) (heq : ∀ a, m.read a = m'.read a) :
    m = m' := by
  have hf : ∀ a, findCell m.cells a = findCell m'.cells a := by
    intro a
    have h1 := findCell_isSome_iff h a
    have h2 := findCell_isSome_iff h' a
    have h3 := heq a
    rw [h3] at h1
    unfold Memory.read at h3
    cases hm : findCell m.cells a <;> cases hm' : findCell m'.cells a <;> simp_all
  obtain ⟨c⟩ := m
  obtain ⟨c'⟩ := m'
  congr 1
  exact cells_ext (Memory.rising_of_wf h) (Memory.rising_of_wf h') hf

theorem reset_mem_wf : State.reset.mem.wf = true := by decide

/-! ### One line (R38, R39) -/

theorem lineBase_end (a : Addr) (h : a.toNat % 32 = 0) : a.toNat + 32 ≤ Config.memSize := by
  have := a.isLt
  simp only [Config.memSize]
  omega

/-- What writing the bytes of a list of positions of a line does, once. -/
theorem foldl_write_spec {a : Nat} (ha : a + 32 ≤ Config.memSize) (v : Payload) (ks : List (Fin 32)) (m : Memory)
    (h : m.wf = true) :
    let m' := ks.foldl (fun m' k => m'.write (a + k.val) v[k.val]) m
    m'.wf = true ∧ ∀ b, m'.read b =
      if hb : a ≤ b ∧ b < a + 32 ∧ ∃ k ∈ ks, b = a + k.val then v[b - a]'(by omega) else m.read b := by
  induction ks generalizing m with
  | nil => simp [h]
  | cons k ks ih =>
    have hk := k.isLt
    have hw : (m.write (a + k.val) v[k.val]).wf = true := Memory.write_wf h (by omega) _
    obtain ⟨h1, h2⟩ := ih (m.write (a + k.val) v[k.val]) hw
    refine ⟨h1, fun b => ?_⟩
    rw [List.foldl_cons, h2 b, Memory.read_write h]
    by_cases hks : a ≤ b ∧ b < a + 32 ∧ ∃ j ∈ ks, b = a + j.val
    · rw [dif_pos hks, dif_pos ⟨hks.1, hks.2.1, hks.2.2.imp fun j hj => ⟨List.mem_cons_of_mem _ hj.1, hj.2⟩⟩]
    · rw [dif_neg hks]
      by_cases hb : b = a + k.val
      · rw [if_pos hb, dif_pos ⟨by omega, by omega, k, List.mem_cons_self .., hb⟩]
        congr 1
        omega
      · rw [if_neg hb, dif_neg]
        rintro ⟨h1', h2', j, hj, hja⟩
        rcases List.mem_cons.mp hj with rfl | hj
        · exact hb hja
        · exact hks ⟨h1', h2', j, hj, hja⟩

/-- `MemWrite` keeps the canonical form (R39). -/
theorem memWrite_wf {m : Memory} (h : m.wf = true) {a : Addr} (ha : a.toNat % 32 = 0) (v : Payload) :
    (memWrite m a v).wf = true :=
  (foldl_write_spec (lineBase_end a ha) v (List.finRange 32) m h).1

/-- What `MEM` reads as after `MemWrite` (R39): the 32 bytes of the line, and no other byte changed. -/
theorem read_memWrite {m : Memory} (h : m.wf = true) {a : Addr} (ha : a.toNat % 32 = 0) (v : Payload) (b : Nat) :
    (memWrite m a v).read b =
      if hb : a.toNat ≤ b ∧ b < a.toNat + 32 then v[b - a.toNat]'(by omega) else m.read b := by
  have := (foldl_write_spec (lineBase_end a ha) v (List.finRange 32) m h).2 b
  unfold memWrite
  rw [this]
  by_cases hb : a.toNat ≤ b ∧ b < a.toNat + 32
  · rw [dif_pos hb, dif_pos ⟨hb.1, hb.2, ⟨b - a.toNat, by omega⟩, List.mem_finRange _, by simp; omega⟩]
  · rw [dif_neg hb, dif_neg fun h => hb ⟨h.1, h.2.1⟩]

/-- What `MemRead` reads (R38). -/
@[simp] theorem memRead_get (m : Memory) (a : Addr) (k : Nat) (hk : k < 32) :
    (memRead m a)[k] = m.read (a.toNat + k) := by
  simp [memRead]

end Sys2Proof.Machine
end

