-- ==== Sys2Proof/Laws/Block.lean ====
section
/-! SUPPORT. The small lemmas of blocks and arrays: what each update leaves in each field. -/

namespace Sys2Proof.Machine

variable {ρ : Type}

@[simp] theorem setLine_occ (B : Block ρ) (w : Fin 4) (l : Line ρ) : (B.setLine w l).occ = B.occ := rfl

@[simp] theorem setLine_occupied (B : Block ρ) (w v : Fin 4) (l : Line ρ) :
    (B.setLine w l).occupied v = B.occupied v := rfl

theorem setLine_line (B : Block ρ) (w v : Fin 4) (l : Line ρ) :
    (B.setLine w l).line v = if v = w then l else B.line v := by
  simp only [Block.setLine, Block.line, Vector.getElem_set]
  by_cases h : v = w
  · simp [h]
  · rw [if_neg h, if_neg (fun h' => h (Fin.ext h'.symm))]

@[simp] theorem setLine_line_self (B : Block ρ) (w : Fin 4) (l : Line ρ) : (B.setLine w l).line w = l := by
  simp [setLine_line]

@[simp] theorem setRecency_occ (B : Block ρ) (w : Fin 4) (r : ρ) : (B.setRecency w r).occ = B.occ := rfl

@[simp] theorem setRecency_occupied (B : Block ρ) (w v : Fin 4) (r : ρ) :
    (B.setRecency w r).occupied v = B.occupied v := rfl

theorem setRecency_line (B : Block ρ) (w v : Fin 4) (r : ρ) :
    (B.setRecency w r).line v = if v = w then { B.line w with recency := r } else B.line v :=
  setLine_line B w v _

@[simp] theorem occ_update_line (B : Block ρ) (n : Nat) (v : Fin 4) : ({ B with occ := n } : Block ρ).line v = B.line v :=
  rfl

/-- Two blocks with the same occupancy and the same ways are equal. -/
theorem Block.ext_line {B B' : Block ρ} (h : B.occ = B'.occ) (hl : ∀ w, B.line w = B'.line w) : B = B' := by
  obtain ⟨o, l⟩ := B
  obtain ⟨o', l'⟩ := B'
  simp only at h
  subst h
  congr 1
  ext i hi
  exact hl ⟨i, hi⟩

theorem occupied_iff (B : Block ρ) (w : Fin 4) : B.occupied w = true ↔ w.val < B.occ := by
  simp [Block.occupied]

/-! ### Arrays -/

theorem setBlock_block (arr : CacheArray ρ) (s k : Index) (B : Block ρ) :
    (arr.setBlock s B).block k = if k = s then B else arr.block k := by
  simp only [CacheArray.setBlock, CacheArray.block, Vector.getElem_set]
  by_cases h : k = s
  · simp [h]
  · rw [if_neg h, if_neg (fun h' => h (BitVec.eq_of_toNat_eq h'.symm))]

@[simp] theorem setBlock_block_self (arr : CacheArray ρ) (s : Index) (B : Block ρ) :
    (arr.setBlock s B).block s = B := by simp [setBlock_block]

theorem setBlock_block_ne (arr : CacheArray ρ) {s k : Index} (B : Block ρ) (h : k ≠ s) :
    (arr.setBlock s B).block k = arr.block k := by simp [setBlock_block, h]

theorem CacheArray.ext_block {arr arr' : CacheArray ρ} (h : ∀ k, arr.block k = arr'.block k) : arr = arr' := by
  refine Vector.ext fun i hi => ?_
  exact h ⟨⟨i, hi⟩⟩

theorem atReset_block (r : ρ) (k : Index) :
    (CacheArray.atReset r).block k = { occ := 0, lines := Vector.replicate 4 (Line.atReset r) } := by
  simp [CacheArray.atReset, CacheArray.block]

/-! ### Lookup (R77) -/

theorem find_ways_eq_some {p : Fin 4 → Bool} {w : Fin 4} :
    ways.find? p = some w ↔ p w = true ∧ ∀ v, v < w → p v = false := by
  unfold ways
  fin_cases w <;> simp [List.find?_cons, Fin.forall_fin_succ] <;> grind

theorem find_ways_eq_none {p : Fin 4 → Bool} : ways.find? p = none ↔ ∀ v, p v = false := by
  simp [ways, Fin.forall_fin_succ]

theorem all_ways {p : Fin 4 → Bool} : ways.all p = true ↔ ∀ v, p v = true := by
  simp [ways, Fin.forall_fin_succ]

/-- What Lookup answers, once (R77). -/
theorem lookup_eq_some {B : Block ρ} {t : Tag} {w : Fin 4} :
    lookup B t = some w ↔ (B.occupied w = true ∧ (B.line w).tag = t) ∧
      ∀ v, v < w → ¬(B.occupied v = true ∧ (B.line v).tag = t) := by
  simp [lookup, find_ways_eq_some]

theorem lookup_eq_none {B : Block ρ} {t : Tag} :
    lookup B t = none ↔ ∀ v, ¬(B.occupied v = true ∧ (B.line v).tag = t) := by
  rw [lookup, find_ways_eq_none]
  simp

/-- With distinct tags, an occupied way with the tag is the one Lookup answers (R26, R77). -/
theorem lookup_of_distinct {B : Block ρ} (h : B.tagsDistinct) {t : Tag} {w : Fin 4} (ho : B.occupied w = true)
    (ht : (B.line w).tag = t) : lookup B t = some w := by
  rw [lookup_eq_some]
  refine ⟨⟨ho, ht⟩, fun v hv hvt => ?_⟩
  have := h v w hvt.1 ho (hvt.2.trans ht.symm)
  omega

end Sys2Proof.Machine
end

