-- ==== Sys2Proof/Laws/Policy.lean ====
section
/-! SUPPORT. What each operation of the two replacement policies can do, once (42_lru_policy.md, 43_plru_policy.md). -/

namespace Sys2Proof.Machine

/-! ### LRU -/

/-- A touch by `LRU.Touch` raises exactly when another occupied way is at the limit (R97, R135). -/
def ageBlocked (ageW : Option Nat) (B : Block Nat) (w : Fin 4) : Prop :=
  ∃ v, v ≠ w ∧ B.occupied v = true ∧ atLimit ageW (B.line v).recency = true

/-- The loop of `LRU.Touch` over ways not yet visited: what it does to every way, and when it raises. -/
theorem foldl_lruAgeOne (ageW : Option Nat) (w : Fin 4) (vs : List (Fin 4)) (hnd : vs.Nodup) (B : Block Nat) :
    let t := vs.foldl (lruAgeOne ageW w) { block := B, raised := false }
    (t.raised = true ↔ ∃ v ∈ vs, v ≠ w ∧ B.occupied v = true ∧ atLimit ageW (B.line v).recency = true) ∧
    t.block.occ = B.occ ∧
    (∀ v, (t.block.line v).tag = (B.line v).tag ∧ (t.block.line v).dirty = (B.line v).dirty ∧
      (t.block.line v).data = (B.line v).data) ∧
    (∀ v, (t.block.line v).recency = (B.line v).recency ∨
      v ∈ vs ∧ v ≠ w ∧ B.occupied v = true ∧ atLimit ageW (B.line v).recency = false ∧
        (t.block.line v).recency = (B.line v).recency + 1) ∧
    (t.raised = false → ∀ v, (t.block.line v).recency =
      if v ∈ vs ∧ v ≠ w ∧ B.occupied v = true then (B.line v).recency + 1 else (B.line v).recency) := by
  have hstop : ∀ (us : List (Fin 4)) (t : Touched Nat), t.raised = true → us.foldl (lruAgeOne ageW w) t = t := by
    intro us
    induction us with
    | nil => intros; rfl
    | cons u us ih =>
      intro t ht
      rw [List.foldl_cons, show lruAgeOne ageW w t u = t by simp [lruAgeOne, ht]]
      exact ih t ht
  induction vs generalizing B with
  | nil => simp
  | cons u us ih =>
    rw [List.nodup_cons] at hnd
    intro t
    by_cases hu : u ≠ w ∧ B.occupied u = true
    · by_cases hl : atLimit ageW (B.line u).recency = true
      · have ht : t = { block := B, raised := true } := by
          show us.foldl _ _ = _
          rw [show lruAgeOne ageW w { block := B, raised := false } u = { block := B, raised := true } by
            simp [lruAgeOne, hu.1, hu.2, hl]]
          exact hstop us _ rfl
        rw [ht]
        refine ⟨⟨fun _ => ⟨u, List.mem_cons_self .., hu.1, hu.2, hl⟩, fun _ => rfl⟩, rfl, fun v => ⟨rfl, rfl, rfl⟩,
          fun v => .inl rfl, fun h => absurd h (by simp)⟩
      · have ht : t = us.foldl (lruAgeOne ageW w)
            { block := B.setRecency u ((B.line u).recency + 1), raised := false } := by
          show us.foldl _ _ = _
          rw [show lruAgeOne ageW w { block := B, raised := false } u =
            { block := B.setRecency u ((B.line u).recency + 1), raised := false } by
              simp [lruAgeOne, hu.1, hu.2, hl]]
        obtain ⟨h1, h2, h3, h4, h5⟩ := ih hnd.2 (B.setRecency u ((B.line u).recency + 1))
        rw [← ht] at h1 h2 h3 h4 h5
        simp only [Bool.not_eq_true] at hl
        refine ⟨?_, h2, ?_, ?_, ?_⟩
        · rw [h1]
          constructor
          · rintro ⟨v, hv, hvw, ho, ha⟩
            have hvu : v ≠ u := fun e => hnd.1 (e ▸ hv)
            rw [setRecency_line, if_neg hvu] at ha
            exact ⟨v, List.mem_cons_of_mem _ hv, hvw, ho, ha⟩
          · rintro ⟨v, hv, hvw, ho, ha⟩
            rcases List.mem_cons.mp hv with rfl | hv
            · rw [hl] at ha; cases ha
            · have hvu : v ≠ u := fun e => hnd.1 (e ▸ hv)
              exact ⟨v, hv, hvw, ho, by rw [setRecency_line, if_neg hvu]; exact ha⟩
        · intro v
          have := h3 v
          rw [setRecency_line] at this
          by_cases hvu : v = u
          · subst hvu; simpa using this
          · simpa [hvu] using this
        · intro v
          by_cases hvu : v = u
          · subst hvu
            right
            refine ⟨List.mem_cons_self .., hu.1, hu.2, hl, ?_⟩
            rcases h4 v with h | h
            · simpa [setRecency_line] using h
            · exact absurd h.1 hnd.1
          · rcases h4 v with h | h
            · left; simpa [setRecency_line, hvu] using h
            · right
              have h' := h.2.2.2
              simp only [setRecency_line, hvu, if_false] at h'
              exact ⟨List.mem_cons_of_mem _ h.1, h.2.1, h.2.2.1, h'.1, h'.2⟩
        · intro hr v
          rw [h5 hr v]
          by_cases hvu : v = u
          · subst hvu
            simp [hnd.1, setRecency_line, hu.1, hu.2]
          · simp [setRecency_line, hvu]
    · have ht : t = us.foldl (lruAgeOne ageW w) { block := B, raised := false } := by
        show us.foldl _ _ = _
        rw [show lruAgeOne ageW w { block := B, raised := false } u = { block := B, raised := false } by
          simp only [lruAgeOne, if_neg hu]
          simp]
      obtain ⟨h1, h2, h3, h4, h5⟩ := ih hnd.2 B
      rw [← ht] at h1 h2 h3 h4 h5
      refine ⟨?_, h2, h3, ?_, ?_⟩
      · rw [h1]
        constructor
        · rintro ⟨v, hv, h⟩
          exact ⟨v, List.mem_cons_of_mem _ hv, h⟩
        · rintro ⟨v, hv, hvw, ho, ha⟩
          rcases List.mem_cons.mp hv with rfl | hv
          · exact absurd ⟨hvw, ho⟩ hu
          · exact ⟨v, hv, hvw, ho, ha⟩
      · intro v
        exact (h4 v).imp id fun h => ⟨List.mem_cons_of_mem _ h.1, h.2⟩
      · intro hr v
        rw [h5 hr v]
        by_cases hvu : v = u
        · subst hvu
          rw [if_neg fun h => hu h.2, if_neg fun h => hu h.2]
        · simp [hvu]

theorem ways_nodup : ways.Nodup := by decide

theorem mem_ways (v : Fin 4) : v ∈ ways := by revert v; decide

/-- Everything `LRU.Touch` can do (R94, R97, R135): when it raises; what it never changes; and, when it does not raise,
the recency of every way. -/
theorem lruTouch_spec (ageW : Option Nat) (B : Block Nat) (w : Fin 4) :
    ((lruTouch ageW B w).raised = true ↔ ageBlocked ageW B w) ∧
    (lruTouch ageW B w).block.occ = B.occ ∧
    (∀ v, ((lruTouch ageW B w).block.line v).tag = (B.line v).tag ∧
      ((lruTouch ageW B w).block.line v).dirty = (B.line v).dirty ∧
      ((lruTouch ageW B w).block.line v).data = (B.line v).data) ∧
    (∀ v, ((lruTouch ageW B w).block.line v).recency = (B.line v).recency ∨
      (v = w ∧ ((lruTouch ageW B w).block.line v).recency = 0) ∨
      (v ≠ w ∧ B.occupied v = true ∧ atLimit ageW (B.line v).recency = false ∧
        ((lruTouch ageW B w).block.line v).recency = (B.line v).recency + 1)) ∧
    ((lruTouch ageW B w).raised = false → ∀ v, ((lruTouch ageW B w).block.line v).recency = touchedAge B w v) := by
  obtain ⟨h1, h2, h3, h4, h5⟩ := foldl_lruAgeOne ageW w ways ways_nodup B
  simp only [mem_ways, true_and] at h1 h4 h5
  unfold lruTouch
  by_cases hr : (ways.foldl (lruAgeOne ageW w) { block := B, raised := false }).raised = true
  · simp only [hr, if_true]
    refine ⟨⟨fun _ => h1.mp hr, fun _ => trivial⟩, h2, h3, fun v => ?_, fun h => absurd h (by simp)⟩
    exact (h4 v).imp id fun h => .inr h
  · simp only [hr, Bool.false_eq_true, if_false]
    simp only [Bool.not_eq_true] at hr
    refine ⟨⟨fun h => absurd h (by simp), fun h => absurd (h1.mpr h) (by simp [hr])⟩, h2, ?_, ?_, ?_⟩
    · intro v
      rw [setRecency_line]
      by_cases hv : v = w
      · subst hv; simpa using h3 v
      · simpa [hv] using h3 v
    · intro v
      rw [setRecency_line]
      by_cases hv : v = w
      · right; left; simp [hv]
      · simp only [hv, if_false]
        exact (h4 v).imp id fun h => .inr ⟨hv, h.2⟩
    · intro _ v
      rw [setRecency_line]
      by_cases hv : v = w
      · simp [hv, touchedAge]
      · simp [hv, touchedAge, h5 hr v]

theorem atLimit_iff {width : Option Nat} {n : Nat} :
    atLimit width n = true ↔ ∃ k, width = some k ∧ n = 2 ^ k - 1 := by
  cases width <;> simp [atLimit]

/-- `touchRoom` is the condition under which a touch raises nothing. -/
theorem not_ageBlocked_iff {ageW : Option Nat} {B : Block Nat} {w : Fin 4} :
    ¬ageBlocked ageW B w ↔ touchRoom ageW B w := by
  unfold ageBlocked touchRoom
  simp only [not_exists, not_and, atLimit_iff, Option.mem_def]

/-- With unbounded ages no touch raises (R94, R97). -/
theorem not_ageBlocked_none (B : Block Nat) (w : Fin 4) : ¬ageBlocked none B w := by
  rintro ⟨v, -, -, h⟩
  simp [atLimit] at h

theorem maxAge_spec (B : Block Nat) :
    (∀ v, B.occupied v = true → (B.line v).recency ≤ maxAge B) ∧
      ((∃ v, B.occupied v = true) → ∃ v, B.occupied v = true ∧ (B.line v).recency = maxAge B) := by
  have key : ∀ (vs : List (Fin 4)) (m : Nat),
      let r := vs.foldl (fun m v => if B.occupied v then max m (B.line v).recency else m) m
      m ≤ r ∧ (∀ v ∈ vs, B.occupied v = true → (B.line v).recency ≤ r) ∧
        (r = m ∨ ∃ v ∈ vs, B.occupied v = true ∧ (B.line v).recency = r) := by
    intro vs
    induction vs with
    | nil => intro m; simp
    | cons u us ih =>
      intro m
      obtain ⟨h1, h2, h3⟩ := ih (if B.occupied u then max m (B.line u).recency else m)
      simp only [List.foldl_cons]
      by_cases hu : B.occupied u = true
      · simp only [hu, if_true] at h1 h2 h3 ⊢
        refine ⟨by omega, fun v hv ho => ?_, ?_⟩
        · rcases List.mem_cons.mp hv with rfl | hv
          · omega
          · exact h2 v hv ho
        · rcases h3 with h | ⟨v, hv, h⟩
          · rcases Nat.le_total m (B.line u).recency with hm | hm
            · right
              exact ⟨u, List.mem_cons_self .., hu, by rw [h]; omega⟩
            · left; omega
          · exact .inr ⟨v, List.mem_cons_of_mem _ hv, h⟩
      · simp only [hu, Bool.false_eq_true, if_false] at h1 h2 h3 ⊢
        refine ⟨h1, fun v hv ho => ?_, ?_⟩
        · rcases List.mem_cons.mp hv with rfl | hv
          · exact absurd ho hu
          · exact h2 v hv ho
        · rcases h3 with h | ⟨v, hv, h⟩
          · exact .inl h
          · exact .inr ⟨v, List.mem_cons_of_mem _ hv, h⟩
  obtain ⟨-, h2, h3⟩ := key ways 0
  refine ⟨fun v => h2 v (mem_ways v), fun ⟨u, hu⟩ => ?_⟩
  rcases h3 with h | ⟨v, -, h⟩
  · refine ⟨u, hu, ?_⟩
    have := h2 u (mem_ways u) hu
    unfold maxAge
    omega
  · exact ⟨v, h⟩

/-- What `LRU.Victim` answers for a block with an occupied way (R95, R96). -/
theorem lruVictim_spec {B : Block Nat} (h : ∃ v, B.occupied v = true) :
    B.occupied (lruVictim B) = true ∧ (B.line (lruVictim B)).recency = maxAge B ∧
      ∀ v, v < lruVictim B → ¬(B.occupied v = true ∧ (B.line v).recency = maxAge B) := by
  obtain ⟨u, hu⟩ := (maxAge_spec B).2 h
  cases hf : ways.find? fun v => B.occupied v && (B.line v).recency == maxAge B with
  | none =>
    rw [find_ways_eq_none] at hf
    have := hf u
    simp [hu.1, hu.2] at this
  | some w =>
    have hw : lruVictim B = w := by simp [lruVictim, hf]
    rw [find_ways_eq_some] at hf
    rw [hw]
    simp only [Bool.and_eq_true, beq_iff_eq] at hf
    exact ⟨hf.1.1, hf.1.2, fun v hv hc => by simpa [hc.1, hc.2] using hf.2 v hv⟩

/-! ### Pseudo-LRU -/

/-- All four used bits of the block are 1 once that of `w` is set (R101). -/
abbrev clearAllFires (B : Block Bool) (w : Fin 4) : Prop := ∀ v, v ≠ w → (B.line v).recency = true

/-- Everything `PLRU.Touch` can do (R101, R102). -/
theorem plruTouch_line (B : Block Bool) (w v : Fin 4) :
    (plruTouch B w).line v =
      { B.line v with recency := if v = w then true else if clearAllFires B w then false else (B.line v).recency } := by
  have hall : (ways.all fun v => ((B.setRecency w true).line v).recency) = true ↔ clearAllFires B w := by
    rw [all_ways]
    refine forall_congr' fun u => ?_
    rw [setRecency_line]
    by_cases hu : u = w <;> simp [hu]
  unfold plruTouch
  simp only
  by_cases hc : clearAllFires B w
  · rw [if_pos (hall.mpr hc)]
    rw [if_pos hc]
    clear hall hc
    simp only [ways, List.foldl_cons, List.foldl_nil, setRecency_line]
    by_cases hv : v = w
    · subst hv
      fin_cases v <;> simp
    · rw [if_neg hv, if_neg hv]
      fin_cases v <;> simp_all
  · rw [if_neg (fun h => hc (hall.mp h))]
    rw [setRecency_line]
    by_cases hv : v = w
    · simp [hv]
    · rw [if_neg hv, if_neg hv, if_neg hc]

@[simp] theorem plruTouch_occ (B : Block Bool) (w : Fin 4) : (plruTouch B w).occ = B.occ := by
  unfold plruTouch
  simp only
  split
  · simp only [ways, List.foldl_cons, List.foldl_nil, setRecency_occ]
  · rfl

/-- What `PLRU.Victim` answers (R103, R104). -/
theorem plruVictim_spec (B : Block Bool) :
    (B.occupied (plruVictim B) = true ∧ (B.line (plruVictim B)).recency = false ∧
      ∀ v, v < plruVictim B → ¬(B.occupied v = true ∧ (B.line v).recency = false)) ∨
    (plruVictim B = 0 ∧ ∀ v, ¬(B.occupied v = true ∧ (B.line v).recency = false)) := by
  cases hf : ways.find? fun v => B.occupied v && !(B.line v).recency with
  | none =>
    right
    refine ⟨by simp [plruVictim, hf], fun v hv => ?_⟩
    rw [find_ways_eq_none] at hf
    have hf := hf v
    simp [hv.1, hv.2] at hf
  | some w =>
    left
    have hw : plruVictim B = w := by simp [plruVictim, hf]
    rw [find_ways_eq_some] at hf
    rw [hw]
    simp only [Bool.and_eq_true, Bool.not_eq_true'] at hf
    exact ⟨hf.1.1, hf.1.2, fun v hv hc => by simpa [hc.1, hc.2] using hf.2 v hv⟩

/-! ### What both policies share -/

/-- A policy's touch changes nothing but recency metadata (R79, R94, R101). -/
structure TouchOnly {ρ : Type} (pol : PolicyOps ρ) : Prop where
  occ : ∀ B w, (pol.touch B w).block.occ = B.occ
  tag : ∀ B w v, ((pol.touch B w).block.line v).tag = (B.line v).tag
  dirty : ∀ B w v, ((pol.touch B w).block.line v).dirty = (B.line v).dirty
  data : ∀ B w v, ((pol.touch B w).block.line v).data = (B.line v).data

theorem lruOps_touchOnly (ageW : Option Nat) : TouchOnly (lruOps ageW) where
  occ B w := (lruTouch_spec ageW B w).2.1
  tag B w v := ((lruTouch_spec ageW B w).2.2.1 v).1
  dirty B w v := ((lruTouch_spec ageW B w).2.2.1 v).2.1
  data B w v := ((lruTouch_spec ageW B w).2.2.1 v).2.2

theorem plruOps_touchOnly : TouchOnly plruOps where
  occ B w := plruTouch_occ B w
  tag B w v := by simp [plruOps, plruTouch_line]
  dirty B w v := by simp [plruOps, plruTouch_line]
  data B w v := by simp [plruOps, plruTouch_line]

/-- A policy's touch under a condition `room` on the block and the way: it raises nothing and leaves the recency
`after`; both look at nothing but the occupancy and the recency metadata. -/
structure TouchGives {ρ : Type} (pol : PolicyOps ρ) (room : Block ρ → Fin 4 → Prop)
    (after : Block ρ → Fin 4 → Fin 4 → ρ) : Prop extends TouchOnly pol where
  raised : ∀ B w, room B w → (pol.touch B w).raised = false
  recency : ∀ B w v, room B w → ((pol.touch B w).block.line v).recency = after B w v
  congr : ∀ B B' w, B.occ = B'.occ → (∀ v, (B.line v).recency = (B'.line v).recency) →
    (room B w → room B' w) ∧ ∀ v, after B w v = after B' w v

theorem lruOps_gives (ageW : Option Nat) : TouchGives (lruOps ageW) (touchRoom ageW) touchedAge where
  toTouchOnly := lruOps_touchOnly ageW
  raised B w h := by
    rw [← not_ageBlocked_iff, ← (lruTouch_spec ageW B w).1] at h
    exact Bool.eq_false_iff.mpr h
  recency B w v h := by
    rw [← not_ageBlocked_iff, ← (lruTouch_spec ageW B w).1] at h
    exact (lruTouch_spec ageW B w).2.2.2.2 (Bool.eq_false_iff.mpr h) v
  congr B B' w h1 h2 := by
    have ho : ∀ v, B.occupied v = B'.occupied v := fun v => by simp [Block.occupied, h1]
    constructor
    · intro h v hv hvo
      rw [← ho] at hvo
      rw [← h2]
      exact h v hv hvo
    · intro v
      simp only [touchedAge, ho, h2]

theorem plruOps_gives : TouchGives plruOps (fun _ _ => True) touchedUsed where
  toTouchOnly := plruOps_touchOnly
  raised _ _ _ := rfl
  recency B w v _ := by
    show ((plruTouch B w).line v).recency = _
    rw [plruTouch_line]
    rfl
  congr B B' w _ h2 := ⟨fun _ => trivial, fun v => by simp only [touchedUsed, h2]⟩

/-- Each policy's victim of a full block is an occupied way (R95, R103, R104). -/
theorem lruVictim_occupied {B : Block Nat} (h : 4 ≤ B.occ) : B.occupied (lruVictim B) = true :=
  (lruVictim_spec ⟨0, (occupied_iff _ _).mpr (by show 0 < B.occ; omega)⟩).1

theorem plruVictim_occupied {B : Block Bool} (h : 4 ≤ B.occ) : B.occupied (plruVictim B) = true := by
  rcases plruVictim_spec B with h' | ⟨h', -⟩
  · exact h'.1
  · rw [h', occupied_iff]
    show 0 < B.occ
    omega

@[simp] theorem plruOps_raised (B : Block Bool) (w : Fin 4) : (plruOps.touch B w).raised = false := rfl

end Sys2Proof.Machine
end

