-- ==== Sys2Proof/Laws/Access.lean ====
section
/-! SUPPORT. What one byte sub-access can do, once (41_block_lookup_fill.md R75 to R89). -/

namespace Sys2Proof.Machine

variable {ρ : Type} {pol : PolicyOps ρ}

/-! ### The line a sub-access leaves -/

@[simp] theorem store_tag (l : Line ρ) (o : Offset) (b : Option Byte) : (l.store o b).tag = l.tag := by
  cases b <;> rfl

@[simp] theorem store_recency (l : Line ρ) (o : Offset) (b : Option Byte) : (l.store o b).recency = l.recency := by
  cases b <;> rfl

theorem store_dirty (l : Line ρ) (o : Offset) (b : Option Byte) : (l.store o b).dirty = (l.dirty || b.isSome) := by
  cases b <;> simp [Line.store]

/-- The payload with the written byte, if there is one, in place (R80, R82). -/
def withByte (d : Payload) (o : Offset) (b : Option Byte) : Payload :=
  match b with
  | some x => d.set o.toNat x o.isLt
  | none => d

@[simp] theorem store_data (l : Line ρ) (o : Offset) (b : Option Byte) : (l.store o b).data = withByte l.data o b := by
  cases b <;> rfl

@[simp] theorem fill_tag (l : Line ρ) (t : Tag) (d : Payload) (o : Offset) (b : Option Byte) :
    (l.fill t d o b).tag = t := rfl

@[simp] theorem fill_dirty (l : Line ρ) (t : Tag) (d : Payload) (o : Offset) (b : Option Byte) :
    (l.fill t d o b).dirty = b.isSome := rfl

@[simp] theorem fill_recency (l : Line ρ) (t : Tag) (d : Payload) (o : Offset) (b : Option Byte) :
    (l.fill t d o b).recency = l.recency := rfl

@[simp] theorem fill_data (l : Line ρ) (t : Tag) (d : Payload) (o : Offset) (b : Option Byte) :
    (l.fill t d o b).data = withByte d o b := by
  cases b <;> rfl

/-- Reading a payload after a byte was put in it: the byte at its offset, every other byte as before. -/
theorem withByte_get (d : Payload) (o p : Offset) (b : Option Byte) :
    (withByte d o b)[p.toNat]'(p.isLt) = if p = o then b.getD (d[p.toNat]'(p.isLt)) else d[p.toNat]'(p.isLt) := by
  cases b with
  | none => simp [withByte]
  | some x =>
    simp only [withByte, Vector.getElem_set, Option.getD_some]
    by_cases h : p = o
    · simp [h]
    · rw [if_neg h, if_neg fun h' => h (BitVec.eq_of_toNat_eq h'.symm)]

/-! ### A hit (R79, R80) -/

/-- The block a hit that raises nothing leaves. -/
def hitBlock (pol : PolicyOps ρ) (x : SubAccess) (B : Block ρ) (w : Fin 4) : Block ρ :=
  (pol.touch B w).block.setLine w (((pol.touch B w).block.line w).store (decompose x.addr).offset x.write)

theorem hitAccess_eq (x : SubAccess) (arr : CacheArray ρ) (m : Memory) (w : Fin 4)
    (h : (pol.touch (arr.block (decompose x.addr).index) w).raised = false) :
    hitAccess pol x arr m w =
      { arr := arr.setBlock (decompose x.addr).index (hitBlock pol x (arr.block (decompose x.addr).index) w)
        mem := m
        byte := (hitBlock pol x (arr.block (decompose x.addr).index) w).byteAt w (decompose x.addr).offset
        hit := true
        raised := false } := by
  simp [hitAccess, h, hitBlock]

@[simp] theorem hitBlock_occ (hp : TouchOnly pol) (x : SubAccess) (B : Block ρ) (w : Fin 4) :
    (hitBlock pol x B w).occ = B.occ := hp.occ B w

@[simp] theorem hitBlock_occupied (hp : TouchOnly pol) (x : SubAccess) (B : Block ρ) (w v : Fin 4) :
    (hitBlock pol x B w).occupied v = B.occupied v := by
  simp [Block.occupied, hitBlock_occ hp]

/-- Every way of the block a hit leaves (R79, R80). -/
theorem hitBlock_line (hp : TouchOnly pol) (x : SubAccess) (B : Block ρ) (w v : Fin 4) :
    (hitBlock pol x B w).line v =
      { tag := (B.line v).tag
        dirty := if v = w then (B.line v).dirty || x.write.isSome else (B.line v).dirty
        data := if v = w then withByte (B.line v).data (decompose x.addr).offset x.write else (B.line v).data
        recency := ((pol.touch B w).block.line v).recency } := by
  unfold hitBlock
  rw [setLine_line]
  by_cases h : v = w
  · subst h
    simp only [if_true]
    have h1 := hp.tag B v v
    have h2 := hp.dirty B v v
    have h3 := hp.data B v v
    cases hl : (pol.touch B v).block.line v
    rw [hl] at h1 h2 h3
    simp only at h1 h2 h3
    subst h1 h2 h3
    cases x.write <;> simp [Line.store, withByte]
  · have h1 := hp.tag B w v
    have h2 := hp.dirty B w v
    have h3 := hp.data B w v
    simp only [h, if_false]
    cases hl : (pol.touch B w).block.line v
    rw [hl] at h1 h2 h3
    simp only at h1 h2 h3
    subst h1 h2 h3
    rfl

/-- The byte a hit returns (R79, R80). -/
theorem hitBlock_byteAt (hp : TouchOnly pol) (x : SubAccess) (B : Block ρ) (w : Fin 4) :
    (hitBlock pol x B w).byteAt w (decompose x.addr).offset =
      x.write.getD (B.byteAt w (decompose x.addr).offset) := by
  simp only [Block.byteAt, hitBlock_line hp, if_true]
  rw [withByte_get, if_pos rfl]

/-! ### A miss (R81 to R83) -/

/-- The block after the fill of a miss, before its touch (R82). -/
def filledBlock (pol : PolicyOps ρ) (x : SubAccess) (B : Block ρ) (m' : Memory) : Block ρ :=
  B.setLine (missWay pol B)
    ((B.line (missWay pol B)).fill (decompose x.addr).tag (memRead m' (lineBase x.addr)) (decompose x.addr).offset x.write)

/-- The block a miss that raises nothing leaves. -/
def missBlock (pol : PolicyOps ρ) (x : SubAccess) (B : Block ρ) (m' : Memory) : Block ρ :=
  { (pol.touch (filledBlock pol x B m') (missWay pol B)).block with
    occ := if B.occ < 4 then B.occ + 1 else B.occ }

/-- `MEM` after the eviction of a miss in the block an access maps to. -/
abbrev memAfterEvict (pol : PolicyOps ρ) (x : SubAccess) (arr : CacheArray ρ) (m : Memory) : Memory :=
  evict m (arr.block (decompose x.addr).index) (decompose x.addr).index
    (missWay pol (arr.block (decompose x.addr).index))

theorem missAccess_eq (hp : TouchOnly pol) (x : SubAccess) (arr : CacheArray ρ) (m : Memory)
    (h : (pol.touch (filledBlock pol x (arr.block (decompose x.addr).index) (memAfterEvict pol x arr m))
      (missWay pol (arr.block (decompose x.addr).index))).raised = false) :
    missAccess pol x arr m =
      { arr := arr.setBlock (decompose x.addr).index
          (missBlock pol x (arr.block (decompose x.addr).index) (memAfterEvict pol x arr m))
        mem := memAfterEvict pol x arr m
        byte := (missBlock pol x (arr.block (decompose x.addr).index) (memAfterEvict pol x arr m)).byteAt
          (missWay pol (arr.block (decompose x.addr).index)) (decompose x.addr).offset
        hit := false
        raised := false } := by
  have hocc := hp.occ (filledBlock pol x (arr.block (decompose x.addr).index) (memAfterEvict pol x arr m))
    (missWay pol (arr.block (decompose x.addr).index))
  simp only [filledBlock, setLine_occ, memAfterEvict] at hocc h
  simp only [missAccess, missBlock, filledBlock, memAfterEvict, h, hocc, Bool.false_eq_true, if_false]

theorem missBlock_occ (x : SubAccess) (B : Block ρ) (m' : Memory) :
    (missBlock pol x B m').occ = if B.occ < 4 then B.occ + 1 else B.occ := rfl

/-- The way a miss takes in a block that is not full is the first unoccupied one (R81). -/
theorem missWay_val {B : Block ρ} (h : B.occ < 4) : (missWay pol B).val = B.occ := by simp [missWay, h]

theorem missWay_full {B : Block ρ} (h : ¬B.occ < 4) : missWay pol B = pol.victim B := by simp [missWay, h]

/-- The occupied ways after a miss are those before it and the way it took (R18, R81, R83). -/
theorem missBlock_occupied (x : SubAccess) {B : Block ρ} (hB : B.occ ≤ 4) (m' : Memory) (v : Fin 4) :
    (missBlock pol x B m').occupied v = true ↔ B.occupied v = true ∨ v = missWay pol B := by
  rw [occupied_iff, occupied_iff, missBlock_occ]
  by_cases h : B.occ < 4
  · have := missWay_val (pol := pol) h
    rw [if_pos h]
    constructor
    · intro hv
      by_cases h' : v.val < B.occ
      · exact .inl h'
      · right; apply Fin.ext; omega
    · rintro (hv | rfl) <;> omega
  · rw [if_neg h]
    have := v.isLt
    exact ⟨.inl, fun _ => by omega⟩

/-- Every way of the block a miss leaves (R82). -/
theorem missBlock_line (hp : TouchOnly pol) (x : SubAccess) (B : Block ρ) (m' : Memory) (v : Fin 4) :
    (missBlock pol x B m').line v =
      { tag := if v = missWay pol B then (decompose x.addr).tag else (B.line v).tag
        dirty := if v = missWay pol B then x.write.isSome else (B.line v).dirty
        data := if v = missWay pol B then withByte (memRead m' (lineBase x.addr)) (decompose x.addr).offset x.write
          else (B.line v).data
        recency := ((pol.touch (filledBlock pol x B m') (missWay pol B)).block.line v).recency } := by
  unfold missBlock
  rw [occ_update_line]
  have h1 := hp.tag (filledBlock pol x B m') (missWay pol B) v
  have h2 := hp.dirty (filledBlock pol x B m') (missWay pol B) v
  have h3 := hp.data (filledBlock pol x B m') (missWay pol B) v
  cases hl : (pol.touch (filledBlock pol x B m') (missWay pol B)).block.line v
  rw [hl] at h1 h2 h3
  simp only at h1 h2 h3
  subst h1 h2 h3
  simp only [filledBlock, setLine_line]
  by_cases h : v = missWay pol B
  · simp [h]
  · simp [h]

/-- The byte a miss returns: the written one, or the byte of `MEM` at the address (R82, R86). -/
theorem missBlock_byteAt (hp : TouchOnly pol) (x : SubAccess) (B : Block ρ) (m' : Memory) :
    (missBlock pol x B m').byteAt (missWay pol B) (decompose x.addr).offset =
      x.write.getD (m'.read x.addr.toNat) := by
  simp only [Block.byteAt, missBlock_line hp, if_true]
  rw [withByte_get, if_pos rfl, memRead_get]
  have := sub_lineBase x.addr
  have h2 : (lineBase x.addr).toNat ≤ x.addr.toNat := by simp; omega
  rw [show (lineBase x.addr).toNat + (decompose x.addr).offset.toNat = x.addr.toNat by omega]

/-! ### Any sub-access -/

theorem byteAccess_hit {x : SubAccess} {arr : CacheArray ρ} {w : Fin 4}
    (h : lookup (arr.block (decompose x.addr).index) (decompose x.addr).tag = some w) (m : Memory) :
    byteAccess pol x arr m = hitAccess pol x arr m w := by simp [byteAccess, h]

theorem byteAccess_miss {x : SubAccess} {arr : CacheArray ρ}
    (h : lookup (arr.block (decompose x.addr).index) (decompose x.addr).tag = none) (m : Memory) :
    byteAccess pol x arr m = missAccess pol x arr m := by simp [byteAccess, h]

/-- The hit flag of a sub-access is the residency of its line before it (R91 (h)). -/
theorem byteAccess_hit_eq (x : SubAccess) (arr : CacheArray ρ) (m : Memory) :
    (byteAccess pol x arr m).hit = (lookup (arr.block (decompose x.addr).index) (decompose x.addr).tag).isSome := by
  cases h : lookup (arr.block (decompose x.addr).index) (decompose x.addr).tag with
  | some w => simp [byteAccess_hit h, hitAccess]
  | none => simp [byteAccess_miss h, missAccess]

/-- A sub-access changes no block but the one its address maps to (R75). -/
theorem byteAccess_block_ne (x : SubAccess) (arr : CacheArray ρ) (m : Memory) {k : Index}
    (hk : k ≠ (decompose x.addr).index) : (byteAccess pol x arr m).arr.block k = arr.block k := by
  cases h : lookup (arr.block (decompose x.addr).index) (decompose x.addr).tag with
  | some w => simp [byteAccess_hit h, hitAccess, setBlock_block_ne _ _ hk]
  | none => simp [byteAccess_miss h, missAccess, setBlock_block_ne _ _ hk]

/-- `MEM` after a sub-access: as after the eviction of a miss, and unchanged by a hit (R79 to R84). -/
theorem byteAccess_mem (x : SubAccess) (arr : CacheArray ρ) (m : Memory) :
    (byteAccess pol x arr m).mem =
      if (lookup (arr.block (decompose x.addr).index) (decompose x.addr).tag).isNone = true
      then memAfterEvict pol x arr m else m := by
  cases h : lookup (arr.block (decompose x.addr).index) (decompose x.addr).tag with
  | some w => simp [byteAccess_hit h, hitAccess]
  | none => simp [byteAccess_miss h, missAccess]

/-- Evicting keeps the canonical form of `MEM`. -/
theorem evict_wf {m : Memory} (h : m.wf = true) (B : Block ρ) (s : Index) (w : Fin 4) : (evict m B s w).wf = true := by
  unfold evict writeBack
  split
  · exact h
  · split
    · exact memWrite_wf h (reconstruct_mod _ _) _
    · exact h

/-- What an eviction leaves in `MEM` (R83, R84): a dirty victim of a full block has its line written back. -/
theorem read_evict {m : Memory} (h : m.wf = true) (B : Block ρ) (s : Index) (w : Fin 4) (x : Addr) :
    (evict m B s w).read x.toNat =
      if ¬B.occ < 4 ∧ (B.line w).dirty = true ∧ (decompose x).tag = (B.line w).tag ∧ (decompose x).index = s
      then B.byteAt w (decompose x).offset else m.read x.toNat := by
  unfold evict writeBack
  by_cases h4 : B.occ < 4
  · simp [h4]
  · by_cases hd : (B.line w).dirty = true
    · simp only [h4, hd, if_false, if_true, not_false_eq_true, true_and]
      rw [read_memWrite h (reconstruct_mod _ _)]
      by_cases hx : (decompose x).tag = (B.line w).tag ∧ (decompose x).index = s
      · have hb := (inLine_reconstruct_iff (B.line w).tag s x).mpr hx
        rw [dif_pos hb, if_pos hx]
        have h1 : reconstruct (B.line w).tag s = lineBase x := by rw [← hx.1, ← hx.2, reconstruct_decompose]
        have h2 := sub_lineBase x
        simp only [Block.byteAt, h1, h2]
      · rw [dif_neg fun hb => hx ((inLine_reconstruct_iff _ _ x).mp hb), if_neg hx]
    · simp [h4, hd]

theorem byteAccess_wf (x : SubAccess) (arr : CacheArray ρ) {m : Memory} (h : m.wf = true) :
    (byteAccess pol x arr m).mem.wf = true := by
  rw [byteAccess_mem]
  split
  · exact evict_wf h ..
  · exact h

end Sys2Proof.Machine
end

