-- ==== Sys2Proof/Laws/Decode.lean ====
section
/-! SUPPORT. The fields of a packed command word and of a packed response word. -/

namespace Sys2Proof

variable (r : BitVec 8) (o z : BitVec 3) (a : Addr) (d : Data)

@[simp] theorem rsvOf_packCommand : rsvOf (packCommand r o z a d) = r := by
  simp only [rsvOf, packCommand]
  ext i hi
  simp only [BitVec.getElem_extractLsb', BitVec.getLsbD_append]
  repeat rw [if_neg (by omega)]
  rw [← BitVec.getLsbD_eq_getElem]
  congr 1
  omega

@[simp] theorem opOf_packCommand : opOf (packCommand r o z a d) = o := by
  simp only [opOf, packCommand]
  ext i hi
  simp only [BitVec.getElem_extractLsb', BitVec.getLsbD_append]
  rw [if_neg (by omega), if_neg (by omega), if_neg (by omega), if_pos (by omega), ← BitVec.getLsbD_eq_getElem]
  congr 1
  omega

@[simp] theorem sizeOf_packCommand : sizeOf (packCommand r o z a d) = z := by
  simp only [sizeOf, packCommand]
  ext i hi
  simp only [BitVec.getElem_extractLsb', BitVec.getLsbD_append]
  rw [if_neg (by omega), if_neg (by omega), if_pos (by omega), ← BitVec.getLsbD_eq_getElem]
  congr 1
  omega

@[simp] theorem addrOf_packCommand : addrOf (packCommand r o z a d) = a := by
  simp only [addrOf, packCommand]
  ext i hi
  simp only [BitVec.getElem_extractLsb', BitVec.getLsbD_append]
  rw [if_neg (by omega), if_pos (by omega), ← BitVec.getLsbD_eq_getElem]
  congr 1
  omega

@[simp] theorem wdataOf_packCommand : wdataOf (packCommand r o z a d) = d := by
  simp only [wdataOf, packCommand]
  ext i hi
  simp only [BitVec.getElem_extractLsb', BitVec.getLsbD_append]
  rw [if_pos (by omega), ← BitVec.getLsbD_eq_getElem]
  congr 1
  omega

/-- A word is its five fields (R55). -/
theorem packCommand_fields (cw : Word) :
    packCommand (rsvOf cw) (opOf cw) (sizeOf cw) (addrOf cw) (wdataOf cw) = cw := by
  simp only [packCommand, rsvOf, opOf, sizeOf, addrOf, wdataOf]
  ext i hi
  simp only [← BitVec.getLsbD_eq_getElem, BitVec.getLsbD_append, BitVec.getLsbD_extractLsb']
  by_cases h1 : i < 32
  · simp [h1]
  by_cases h2 : i - 32 < 18
  · simp [h1, h2, show 32 + (i - 32) = i by omega]
  by_cases h3 : i - 32 - 18 < 3
  · simp [h1, h2, h3, show 50 + (i - 32 - 18) = i by omega]
  by_cases h4 : i - 32 - 18 - 3 < 3
  · simp [h1, h2, h3, h4, show 53 + (i - 32 - 18 - 3) = i by omega]
  · simp [h1, h2, h3, h4, show 56 + (i - 32 - 18 - 3 - 3) = i by omega, show i - 32 - 18 - 3 - 3 < 8 by omega]

/-- Two packed words are equal exactly when their fields are. -/
theorem packCommand_inj {r r' : BitVec 8} {o o' z z' : BitVec 3} {a a' : Addr} {d d' : Data} :
    packCommand r o z a d = packCommand r' o' z' a' d' ↔ r = r' ∧ o = o' ∧ z = z' ∧ a = a' ∧ d = d' := by
  constructor
  · intro h
    refine ⟨?_, ?_, ?_, ?_, ?_⟩
    · simpa using congrArg rsvOf h
    · simpa using congrArg opOf h
    · simpa using congrArg Sys2Proof.sizeOf h
    · simpa using congrArg addrOf h
    · simpa using congrArg wdataOf h
  · rintro ⟨rfl, rfl, rfl, rfl, rfl⟩
    rfl

/-- Masking works field by field. -/
theorem packCommand_and (r r' : BitVec 8) (o o' z z' : BitVec 3) (a a' : Addr) (d d' : Data) :
    packCommand r o z a d &&& packCommand r' o' z' a' d' =
      packCommand (r &&& r') (o &&& o') (z &&& z') (a &&& a') (d &&& d') := by
  simp only [packCommand]
  ext i hi
  simp only [← BitVec.getLsbD_eq_getElem, BitVec.getLsbD_append, BitVec.getLsbD_and]
  repeat' split
  all_goals rfl

theorem and_allOnes_8 (r : BitVec 8) : r &&& 0xFF#8 = r := BitVec.and_allOnes (x := r)

theorem and_allOnes_3 (z : BitVec 3) : z &&& 7#3 = z := BitVec.and_allOnes (x := z)

/-- The mask of the rows of the READ and WRITE commands keeps `RSV`, `OP` and `SIZE` (R64). -/
theorem and_accessMask (cw : Word) :
    cw &&& 0xFFFC000000000000#64 = packCommand (rsvOf cw) (opOf cw) (Sys2Proof.sizeOf cw) 0#18 0#32 := by
  conv_lhs => rw [← packCommand_fields cw]
  rw [show 0xFFFC000000000000#64 = packCommand 0xFF#8 7#3 7#3 0#18 0#32 by decide, packCommand_and]
  simp only [and_allOnes_8, and_allOnes_3, BitVec.and_zero]

/-- The mask of the rows of FLUSH and REPORT keeps `RSV` and `OP` (R64). -/
theorem and_plainMask (cw : Word) :
    cw &&& 0xFFE0000000000000#64 = packCommand (rsvOf cw) (opOf cw) 0#3 0#18 0#32 := by
  conv_lhs => rw [← packCommand_fields cw]
  rw [show 0xFFE0000000000000#64 = packCommand 0xFF#8 7#3 0#3 0#18 0#32 by decide, packCommand_and]
  simp only [and_allOnes_8, and_allOnes_3, BitVec.and_zero]

namespace Machine

variable (c : Cause) (f : Bool) (p : Phase) (hp hl : Bool) (x : Data)

@[simp] theorem rdataOf_responseWord : rdataOf (responseWord c f p hp hl x) = x := by
  simp only [rdataOf, responseWord]
  ext i hi
  simp only [BitVec.getElem_extractLsb', BitVec.getLsbD_append]
  rw [if_pos (by omega), ← BitVec.getLsbD_eq_getElem]
  congr 1
  omega

@[simp] theorem hitLruOf_responseWord : hitLruOf (responseWord c f p hp hl x) = BitVec.ofBool hl := by
  simp only [hitLruOf, responseWord]
  ext i hi
  simp only [BitVec.getElem_extractLsb', BitVec.getLsbD_append]
  rw [if_neg (by omega), if_pos (by omega), ← BitVec.getLsbD_eq_getElem]
  congr 1
  omega

@[simp] theorem hitPlruOf_responseWord : hitPlruOf (responseWord c f p hp hl x) = BitVec.ofBool hp := by
  simp only [hitPlruOf, responseWord]
  ext i hi
  simp only [BitVec.getElem_extractLsb', BitVec.getLsbD_append]
  rw [if_neg (by omega), if_neg (by omega), if_pos (by omega), ← BitVec.getLsbD_eq_getElem]
  congr 1
  omega

@[simp] theorem phaseOf_responseWord : phaseOf (responseWord c f p hp hl x) = p.code := by
  simp only [phaseOf, responseWord]
  ext i hi
  simp only [BitVec.getElem_extractLsb', BitVec.getLsbD_append]
  rw [if_neg (by omega), if_neg (by omega), if_neg (by omega), if_pos (by omega), ← BitVec.getLsbD_eq_getElem]
  congr 1
  omega

@[simp] theorem faultOf_responseWord : faultOf (responseWord c f p hp hl x) = BitVec.ofBool f := by
  simp only [faultOf, responseWord]
  ext i hi
  simp only [BitVec.getElem_extractLsb', BitVec.getLsbD_append]
  rw [if_neg (by omega), if_neg (by omega), if_neg (by omega), if_neg (by omega), if_pos (by omega),
    ← BitVec.getLsbD_eq_getElem]
  congr 1
  omega

@[simp] theorem reservedOf_responseWord : reservedOf (responseWord c f p hp hl x) = 0#24 := by
  simp only [reservedOf, responseWord]
  ext i hi
  simp only [BitVec.getElem_extractLsb', BitVec.getLsbD_append]
  rw [if_neg (by omega), if_neg (by omega), if_neg (by omega), if_neg (by omega), if_neg (by omega), if_neg (by omega)]
  simp

@[simp] theorem causeOf_responseWord : causeOf (responseWord c f p hp hl x) = c.code := by
  simp only [causeOf, responseWord]
  ext i hi
  simp only [BitVec.getElem_extractLsb', BitVec.getLsbD_append]
  rw [if_neg (by omega), if_neg (by omega), if_neg (by omega), if_neg (by omega), if_neg (by omega),
    if_pos (by omega), ← BitVec.getLsbD_eq_getElem]
  congr 1
  omega

end Machine

end Sys2Proof
end

