-- ==== Sys2Proof/Laws/Drive.lean ====
section
/-! SUPPORT. Driving an array through the sub-accesses of an event (R109): the induction over the loop, packaged once, and
the invariants of a block that every sub-access keeps (R25 to R28, R90). -/

namespace Sys2Proof.Machine

variable {ρ : Type} {pol : PolicyOps ρ}

/-! ### The loop -/

theorem drive_cons (x : SubAccess) (xs : List SubAccess) (arr : CacheArray ρ) (m : Memory)
    (h : (byteAccess pol x arr m).raised = false) :
    drive pol (x :: xs) arr m =
      { drive pol xs (byteAccess pol x arr m).arr (byteAccess pol x arr m).mem with
        hit := (byteAccess pol x arr m).hit &&
          (drive pol xs (byteAccess pol x arr m).arr (byteAccess pol x arr m).mem).hit
        bytes := (byteAccess pol x arr m).byte ::
          (drive pol xs (byteAccess pol x arr m).arr (byteAccess pol x arr m).mem).bytes } := by
  simp [drive, h]

theorem drive_cons_raised (x : SubAccess) (xs : List SubAccess) (arr : CacheArray ρ) (m : Memory)
    (h : (byteAccess pol x arr m).raised = true) :
    drive pol (x :: xs) arr m =
      { arr := (byteAccess pol x arr m).arr, mem := (byteAccess pol x arr m).mem, hit := false, bytes := [],
        raised := true } := by
  simp [drive, h]

/-- One more sub-access after a list of them. -/
theorem drive_snoc (xs : List SubAccess) (x : SubAccess) (arr : CacheArray ρ) (m : Memory)
    (h : (drive pol (xs ++ [x]) arr m).raised = false) :
    let d := drive pol xs arr m
    let r := byteAccess pol x d.arr d.mem
    d.raised = false ∧ drive pol (xs ++ [x]) arr m =
      { arr := r.arr, mem := r.mem, hit := d.hit && r.hit, bytes := d.bytes ++ [r.byte], raised := false } := by
  induction xs generalizing arr m with
  | nil =>
    cases hx : (byteAccess pol x arr m).raised with
    | true => rw [List.nil_append, drive_cons_raised x [] arr m hx] at h; simp at h
    | false => simp [drive, hx]
  | cons y ys ih =>
    cases hy : (byteAccess pol y arr m).raised with
    | true => rw [List.cons_append, drive_cons_raised y _ arr m hy] at h; simp at h
    | false =>
      rw [List.cons_append, drive_cons y (ys ++ [x]) arr m hy] at h
      rw [List.cons_append, drive_cons y (ys ++ [x]) arr m hy, drive_cons y ys arr m hy]
      obtain ⟨h1, h2⟩ := ih _ _ h
      exact ⟨h1, by rw [h2]; simp [Bool.and_assoc]⟩

/-- What every sub-access of an event keeps, the event keeps, raised or not. -/
theorem drive_keeps (P : CacheArray ρ → Memory → Prop) (xs : List SubAccess)
    (h : ∀ x ∈ xs, ∀ arr m, P arr m → P (byteAccess pol x arr m).arr (byteAccess pol x arr m).mem)
    (arr : CacheArray ρ) (m : Memory) (h0 : P arr m) : P (drive pol xs arr m).arr (drive pol xs arr m).mem := by
  induction xs generalizing arr m with
  | nil => exact h0
  | cons x xs ih =>
    have h1 := h x (List.mem_cons_self ..) arr m h0
    cases hr : (byteAccess pol x arr m).raised with
    | true => rw [drive_cons_raised x xs arr m hr]; exact h1
    | false =>
      rw [drive_cons x xs arr m hr]
      exact ih (fun y hy => h y (List.mem_cons_of_mem _ hy)) _ _ h1

/-- What every sub-access that raises nothing keeps, an event that raises nothing keeps. -/
theorem drive_keeps_of_not_raised (P : CacheArray ρ → Memory → Prop) (xs : List SubAccess)
    (h : ∀ x ∈ xs, ∀ arr m, P arr m → (byteAccess pol x arr m).raised = false →
      P (byteAccess pol x arr m).arr (byteAccess pol x arr m).mem)
    (arr : CacheArray ρ) (m : Memory) (h0 : P arr m) (hr : (drive pol xs arr m).raised = false) :
    P (drive pol xs arr m).arr (drive pol xs arr m).mem := by
  induction xs generalizing arr m with
  | nil => exact h0
  | cons x xs ih =>
    cases hx : (byteAccess pol x arr m).raised with
    | true => rw [drive_cons_raised x xs arr m hx] at hr; exact absurd hr (by simp)
    | false =>
      have h1 := h x (List.mem_cons_self ..) arr m h0 hx
      rw [drive_cons x xs arr m hx] at hr ⊢
      exact ih (fun y hy => h y (List.mem_cons_of_mem _ hy)) _ _ h1 hr

/-- An event that is cut short is no hit (R109, R137). -/
theorem drive_hit_of_raised (xs : List SubAccess) (arr : CacheArray ρ) (m : Memory)
    (h : (drive pol xs arr m).raised = true) : (drive pol xs arr m).hit = false := by
  induction xs generalizing arr m with
  | nil => simp [drive] at h
  | cons x xs ih =>
    cases hx : (byteAccess pol x arr m).raised with
    | true => rw [drive_cons_raised x xs arr m hx]
    | false =>
      rw [drive_cons x xs arr m hx] at h ⊢
      simp [ih _ _ h]

theorem drive_wf (xs : List SubAccess) (arr : CacheArray ρ) {m : Memory} (h : m.wf = true) :
    (drive pol xs arr m).mem.wf = true :=
  drive_keeps (fun _ m => m.wf = true) xs (fun x _ arr _ h => byteAccess_wf x arr h) arr m h

/-- An event changes no block but those its bytes map to (R75). -/
theorem drive_block_ne (xs : List SubAccess) (arr : CacheArray ρ) (m : Memory) {k : Index}
    (hk : ∀ x ∈ xs, k ≠ (decompose x.addr).index) : (drive pol xs arr m).arr.block k = arr.block k :=
  drive_keeps (fun arr' _ => arr'.block k = arr.block k) xs
    (fun x hx arr' m' h => by rw [byteAccess_block_ne x arr' m' (hk x hx), h]) arr m rfl

/-! ### Occupancy and tags (R25, R26) -/

/-- The block an access maps to, after a sub-access that raised: only a touch cut short, after the fill of a miss
(R135). -/
theorem byteAccess_block_raised (x : SubAccess) (arr : CacheArray ρ) (m : Memory)
    (h : (byteAccess pol x arr m).raised = true) :
    (byteAccess pol x arr m).arr.block (decompose x.addr).index =
      match lookup (arr.block (decompose x.addr).index) (decompose x.addr).tag with
      | some w => (pol.touch (arr.block (decompose x.addr).index) w).block
      | none => (pol.touch (filledBlock pol x (arr.block (decompose x.addr).index) (memAfterEvict pol x arr m))
          (missWay pol (arr.block (decompose x.addr).index))).block := by
  cases hl : lookup (arr.block (decompose x.addr).index) (decompose x.addr).tag with
  | some w =>
    rw [byteAccess_hit hl] at h ⊢
    simp only [hitAccess] at h ⊢
    simp [h]
  | none =>
    rw [byteAccess_miss hl] at h ⊢
    simp only [missAccess, filledBlock, memAfterEvict] at h ⊢
    simp [h]

/-- Whether a sub-access raises is whether its touch does (R75, R135). -/
theorem byteAccess_raised (x : SubAccess) (arr : CacheArray ρ) (m : Memory) :
    (byteAccess pol x arr m).raised =
      match lookup (arr.block (decompose x.addr).index) (decompose x.addr).tag with
      | some w => (pol.touch (arr.block (decompose x.addr).index) w).raised
      | none => (pol.touch (filledBlock pol x (arr.block (decompose x.addr).index) (memAfterEvict pol x arr m))
          (missWay pol (arr.block (decompose x.addr).index))).raised := by
  cases hl : lookup (arr.block (decompose x.addr).index) (decompose x.addr).tag with
  | some w => rw [byteAccess_hit hl]; rfl
  | none => rw [byteAccess_miss hl]; rfl

/-- The block an access maps to, after a sub-access that raised nothing. -/
theorem byteAccess_block (hp : TouchOnly pol) (x : SubAccess) (arr : CacheArray ρ) (m : Memory)
    (h : (byteAccess pol x arr m).raised = false) :
    (byteAccess pol x arr m).arr.block (decompose x.addr).index =
      match lookup (arr.block (decompose x.addr).index) (decompose x.addr).tag with
      | some w => hitBlock pol x (arr.block (decompose x.addr).index) w
      | none => missBlock pol x (arr.block (decompose x.addr).index) (memAfterEvict pol x arr m) := by
  rw [byteAccess_raised] at h
  cases hl : lookup (arr.block (decompose x.addr).index) (decompose x.addr).tag with
  | some w =>
    simp only [hl] at h
    rw [byteAccess_hit hl, hitAccess_eq _ _ _ _ h]
    simp
  | none =>
    simp only [hl] at h
    rw [byteAccess_miss hl, missAccess_eq hp _ _ _ h]
    simp

/-- The tag of every way after a sub-access, raised or not: only a miss writes one (R83, R26). -/
theorem byteAccess_tag (hp : TouchOnly pol) (x : SubAccess) (arr : CacheArray ρ) (m : Memory) (v : Fin 4) :
    (((byteAccess pol x arr m).arr.block (decompose x.addr).index).line v).tag =
      if lookup (arr.block (decompose x.addr).index) (decompose x.addr).tag = none ∧
          v = missWay pol (arr.block (decompose x.addr).index)
      then (decompose x.addr).tag else ((arr.block (decompose x.addr).index).line v).tag := by
  cases hr : (byteAccess pol x arr m).raised with
  | true =>
    rw [byteAccess_block_raised x arr m hr]
    cases hl : lookup (arr.block (decompose x.addr).index) (decompose x.addr).tag with
    | some w => simp [hp.tag]
    | none =>
      simp only [hp.tag, filledBlock, setLine_line]
      by_cases hv : v = missWay pol (arr.block (decompose x.addr).index) <;> simp [hv]
  | false =>
    rw [byteAccess_block hp x arr m hr]
    cases hl : lookup (arr.block (decompose x.addr).index) (decompose x.addr).tag with
    | some w => simp [hitBlock_line hp]
    | none => simp [missBlock_line hp]

/-- The occupancy after a sub-access, raised or not: only a miss in a block that is not full counts a way (R17). -/
theorem byteAccess_occ (hp : TouchOnly pol) (x : SubAccess) (arr : CacheArray ρ) (m : Memory) :
    ((byteAccess pol x arr m).arr.block (decompose x.addr).index).occ =
      if lookup (arr.block (decompose x.addr).index) (decompose x.addr).tag = none ∧
          (byteAccess pol x arr m).raised = false ∧ (arr.block (decompose x.addr).index).occ < 4
      then (arr.block (decompose x.addr).index).occ + 1 else (arr.block (decompose x.addr).index).occ := by
  cases hr : (byteAccess pol x arr m).raised with
  | true =>
    rw [byteAccess_block_raised x arr m hr]
    cases hl : lookup (arr.block (decompose x.addr).index) (decompose x.addr).tag with
    | some w => simp [hp.occ]
    | none => simp [hp.occ, filledBlock]
  | false =>
    rw [byteAccess_block hp x arr m hr]
    cases hl : lookup (arr.block (decompose x.addr).index) (decompose x.addr).tag with
    | some w => simp [hitBlock_occ hp]
    | none => simp [missBlock_occ]

/-- What a sub-access keeps of occupancy and tags (R25, R26, R90). -/
theorem byteAccess_keeps_tags (hp : TouchOnly pol) (x : SubAccess) (arr : CacheArray ρ) (m : Memory) (k : Index)
    (h : (arr.block k).occ ≤ 4 ∧ (arr.block k).tagsDistinct) :
    ((byteAccess pol x arr m).arr.block k).occ ≤ 4 ∧ ((byteAccess pol x arr m).arr.block k).tagsDistinct := by
  by_cases hk : k = (decompose x.addr).index
  swap
  · rwa [byteAccess_block_ne x arr m hk]
  subst hk
  obtain ⟨h4, hd⟩ := h
  have hocc := byteAccess_occ hp x arr m
  constructor
  · rw [hocc]; split <;> omega
  intro v w hv hw
  rw [byteAccess_tag hp, byteAccess_tag hp]
  rw [occupied_iff] at hv hw
  cases hl : lookup (arr.block (decompose x.addr).index) (decompose x.addr).tag with
  | some u =>
    rw [hl] at hocc
    simp only [reduceCtorEq, false_and, if_false] at hocc ⊢
    rw [hocc] at hv hw
    exact hd v w ((occupied_iff _ _).mpr hv) ((occupied_iff _ _).mpr hw)
  | none =>
    rw [hl] at hocc
    simp only [true_and] at hocc ⊢
    have hnone := lookup_eq_none.mp hl
    -- an occupied way after the access other than the one the miss took was occupied before
    have hold : ∀ u : Fin 4, u.val < ((byteAccess pol x arr m).arr.block (decompose x.addr).index).occ →
        u ≠ missWay pol (arr.block (decompose x.addr).index) →
        (arr.block (decompose x.addr).index).occupied u = true := by
      intro u hu hne
      rw [occupied_iff]
      rw [hocc] at hu
      split at hu
      · rename_i hc
        have := missWay_val (pol := pol) hc.2
        have : u.val ≠ (missWay pol (arr.block (decompose x.addr).index)).val := fun e => hne (Fin.ext e)
        omega
      · exact hu
    by_cases hvm : v = missWay pol (arr.block (decompose x.addr).index) <;>
      by_cases hwm : w = missWay pol (arr.block (decompose x.addr).index)
    · intro _; rw [hvm, hwm]
    · rw [if_pos hvm, if_neg hwm]
      intro e
      exact absurd ⟨hold w hw hwm, e.symm⟩ (hnone w)
    · rw [if_neg hvm, if_pos hwm]
      intro e
      exact absurd ⟨hold v hv hvm, e⟩ (hnone v)
    · rw [if_neg hvm, if_neg hwm]
      exact hd v w (hold v hv hvm) (hold w hw hwm)

/-! ### Ages and used bits (R27, R28) -/

/-- The recency a touch works on: the block itself on a hit, the filled block on a miss; in both the recency metadata and
the occupancy are those of the block before. -/
theorem filledBlock_recency (x : SubAccess) (B : Block ρ) (m' : Memory) (v : Fin 4) :
    ((filledBlock pol x B m').line v).recency = (B.line v).recency := by
  simp only [filledBlock, setLine_line]
  by_cases h : v = missWay pol B
  · simp [h]
  · simp [h]

@[simp] theorem filledBlock_occupied (x : SubAccess) (B : Block ρ) (m' : Memory) (v : Fin 4) :
    (filledBlock pol x B m').occupied v = B.occupied v := rfl

@[simp] theorem filledBlock_occ (x : SubAccess) (B : Block ρ) (m' : Memory) :
    (filledBlock pol x B m').occ = B.occ := rfl

theorem touchedAge_filledBlock (x : SubAccess) (B : Block Nat) (ageW : Option Nat) (m' : Memory) (w v : Fin 4) :
    touchedAge (filledBlock (lruOps ageW) x B m') w v = touchedAge B w v := by
  simp [touchedAge, filledBlock_recency]

theorem ageBlocked_filledBlock (x : SubAccess) (B : Block Nat) (ageW : Option Nat) (m' : Memory) (w : Fin 4) :
    ageBlocked ageW (filledBlock (lruOps ageW) x B m') w ↔ ageBlocked ageW B w := by
  simp [ageBlocked, filledBlock_recency]

/-- The way a sub-access touches: the one that hit, or the one the miss takes (R88). -/
def accessWay (pol : PolicyOps ρ) (B : Block ρ) (t : Tag) : Fin 4 := (lookup B t).getD (missWay pol B)

/-- A sub-access of `ARR[LRU]` raises exactly when another occupied way of its block is at the limit (R97, R135). -/
theorem byteAccess_lru_raised (ageW : Option Nat) (x : SubAccess) (arr : CacheArray Nat) (m : Memory) :
    (byteAccess (lruOps ageW) x arr m).raised = true ↔
      ageBlocked ageW (arr.block (decompose x.addr).index)
        (accessWay (lruOps ageW) (arr.block (decompose x.addr).index) (decompose x.addr).tag) := by
  rw [byteAccess_raised]
  unfold accessWay
  cases hl : lookup (arr.block (decompose x.addr).index) (decompose x.addr).tag with
  | some w => exact (lruTouch_spec ageW _ w).1
  | none => exact (lruTouch_spec ageW _ _).1.trans (ageBlocked_filledBlock x _ ageW _ _)

/-- The ages of a block of `ARR[LRU]` after a sub-access that raised nothing (R94). -/
theorem byteAccess_age (ageW : Option Nat) (x : SubAccess) (arr : CacheArray Nat) (m : Memory)
    (h : (byteAccess (lruOps ageW) x arr m).raised = false) (v : Fin 4) :
    (((byteAccess (lruOps ageW) x arr m).arr.block (decompose x.addr).index).line v).recency =
      touchedAge (arr.block (decompose x.addr).index)
        (accessWay (lruOps ageW) (arr.block (decompose x.addr).index) (decompose x.addr).tag) v := by
  have hr := h
  rw [byteAccess_raised] at hr
  rw [byteAccess_block (lruOps_touchOnly ageW) x arr m h]
  unfold accessWay
  cases hl : lookup (arr.block (decompose x.addr).index) (decompose x.addr).tag with
  | some w =>
    simp only [hl] at hr
    simp only [hitBlock_line (lruOps_touchOnly ageW), Option.getD_some]
    exact (lruTouch_spec ageW _ w).2.2.2.2 hr v
  | none =>
    simp only [hl] at hr
    simp only [missBlock_line (lruOps_touchOnly ageW), Option.getD_none]
    exact ((lruTouch_spec ageW _ _).2.2.2.2 hr v).trans (touchedAge_filledBlock ..)

/-- The ways of a block that are occupied after a sub-access that raised nothing: those before it and the way it touched
(R18). -/
theorem byteAccess_occupied (hp : TouchOnly pol) (x : SubAccess) (arr : CacheArray ρ) (m : Memory)
    (h : (byteAccess pol x arr m).raised = false) (h4 : (arr.block (decompose x.addr).index).occ ≤ 4) (v : Fin 4) :
    ((byteAccess pol x arr m).arr.block (decompose x.addr).index).occupied v = true ↔
      (arr.block (decompose x.addr).index).occupied v = true ∨
        v = accessWay pol (arr.block (decompose x.addr).index) (decompose x.addr).tag := by
  rw [byteAccess_block hp x arr m h]
  unfold accessWay
  cases hl : lookup (arr.block (decompose x.addr).index) (decompose x.addr).tag with
  | some w =>
    simp only [hitBlock_occupied hp, Option.getD_some]
    exact ⟨.inl, fun h => h.elim id fun e => e ▸ (lookup_eq_some.mp hl).1.1⟩
  | none => simpa using missBlock_occupied x h4 _ v

/-- Ages stay distinct through a sub-access that raises nothing (R27, R90). -/
theorem byteAccess_keeps_ages (ageW : Option Nat) (x : SubAccess) (arr : CacheArray Nat) (m : Memory)
    (hr : (byteAccess (lruOps ageW) x arr m).raised = false) (k : Index)
    (h4 : (arr.block k).occ ≤ 4) (h : (arr.block k).agesDistinct) :
    ((byteAccess (lruOps ageW) x arr m).arr.block k).agesDistinct := by
  by_cases hk : k = (decompose x.addr).index
  swap
  · rwa [byteAccess_block_ne x arr m hk]
  subst hk
  intro v w hv hw
  rw [byteAccess_occupied (lruOps_touchOnly ageW) x arr m hr h4] at hv hw
  rw [byteAccess_age ageW x arr m hr, byteAccess_age ageW x arr m hr]
  generalize accessWay (lruOps ageW) (arr.block (decompose x.addr).index) (decompose x.addr).tag = u at hv hw
  simp only [touchedAge]
  by_cases hvu : v = u <;> by_cases hwu : w = u
  · intro _; rw [hvu, hwu]
  · have := hw.resolve_right hwu
    simp [hvu, hwu, this]
  · have := hv.resolve_right hvu
    simp [hvu, hwu, this]
  · have hv' := hv.resolve_right hvu
    have hw' := hw.resolve_right hwu
    simp only [hvu, hwu, hv', hw', if_true, if_false]
    intro e
    exact h v w hv' hw' (by omega)

theorem fits_succ {width : Option Nat} {n : Nat} (h : fits width n) (hl : atLimit width n = false) :
    fits width (n + 1) := by
  intro w hw
  have := h w hw
  rw [Option.mem_def] at hw
  subst hw
  simp only [atLimit, beq_eq_false_iff_ne, ne_eq] at hl
  omega

theorem fits_zero (width : Option Nat) : fits width 0 := fun _ _ => Nat.two_pow_pos _

/-- Ages of occupied ways keep fitting their width through a sub-access, raised or not (R22, R97). -/
theorem byteAccess_keeps_fits (ageW : Option Nat) (x : SubAccess) (arr : CacheArray Nat) (m : Memory) (k : Index)
    (h4 : (arr.block k).occ ≤ 4)
    (h : ∀ w, (arr.block k).occupied w = true → fits ageW ((arr.block k).line w).recency) (w : Fin 4)
    (hw : ((byteAccess (lruOps ageW) x arr m).arr.block k).occupied w = true) :
    fits ageW (((byteAccess (lruOps ageW) x arr m).arr.block k).line w).recency := by
  by_cases hk : k = (decompose x.addr).index
  swap
  · rw [byteAccess_block_ne x arr m hk] at hw ⊢
    exact h w hw
  subst hk
  -- one touch keeps the ages of the ways that were occupied
  have touch : ∀ (B' : Block Nat) (u : Fin 4), B'.occupied w = true → fits ageW (B'.line w).recency →
      fits ageW ((lruTouch ageW B' u).block.line w).recency := by
    intro B' u ho hf
    rcases (lruTouch_spec ageW B' u).2.2.2.1 w with e | ⟨-, e⟩ | ⟨-, -, hl, e⟩
    · rwa [e]
    · rw [e]; exact fits_zero _
    · rw [e]; exact fits_succ hf hl
  cases hr : (byteAccess (lruOps ageW) x arr m).raised with
  | true =>
    rw [byteAccess_block_raised x arr m hr] at hw ⊢
    cases hl : lookup (arr.block (decompose x.addr).index) (decompose x.addr).tag with
    | some u =>
      simp only [hl] at hw ⊢
      have ho : (arr.block (decompose x.addr).index).occupied w = true := by
        simpa only [Block.occupied, (lruOps_touchOnly ageW).occ] using hw
      exact touch _ _ ho (h w ho)
    | none =>
      simp only [hl] at hw ⊢
      have ho : (arr.block (decompose x.addr).index).occupied w = true := by
        simpa only [Block.occupied, (lruOps_touchOnly ageW).occ, filledBlock_occ] using hw
      exact touch _ _ ho (by rw [filledBlock_recency]; exact h w ho)
  | false =>
    rw [byteAccess_occupied (lruOps_touchOnly ageW) x arr m hr h4] at hw
    rw [byteAccess_age ageW x arr m hr]
    have hnb : ¬ageBlocked ageW (arr.block (decompose x.addr).index)
        (accessWay (lruOps ageW) (arr.block (decompose x.addr).index) (decompose x.addr).tag) := by
      rw [← byteAccess_lru_raised ageW x arr m, hr]; simp
    generalize accessWay (lruOps ageW) (arr.block (decompose x.addr).index) (decompose x.addr).tag = u at hw hnb
    simp only [touchedAge]
    by_cases hwu : w = u
    · simp only [hwu, if_true]; exact fits_zero _
    · have ho := hw.resolve_right hwu
      simp only [hwu, ho, if_true, if_false]
      refine fits_succ (h w ho) ?_
      cases hb : atLimit ageW ((arr.block (decompose x.addr).index).line w).recency with
      | false => rfl
      | true => exact absurd ⟨w, hwu, ho, hb⟩ hnb

/-- A sub-access of `ARR[PLRU]` raises nothing (R101). -/
@[simp] theorem byteAccess_plru_raised (x : SubAccess) (arr : CacheArray Bool) (m : Memory) :
    (byteAccess plruOps x arr m).raised = false := by
  rw [byteAccess_raised]
  split <;> rfl

@[simp] theorem drive_plru_raised (xs : List SubAccess) (arr : CacheArray Bool) (m : Memory) :
    (drive plruOps xs arr m).raised = false := by
  induction xs generalizing arr m with
  | nil => rfl
  | cons x xs ih => rw [drive_cons x xs arr m (byteAccess_plru_raised ..)]; exact ih _ _

/-- The used bits of a block of `ARR[PLRU]` after a sub-access (R101). -/
theorem byteAccess_used (x : SubAccess) (arr : CacheArray Bool) (m : Memory) (v : Fin 4) :
    (((byteAccess plruOps x arr m).arr.block (decompose x.addr).index).line v).recency =
      ((plruTouch (arr.block (decompose x.addr).index)
        (accessWay plruOps (arr.block (decompose x.addr).index) (decompose x.addr).tag)).line v).recency := by
  rw [byteAccess_block plruOps_touchOnly x arr m (byteAccess_plru_raised ..)]
  unfold accessWay
  cases hl : lookup (arr.block (decompose x.addr).index) (decompose x.addr).tag with
  | some w => simp only [hitBlock_line plruOps_touchOnly, Option.getD_some]; rfl
  | none =>
    simp only [missBlock_line plruOps_touchOnly, Option.getD_none]
    simp only [plruOps, plruTouch_line, filledBlock_recency, clearAllFires]

/-- Used bits stay legal through a sub-access (R28, R90). -/
theorem byteAccess_keeps_used (x : SubAccess) (arr : CacheArray Bool) (m : Memory) (k : Index)
    (h4 : (arr.block k).occ ≤ 4) (h : (arr.block k).usedLegal) :
    ((byteAccess plruOps x arr m).arr.block k).usedLegal := by
  by_cases hk : k = (decompose x.addr).index
  swap
  · rwa [byteAccess_block_ne x arr m hk]
  subst hk
  have hocc := byteAccess_occupied plruOps_touchOnly x arr m (byteAccess_plru_raised ..) h4
  constructor
  · intro v hv
    have hv' : ¬((arr.block (decompose x.addr).index).occupied v = true ∨
        v = accessWay plruOps (arr.block (decompose x.addr).index) (decompose x.addr).tag) := by
      rw [← hocc v, hv]; simp
    rw [not_or] at hv'
    rw [byteAccess_used, plruTouch_line]
    simp only [hv'.2, if_false]
    have := h.1 v (by simpa using hv'.1)
    simp [this]
  · intro _
    refine ⟨⟨accessWay plruOps (arr.block (decompose x.addr).index) (decompose x.addr).tag, ?_⟩, ?_⟩
    · rw [byteAccess_used, plruTouch_line]; simp
    · generalize hu : accessWay plruOps (arr.block (decompose x.addr).index) (decompose x.addr).tag = u
      by_cases hc : clearAllFires (arr.block (decompose x.addr).index) u
      · obtain ⟨v, hv⟩ : ∃ v : Fin 4, v ≠ u := by
          clear hu hc
          revert u
          decide
        refine ⟨v, ?_⟩
        rw [byteAccess_used, hu, plruTouch_line]
        simp only [hv, if_pos hc, if_false]
      · have hc' := hc
        simp only [clearAllFires, not_forall] at hc'
        obtain ⟨v, hv, hvf⟩ := hc'
        refine ⟨v, ?_⟩
        rw [byteAccess_used, hu, plruTouch_line]
        simp only [hv, hc, if_false]
        simpa using hvf

end Sys2Proof.Machine
end

