-- ==== Sys2Proof/Laws/Event.lean ====
section
/-! SUPPORT. What the sub-accesses of one event do together: the line they leave resident (R85, R91), the room an age needs
(R97), and coherence with the true content (R47). -/

namespace Sys2Proof.Machine

variable {ρ : Type} {pol : PolicyOps ρ}

/-! ### The lines of one event (R119) -/

/-- The address lies in the line the sub-access works on. -/
def onLine (y : Addr) (x : SubAccess) : Prop :=
  (decompose y).index = (decompose x.addr).index ∧ (decompose y).tag = (decompose x.addr).tag

/-- Sub-accesses of one set lie in one line. -/
def OneLinePerSet (xs : List SubAccess) : Prop :=
  ∀ x ∈ xs, ∀ y ∈ xs, (decompose x.addr).index = (decompose y.addr).index →
    (decompose x.addr).tag = (decompose y.addr).tag

/-- The bytes of an event in range that share a set share a line (R119). -/
theorem subAccesses_oneLine {a : Addr} {n : Nat} (h : a.toNat + n ≤ 262144) (hn : n ≤ 4) (value : Option Data) :
    OneLinePerSet (subAccesses a n value) := by
  intro x hx y hy hxy
  obtain ⟨i, hi, rfl⟩ := mem_subAccesses.mp hx
  obtain ⟨j, hj, rfl⟩ := mem_subAccesses.mp hy
  have h1 : (byteAddr a i).toNat = a.toNat + i := byteAddr_toNat (by omega)
  have h2 : (byteAddr a j).toNat = a.toNat + j := byteAddr_toNat (by omega)
  refine same_index_same_tag hxy ?_ ?_
  · show (byteAddr a i).toNat < (byteAddr a j).toNat + 32
    omega
  · show (byteAddr a j).toNat < (byteAddr a i).toNat + 32
    omega

@[simp] theorem subAccesses_length (a : Addr) (n : Nat) (value : Option Data) :
    (subAccesses a n value).length = n := by simp [subAccesses]

/-! ### Residency -/

theorem lookup_congr {B B' : Block ρ} (ho : ∀ v, B.occupied v = B'.occupied v)
    (ht : ∀ v, (B.line v).tag = (B'.line v).tag) (t : Tag) : lookup B t = lookup B' t := by
  simp only [lookup, ho, ht]

/-- The victim of a full block is one of its occupied ways. -/
def VictimOccupied (pol : PolicyOps ρ) : Prop := ∀ B : Block ρ, 4 ≤ B.occ → B.occupied (pol.victim B) = true

theorem lruOps_victimOccupied (ageW : Option Nat) : VictimOccupied (lruOps ageW) := fun _ => lruVictim_occupied

theorem plruOps_victimOccupied : VictimOccupied plruOps := fun _ => plruVictim_occupied

/-- A sub-access that raises nothing leaves its line resident in the way it touched (R85, R91). -/
theorem byteAccess_lookup_self (hp : TouchOnly pol) (hv : VictimOccupied pol) (x : SubAccess) (arr : CacheArray ρ)
    (m : Memory) (h : (byteAccess pol x arr m).raised = false) :
    lookup ((byteAccess pol x arr m).arr.block (decompose x.addr).index) (decompose x.addr).tag =
      some (accessWay pol (arr.block (decompose x.addr).index) (decompose x.addr).tag) := by
  rw [byteAccess_block hp x arr m h]
  unfold accessWay
  cases hl : lookup (arr.block (decompose x.addr).index) (decompose x.addr).tag with
  | some w =>
    simp only [Option.getD_some]
    rw [← hl]
    exact lookup_congr (fun v => hitBlock_occupied hp ..) (fun v => by rw [hitBlock_line hp]) _
  | none =>
    simp only [Option.getD_none]
    generalize memAfterEvict pol x arr m = m'
    generalize arr.block (decompose x.addr).index = B at hl
    have hnone := lookup_eq_none.mp hl
    rw [lookup_eq_some]
    refine ⟨⟨?_, by simp [missBlock_line hp]⟩, fun v hvw hc => ?_⟩
    · rw [occupied_iff, missBlock_occ]
      by_cases h4 : B.occ < 4
      · rw [if_pos h4, missWay_val h4]; omega
      · rw [if_neg h4, missWay_full h4]
        exact (occupied_iff _ _).mp (hv B (by omega))
    · rw [missBlock_line hp, if_neg (by omega), occupied_iff, missBlock_occ] at hc
      refine hnone v ⟨(occupied_iff _ _).mpr ?_, hc.2⟩
      by_cases h4 : B.occ < 4
      · have := missWay_val (pol := pol) h4
        omega
      · rw [if_neg h4] at hc; exact hc.1

/-- A sub-access to a line that is resident leaves every lookup as it was (R79, R80). -/
theorem byteAccess_lookup_of_hit (hp : TouchOnly pol) (x : SubAccess) (arr : CacheArray ρ) (m : Memory) {w : Fin 4}
    (h : lookup (arr.block (decompose x.addr).index) (decompose x.addr).tag = some w) (k : Index) (t : Tag) :
    lookup ((byteAccess pol x arr m).arr.block k) t = lookup (arr.block k) t := by
  by_cases hk : k = (decompose x.addr).index
  · subst hk
    refine lookup_congr (fun v => ?_) (fun v => ?_) t
    · simp [Block.occupied, byteAccess_occ hp, h]
    · simp [byteAccess_tag hp, h]
  · rw [byteAccess_block_ne x arr m hk]

/-- Within one event, a line that is resident stays so, in its way. -/
theorem byteAccess_lookup_other (hp : TouchOnly pol) (x : SubAccess) (arr : CacheArray ρ) (m : Memory) {y : Addr}
    {u : Fin 4} (hxy : (decompose x.addr).index = (decompose y).index → (decompose x.addr).tag = (decompose y).tag)
    (h : lookup (arr.block (decompose y).index) (decompose y).tag = some u) :
    lookup ((byteAccess pol x arr m).arr.block (decompose y).index) (decompose y).tag = some u := by
  by_cases hk : (decompose y).index = (decompose x.addr).index
  · have ht := hxy hk.symm
    have h' : lookup (arr.block (decompose x.addr).index) (decompose x.addr).tag = some u := by rw [ht, ← hk]; exact h
    rw [byteAccess_lookup_of_hit hp x arr m h']
    exact h
  · rw [byteAccess_block_ne x arr m hk]
    exact h

/-- An event that raises nothing leaves every one of its lines resident (R85, R91). -/
theorem drive_resident (hp : TouchOnly pol) (hv : VictimOccupied pol) (xs : List SubAccess) (hone : OneLinePerSet xs)
    (arr : CacheArray ρ) (m : Memory) (h : (drive pol xs arr m).raised = false) :
    ∀ x ∈ xs, residentIn (drive pol xs arr m).arr x.addr := by
  induction xs generalizing arr m with
  | nil => simp
  | cons x xs ih =>
    cases hr : (byteAccess pol x arr m).raised with
    | true => rw [drive_cons_raised x xs arr m hr] at h; exact absurd h (by simp)
    | false =>
      rw [drive_cons x xs arr m hr] at h ⊢
      intro y hy
      rcases List.mem_cons.mp hy with rfl | hy'
      · have h0 := byteAccess_lookup_self hp hv y arr m hr
        have := drive_keeps
          (fun arr' _ => lookup (arr'.block (decompose y.addr).index) (decompose y.addr).tag =
            some (accessWay pol (arr.block (decompose y.addr).index) (decompose y.addr).tag)) xs
          (fun z hz arr' m' h' => byteAccess_lookup_other hp z arr' m'
            (hone z (List.mem_cons_of_mem _ hz) y (List.mem_cons_self ..)) h') _
          (byteAccess pol y arr m).mem h0
        simp only [residentIn]
        rw [this]
        rfl
      · exact ih (fun z hz w hw => hone z (List.mem_cons_of_mem _ hz) w (List.mem_cons_of_mem _ hw)) _ _ h y hy'

/-- The hit flag of an event that raises nothing: every byte was resident before it (R109, R116). -/
theorem drive_hit_iff (hp : TouchOnly pol) (xs : List SubAccess) (arr : CacheArray ρ) (m : Memory)
    (h : (drive pol xs arr m).raised = false) :
    (drive pol xs arr m).hit = true ↔ ∀ x ∈ xs, residentIn arr x.addr := by
  induction xs generalizing arr m with
  | nil => simp [drive]
  | cons x xs ih =>
    cases hr : (byteAccess pol x arr m).raised with
    | true => rw [drive_cons_raised x xs arr m hr] at h; exact absurd h (by simp)
    | false =>
      rw [drive_cons x xs arr m hr] at h ⊢
      simp only [Bool.and_eq_true, List.forall_mem_cons]
      rw [ih _ _ h, byteAccess_hit_eq]
      refine and_congr_right fun hx => ?_
      obtain ⟨w, hw⟩ := Option.isSome_iff_exists.mp hx
      simp only [residentIn, byteAccess_lookup_of_hit hp x arr m hw]

/-! ### Room for the ages (R97, R135) -/

/-- An event whose blocks have room for as many touches as it has bytes raises nothing. The way that holds the line of
the event needs no room: it is the one touched. -/
theorem drive_lru_not_raised (ageW : Option Nat) (xs : List SubAccess) (hone : OneLinePerSet xs) (arr : CacheArray Nat)
    (m : Memory)
    (h : ∀ k ∈ ageW, ∀ x ∈ xs, ∀ v, (arr.block (decompose x.addr).index).occupied v = true →
      lookup (arr.block (decompose x.addr).index) (decompose x.addr).tag ≠ some v →
        ((arr.block (decompose x.addr).index).line v).recency + xs.length < 2 ^ k) :
    (drive (lruOps ageW) xs arr m).raised = false := by
  induction xs generalizing arr m with
  | nil => rfl
  | cons x xs ih =>
    have hx := fun k hk => h k hk x (List.mem_cons_self ..)
    have hr : (byteAccess (lruOps ageW) x arr m).raised = false := by
      rw [Bool.eq_false_iff, ne_eq, byteAccess_lru_raised, not_ageBlocked_iff]
      intro v hvu ho k hk
      have hl : lookup (arr.block (decompose x.addr).index) (decompose x.addr).tag ≠ some v := by
        intro e
        exact hvu (by simp [accessWay, e])
      have := hx k hk v ho hl
      simp only [List.length_cons] at this
      omega
    rw [drive_cons x xs arr m hr]
    refine ih (fun z hz w hw => hone z (List.mem_cons_of_mem _ hz) w (List.mem_cons_of_mem _ hw)) _ _ ?_
    intro k hk y hy v ho hl
    have hy' := List.mem_cons_of_mem x hy
    by_cases hi : (decompose y.addr).index = (decompose x.addr).index
    · have ht := hone y hy' x (List.mem_cons_self ..) hi
      rw [hi] at ho hl ⊢
      rw [ht, byteAccess_lookup_self (lruOps_touchOnly ageW) (lruOps_victimOccupied ageW) x arr m hr] at hl
      have hvu : v ≠ accessWay (lruOps ageW) (arr.block (decompose x.addr).index) (decompose x.addr).tag :=
        fun e => hl (by rw [e])
      have ho' : (arr.block (decompose x.addr).index).occupied v = true := by
        rw [occupied_iff, byteAccess_occ (lruOps_touchOnly ageW)] at ho
        rw [occupied_iff]
        split at ho
        · rename_i hc
          have hm := missWay_val (pol := lruOps ageW) hc.2.2
          have : v.val ≠ (missWay (lruOps ageW) (arr.block (decompose x.addr).index)).val := by
            intro e
            exact hvu (by simp [accessWay, hc.1, Fin.ext e])
          omega
        · exact ho
      have hl' : lookup (arr.block (decompose x.addr).index) (decompose x.addr).tag ≠ some v := by
        intro e
        exact hvu (by simp [accessWay, e])
      have := hx k hk v ho' hl'
      rw [byteAccess_age ageW x arr m hr]
      simp only [List.length_cons] at this
      simp only [touchedAge, hvu, ho', if_false, if_true]
      omega
    · rw [byteAccess_block_ne x arr m hi] at ho hl ⊢
      have := h k hk y hy' v ho hl
      simp only [List.length_cons] at this
      omega

/-! ### Coherence (R47) -/

/-- The true content after one sub-access. -/
def contentStep (C : Addr → Byte) (x : SubAccess) : Addr → Byte := fun y =>
  if y = x.addr then x.write.getD (C y) else C y

theorem contentStep_of_read (C : Addr → Byte) {x : SubAccess} (h : x.write = none) : contentStep C x = C := by
  funext y
  simp [contentStep, h]

theorem contentStep_of_ne (C : Addr → Byte) {x : SubAccess} {y : Addr} (h : y ≠ x.addr) : contentStep C x y = C y := by
  simp [contentStep, h]

/-- An array stays coherent when `MEM` changes only to the true content. -/
theorem CoherentArray.of_mem {C : Addr → Byte} {arr : CacheArray ρ} {m m' : Memory} (h : CoherentArray C arr m)
    (hm : ∀ y : Addr, m'.read y.toNat = m.read y.toNat ∨ m'.read y.toNat = C y) : CoherentArray C arr m' where
  payload := h.payload
  clean a ha := by
    rcases hm a with e | e
    · rw [e]; exact h.clean a ha
    · exact e

/-- One sub-access keeps an array coherent, returns the true byte, and changes `MEM` only to the true content of lines
that are not its own (R47, R80 to R84). -/
theorem byteAccess_coherent (hp : TouchOnly pol) (hv : VictimOccupied pol) {C : Addr → Byte} {arr : CacheArray ρ}
    {m : Memory} (x : SubAccess) (hwf : m.wf = true)
    (hb : ∀ k : Index, (arr.block k).occ ≤ 4 ∧ (arr.block k).tagsDistinct) (hc : CoherentArray C arr m)
    (hr : (byteAccess pol x arr m).raised = false) :
    CoherentArray (contentStep C x) (byteAccess pol x arr m).arr (byteAccess pol x arr m).mem ∧
      (byteAccess pol x arr m).byte = contentStep C x x.addr ∧
      ∀ y : Addr, (byteAccess pol x arr m).mem.read y.toNat = m.read y.toNat ∨
        ((decompose y).index = (decompose x.addr).index ∧ (decompose y).tag ≠ (decompose x.addr).tag ∧
          (byteAccess pol x arr m).mem.read y.toNat = C y) := by
  have hblock := byteAccess_block hp x arr m hr
  have hself := byteAccess_lookup_self hp hv x arr m hr
  have hsame : ∀ {a : Addr}, (decompose a).index = (decompose x.addr).index →
      (decompose a).tag = (decompose x.addr).tag → (decompose a).offset = (decompose x.addr).offset → a = x.addr := by
    intro a h1 h2 h3
    apply decompose_inj
    cases ha : decompose a
    cases hx : decompose x.addr
    simp_all
  cases hl : lookup (arr.block (decompose x.addr).index) (decompose x.addr).tag with
  | some w =>
    have hlk := fun k t => byteAccess_lookup_of_hit hp x arr m hl k t
    have hmem : (byteAccess pol x arr m).mem = m := by rw [byteAccess_mem, hl]; rfl
    simp only [hl] at hblock
    have hwt := (lookup_eq_some.mp hl).1.2
    refine ⟨⟨fun a u hu => ?_, fun a ha => ?_⟩, ?_, fun y => .inl (by rw [hmem])⟩
    · rw [hlk] at hu
      have hold := hc.payload a u hu
      by_cases hi : (decompose a).index = (decompose x.addr).index
      · rw [hi] at hu hold ⊢
        rw [hblock]
        have hut := (lookup_eq_some.mp hu).1.2
        simp only [Block.byteAt, hitBlock_line hp] at hold ⊢
        by_cases huw : u = w
        · subst huw
          simp only [if_true]
          rw [withByte_get, hold]
          by_cases ho : (decompose a).offset = (decompose x.addr).offset
          · have := hsame hi (hut.symm.trans hwt) ho
            simp [contentStep, this]
          · have : a ≠ x.addr := fun e => ho (by rw [e])
            simp [ho, contentStep_of_ne _ this]
        · have : a ≠ x.addr := by
            rintro rfl
            rw [hl] at hu
            exact huw (Option.some.inj hu).symm
          simp only [huw, if_false]
          rw [hold, contentStep_of_ne _ this]
      · rw [byteAccess_block_ne x arr m hi, hold, contentStep_of_ne _ (fun e => hi (by rw [e]))]
    · rw [hmem]
      simp only [residentDirty, hlk] at ha
      by_cases hi : (decompose a).index = (decompose x.addr).index
      · rw [hi, hblock] at ha
        cases hu : lookup (arr.block (decompose x.addr).index) (decompose a).tag with
        | none =>
          have hne : a ≠ x.addr := by
            rintro rfl
            rw [hl] at hu
            cases hu
          rw [contentStep_of_ne _ hne]
          exact hc.clean a (by simp only [residentDirty, hi, hu])
        | some u =>
          simp only [hu, hitBlock_line hp] at ha
          have hd : ((arr.block (decompose x.addr).index).line u).dirty = false := by
            by_cases huw : u = w
            · simp only [huw, if_true, Bool.or_eq_false_iff] at ha ⊢
              exact ha.1
            · simpa only [huw, if_false] using ha
          have hclean := hc.clean a (by simp only [residentDirty, hi, hu, hd])
          by_cases hne : a = x.addr
          · subst hne
            rw [hl] at hu
            cases hu
            simp only [if_true, Bool.or_eq_false_iff] at ha
            rw [contentStep_of_read C (by simpa using ha.2)]
            exact hclean
          · rw [contentStep_of_ne _ hne]
            exact hclean
      · rw [byteAccess_block_ne x arr m hi] at ha
        rw [contentStep_of_ne _ (fun e => hi (by rw [e]))]
        exact hc.clean a (by simpa only [residentDirty] using ha)
    · have hraise : (pol.touch (arr.block (decompose x.addr).index) w).raised = false := by
        rw [byteAccess_raised, hl] at hr; exact hr
      rw [byteAccess_hit hl, hitAccess_eq _ _ _ _ hraise]
      show (hitBlock pol x _ w).byteAt w _ = _
      rw [hitBlock_byteAt hp, hc.payload x.addr w hl]
      simp [contentStep]
  | none =>
    have hmem : (byteAccess pol x arr m).mem = memAfterEvict pol x arr m := by rw [byteAccess_mem, hl]; rfl
    have hnone := lookup_eq_none.mp hl
    simp only [hl] at hblock
    have hread := fun y => read_evict hwf (arr.block (decompose x.addr).index) (decompose x.addr).index
      (missWay pol (arr.block (decompose x.addr).index)) y
    have hself' : accessWay pol (arr.block (decompose x.addr).index) (decompose x.addr).tag =
        missWay pol (arr.block (decompose x.addr).index) := by simp [accessWay, hl]
    rw [hself'] at hself
    change ∀ y : Addr, (memAfterEvict pol x arr m).read y.toNat = _ at hread
    -- the victim of a full block is occupied, so it does not have the tag looked up
    have hvic : ¬(arr.block (decompose x.addr).index).occ < 4 →
        (arr.block (decompose x.addr).index).occupied (missWay pol (arr.block (decompose x.addr).index)) = true := by
      intro h4
      rw [missWay_full h4]
      exact hv _ (by omega)
    -- what `MEM` holds in the line of the access
    have hown : ∀ y : Addr, (decompose y).tag = (decompose x.addr).tag →
        (decompose y).index = (decompose x.addr).index →
        (memAfterEvict pol x arr m).read y.toNat = C y := by
      intro y h1 h2
      rw [hread y, if_neg]
      · exact hc.clean y (by simp only [residentDirty, h2, h1, hl])
      · rintro ⟨h4, -, ht, -⟩
        exact hnone _ ⟨hvic h4, ht.symm.trans h1⟩
    -- what `MEM` holds elsewhere
    have hother : ∀ y : Addr, (memAfterEvict pol x arr m).read y.toNat = m.read y.toNat ∨
        ((decompose y).index = (decompose x.addr).index ∧ (decompose y).tag ≠ (decompose x.addr).tag ∧
          (memAfterEvict pol x arr m).read y.toNat = C y) := by
      intro y
      rw [hread y]
      split
      · rename_i h
        obtain ⟨h4, hd, ht, hi⟩ := h
        have hlk := lookup_of_distinct (hb (decompose x.addr).index).2 (hvic h4) ht.symm
        refine .inr ⟨hi, fun e => hnone _ ⟨hvic h4, ht.symm.trans e⟩, ?_⟩
        have := hc.payload y _ (by rw [hi]; exact hlk)
        rw [hi] at this
        exact this
      · exact .inl rfl
    have hocc := byteAccess_occ hp x arr m
    simp only [hl, hr, true_and] at hocc
    have htag := byteAccess_tag hp x arr m
    simp only [hl, true_and] at htag
    -- ways other than the one taken that are occupied afterwards were occupied before
    have hold : ∀ u, u ≠ missWay pol (arr.block (decompose x.addr).index) →
        (((byteAccess pol x arr m).arr.block (decompose x.addr).index).occupied u = true ↔
          (arr.block (decompose x.addr).index).occupied u = true) := by
      intro u hne
      rw [hblock, missBlock_occupied x (hb _).1]
      simp [hne]
    refine ⟨⟨fun a u hu => ?_, fun a ha => ?_⟩, ?_, fun y => by rw [hmem]; exact hother y⟩
    · by_cases hi : (decompose a).index = (decompose x.addr).index
      swap
      · rw [byteAccess_block_ne x arr m hi] at hu ⊢
        rw [hc.payload a u hu, contentStep_of_ne _ (fun e => hi (by rw [e]))]
      rw [hi] at hu ⊢
      by_cases ht : (decompose a).tag = (decompose x.addr).tag
      · rw [ht, hself] at hu
        cases hu
        rw [hblock]
        simp only [Block.byteAt, missBlock_line hp, if_true]
        rw [withByte_get, memRead_get _ _ _ (decompose a).offset.isLt]
        have hlb : (lineBase x.addr).toNat + (decompose a).offset.toNat = a.toNat := by
          have h1 : lineBase x.addr = lineBase a := by
            rw [← reconstruct_decompose, ← reconstruct_decompose, ht, hi]
          have h2 := sub_lineBase a
          have h3 : (lineBase a).toNat ≤ a.toNat := by simp; omega
          rw [h1]
          omega
        rw [hlb, hown a ht hi]
        by_cases ho : (decompose a).offset = (decompose x.addr).offset
        · simp [contentStep, hsame hi ht ho]
        · rw [if_neg ho, contentStep_of_ne _ (fun e => ho (by rw [e]))]
      · obtain ⟨⟨ho, hut⟩, -⟩ := lookup_eq_some.mp hu
        have hne : u ≠ missWay pol (arr.block (decompose x.addr).index) := by
          intro e
          rw [htag, if_pos e] at hut
          exact ht hut.symm
        rw [htag, if_neg hne] at hut
        rw [hold u hne] at ho
        have := hc.payload a u (by rw [hi]; exact lookup_of_distinct (hb _).2 ho hut)
        rw [hi] at this
        rw [hblock, contentStep_of_ne _ (fun e => ht (by rw [e]))]
        simp only [Block.byteAt, missBlock_line hp, hne, if_false]
        exact this
    · rw [hmem]
      simp only [residentDirty] at ha
      by_cases hi : (decompose a).index = (decompose x.addr).index
      swap
      · rw [byteAccess_block_ne x arr m hi] at ha
        rw [hread a, if_neg (fun h => hi h.2.2.2), contentStep_of_ne _ (fun e => hi (by rw [e]))]
        exact hc.clean a (by simpa only [residentDirty] using ha)
      rw [hi] at ha
      by_cases ht : (decompose a).tag = (decompose x.addr).tag
      · rw [ht, hself] at ha
        simp only at ha
        rw [hblock] at ha
        simp only [missBlock_line hp, if_true] at ha
        rw [contentStep_of_read C (by simpa using ha)]
        exact hown a ht hi
      · rw [contentStep_of_ne _ (fun e => ht (by rw [e]))]
        rcases hother a with e | e
        swap
        · exact e.2.2
        by_cases hev : ¬(arr.block (decompose x.addr).index).occ < 4 ∧
            (decompose a).tag = ((arr.block (decompose x.addr).index).line
              (missWay pol (arr.block (decompose x.addr).index))).tag
        · -- the line of `a` was evicted
          have hlk := lookup_of_distinct (hb (decompose x.addr).index).2 (hvic hev.1) hev.2.symm
          have hp := hc.payload a _ (by rw [hi]; exact hlk)
          rw [hi] at hp
          cases hd : ((arr.block (decompose x.addr).index).line
              (missWay pol (arr.block (decompose x.addr).index))).dirty with
          | true => rw [hread a, if_pos ⟨hev.1, hd, hev.2, hi⟩]; exact hp
          | false =>
            rw [hread a, if_neg (by simp [hd])]
            exact hc.clean a (by simp only [residentDirty, hi, hlk, hd])
        · -- the line of `a` was not evicted
          rw [e]
          apply hc.clean a
          simp only [residentDirty, hi]
          cases hu : lookup (arr.block (decompose x.addr).index) (decompose a).tag with
          | none => rfl
          | some u =>
            obtain ⟨⟨ho, hut⟩, -⟩ := lookup_eq_some.mp hu
            have hne : u ≠ missWay pol (arr.block (decompose x.addr).index) := by
              rintro rfl
              refine hev ⟨fun h4 => ?_, hut.symm⟩
              have := missWay_val (pol := pol) h4
              rw [occupied_iff] at ho
              omega
            have hd : (byteAccess pol x arr m).arr.block (decompose x.addr).index |>.tagsDistinct :=
              (byteAccess_keeps_tags hp x arr m _ (hb _)).2
            have hlk := lookup_of_distinct hd ((hold u hne).mpr ho) ((htag u).trans ((if_neg hne).trans hut))
            rw [hlk] at ha
            simp only at ha
            rw [hblock] at ha
            simpa only [missBlock_line hp, hne, if_false] using ha
    · have hraise := hr
      rw [byteAccess_raised, hl] at hraise
      rw [byteAccess_miss hl, missAccess_eq hp _ _ _ hraise]
      show (missBlock pol x _ _).byteAt _ _ = _
      rw [missBlock_byteAt hp, hown x.addr rfl rfl]
      simp [contentStep]

/-- An event that raises nothing keeps an array coherent; a READ returns the true bytes; `MEM` changes only to the true
content of lines outside the event (R47). -/
theorem drive_coherent (hp : TouchOnly pol) (hv : VictimOccupied pol) (xs ys : List SubAccess)
    (hsub : ∀ x ∈ xs, x ∈ ys) (hone : OneLinePerSet ys) {C : Addr → Byte} {arr : CacheArray ρ} {m : Memory}
    (hwf : m.wf = true) (hb : ∀ k : Index, (arr.block k).occ ≤ 4 ∧ (arr.block k).tagsDistinct)
    (hc : CoherentArray C arr m) (hr : (drive pol xs arr m).raised = false) :
    CoherentArray (xs.foldl contentStep C) (drive pol xs arr m).arr (drive pol xs arr m).mem ∧
      (∀ y : Addr, (drive pol xs arr m).mem.read y.toNat = m.read y.toNat ∨
        ((∀ x ∈ ys, ¬onLine y x) ∧ (drive pol xs arr m).mem.read y.toNat = C y)) ∧
      ((∀ x ∈ xs, x.write = none) → (drive pol xs arr m).bytes = xs.map fun x => C x.addr) := by
  induction xs generalizing C arr m with
  | nil => exact ⟨hc, fun y => .inl rfl, fun _ => rfl⟩
  | cons x xs ih =>
    have hxy := hsub x (List.mem_cons_self ..)
    cases hx : (byteAccess pol x arr m).raised with
    | true => rw [drive_cons_raised x xs arr m hx] at hr; exact absurd hr (by simp)
    | false =>
      rw [drive_cons x xs arr m hx] at hr ⊢
      obtain ⟨c1, c2, c3⟩ := byteAccess_coherent hp hv x hwf hb hc hx
      obtain ⟨d1, d2, d3⟩ := ih (fun z hz => hsub z (List.mem_cons_of_mem _ hz)) (byteAccess_wf x arr hwf)
        (fun k => byteAccess_keeps_tags hp x arr m k (hb k)) c1 hr
      refine ⟨d1, fun y => ?_, fun hw => ?_⟩
      · rcases d2 y with e | ⟨hn, e⟩
        · rcases c3 y with e' | ⟨hi, ht, e'⟩
          · exact .inl (e.trans e')
          · refine .inr ⟨fun z hz hon => ?_, e.trans e'⟩
            have := hone x hxy z hz (hi.symm.trans hon.1)
            exact ht (hon.2.trans this.symm)
        · refine .inr ⟨hn, e.trans (contentStep_of_ne C ?_)⟩
          rintro rfl
          exact hn x hxy ⟨rfl, rfl⟩
      · have hwx := hw x (List.mem_cons_self ..)
        have h3 := d3 fun z hz => hw z (List.mem_cons_of_mem _ hz)
        rw [contentStep_of_read C hwx] at h3 c2
        simp only [List.map_cons]
        rw [h3, c2]

/-- An event changes the content of no byte but its own. -/
theorem foldl_contentStep_of_ne (xs : List SubAccess) (C : Addr → Byte) {y : Addr} (h : ∀ x ∈ xs, y ≠ x.addr) :
    xs.foldl contentStep C y = C y := by
  induction xs generalizing C with
  | nil => rfl
  | cons x xs ih =>
    rw [List.foldl_cons, ih _ fun z hz => h z (List.mem_cons_of_mem _ hz),
      contentStep_of_ne _ (h x (List.mem_cons_self ..))]

/-- The content after a READ is the content before it. -/
theorem foldl_contentStep_read (C : Addr → Byte) (a : Addr) (n : Nat) :
    (subAccesses a n none).foldl contentStep C = C := by
  have : ∀ xs : List SubAccess, (∀ x ∈ xs, x.write = none) → xs.foldl contentStep C = C := by
    intro xs
    induction xs with
    | nil => intro _; rfl
    | cons x xs ih =>
      intro h
      rw [List.foldl_cons, contentStep_of_read C (h x (List.mem_cons_self ..))]
      exact ih fun y hy => h y (List.mem_cons_of_mem _ hy)
  refine this _ fun x hx => ?_
  obtain ⟨i, -, rfl⟩ := mem_subAccesses.mp hx
  rfl

/-- The content after a WRITE (R41). -/
theorem foldl_contentStep_write (C : Addr → Byte) (a : Addr) (n : Nat) (d : Data) (h : a.toNat + n ≤ 262144) :
    (subAccesses a n (some d)).foldl contentStep C = contentAfterWrite C a n d := by
  induction n with
  | zero =>
    funext x
    simp only [subAccesses, List.range_zero, List.map_nil, List.foldl_nil, contentAfterWrite]
    rw [if_neg (by omega)]
  | succ n ih =>
    have ih := ih (by omega)
    simp only [subAccesses] at ih ⊢
    rw [List.range_succ, List.map_append, List.foldl_append, ih]
    have hb := byteAddr_toNat (a := a) (i := n) (by omega)
    funext x
    simp only [List.map_cons, List.map_nil, List.foldl_cons, List.foldl_nil, contentStep, contentAfterWrite,
      Option.map_some, Option.getD_some]
    by_cases hx : x = byteAddr a n
    · subst hx
      rw [if_pos rfl, if_pos (by omega)]
      congr 1
      omega
    · have : x.toNat ≠ a.toNat + n := fun e => hx (BitVec.eq_of_toNat_eq (by omega))
      rw [if_neg hx]
      by_cases hc : a.toNat ≤ x.toNat ∧ x.toNat < a.toNat + n
      · rw [if_pos hc, if_pos (by omega)]
      · rw [if_neg hc, if_neg (by omega)]

end Sys2Proof.Machine
end

