-- ==== Sys2Proof/Laws/State.lean ====
section
/-! SUPPORT. One lemma per field per named update of the state, so that no proof unfolds a record update. -/

namespace Sys2Proof.Machine

variable (s : State) (r : Response) (c : Cause) (i : Word)

@[simp] theorem respond_params : (s.respond r).params = s.params := rfl
@[simp] theorem respond_lru : (s.respond r).lru = s.lru := rfl
@[simp] theorem respond_plru : (s.respond r).plru = s.plru := rfl
@[simp] theorem respond_mem : (s.respond r).mem = s.mem := rfl
@[simp] theorem respond_mode : (s.respond r).mode = s.mode := rfl
@[simp] theorem respond_requests : (s.respond r).requests = s.requests := rfl
@[simp] theorem respond_hitsLru : (s.respond r).hitsLru = s.hitsLru := rfl
@[simp] theorem respond_hitsPlru : (s.respond r).hitsPlru = s.hitsPlru := rfl
@[simp] theorem respond_phase : (s.respond r).phase = s.phase := rfl
@[simp] theorem respond_cause : (s.respond r).cause = s.cause := rfl
@[simp] theorem respond_info : (s.respond r).info = s.info := rfl
@[simp] theorem respond_started : (s.respond r).started = s.started := rfl
@[simp] theorem respond_inputs : (s.respond r).inputs = s.inputs := rfl
@[simp] theorem respond_responses : (s.respond r).responses = s.responses ++ [r] := rfl

@[simp] theorem countRequest_params : s.countRequest.params = s.params := rfl
@[simp] theorem countRequest_lru : s.countRequest.lru = s.lru := rfl
@[simp] theorem countRequest_plru : s.countRequest.plru = s.plru := rfl
@[simp] theorem countRequest_mem : s.countRequest.mem = s.mem := rfl
@[simp] theorem countRequest_mode : s.countRequest.mode = s.mode := rfl
@[simp] theorem countRequest_requests : s.countRequest.requests = s.requests + 1 := rfl
@[simp] theorem countRequest_hitsLru : s.countRequest.hitsLru = s.hitsLru := rfl
@[simp] theorem countRequest_hitsPlru : s.countRequest.hitsPlru = s.hitsPlru := rfl
@[simp] theorem countRequest_phase : s.countRequest.phase = s.phase := rfl
@[simp] theorem countRequest_cause : s.countRequest.cause = s.cause := rfl
@[simp] theorem countRequest_info : s.countRequest.info = s.info := rfl
@[simp] theorem countRequest_started : s.countRequest.started = s.started := rfl
@[simp] theorem countRequest_inputs : s.countRequest.inputs = s.inputs := rfl
@[simp] theorem countRequest_responses : s.countRequest.responses = s.responses := rfl

@[simp] theorem accept_params : s.accept.params = s.params := rfl
@[simp] theorem accept_lru : s.accept.lru = s.lru := rfl
@[simp] theorem accept_plru : s.accept.plru = s.plru := rfl
@[simp] theorem accept_mem : s.accept.mem = s.mem := rfl
@[simp] theorem accept_mode : s.accept.mode = s.mode := rfl
@[simp] theorem accept_requests : s.accept.requests = s.requests := rfl
@[simp] theorem accept_hitsLru : s.accept.hitsLru = s.hitsLru := rfl
@[simp] theorem accept_hitsPlru : s.accept.hitsPlru = s.hitsPlru := rfl
@[simp] theorem accept_phase : s.accept.phase = s.phase := rfl
@[simp] theorem accept_cause : s.accept.cause = s.cause := rfl
@[simp] theorem accept_info : s.accept.info = s.info := rfl
@[simp] theorem accept_started : s.accept.started = true := rfl
@[simp] theorem accept_inputs : s.accept.inputs = s.inputs.tail := rfl
@[simp] theorem accept_responses : s.accept.responses = s.responses := rfl

@[simp] theorem popInput_params : s.popInput.params = s.params := rfl
@[simp] theorem popInput_lru : s.popInput.lru = s.lru := rfl
@[simp] theorem popInput_plru : s.popInput.plru = s.plru := rfl
@[simp] theorem popInput_mem : s.popInput.mem = s.mem := rfl
@[simp] theorem popInput_mode : s.popInput.mode = s.mode := rfl
@[simp] theorem popInput_requests : s.popInput.requests = s.requests := rfl
@[simp] theorem popInput_hitsLru : s.popInput.hitsLru = s.hitsLru := rfl
@[simp] theorem popInput_hitsPlru : s.popInput.hitsPlru = s.hitsPlru := rfl
@[simp] theorem popInput_phase : s.popInput.phase = s.phase := rfl
@[simp] theorem popInput_cause : s.popInput.cause = s.cause := rfl
@[simp] theorem popInput_info : s.popInput.info = s.info := rfl
@[simp] theorem popInput_started : s.popInput.started = s.started := rfl
@[simp] theorem popInput_inputs : s.popInput.inputs = s.inputs.tail := rfl
@[simp] theorem popInput_responses : s.popInput.responses = s.responses := rfl

variable (m : Mode)

@[simp] theorem cleared_params : (s.cleared m).params = s.params := rfl
@[simp] theorem cleared_lru : (s.cleared m).lru = CacheArray.atReset 0 := rfl
@[simp] theorem cleared_plru : (s.cleared m).plru = CacheArray.atReset false := rfl
@[simp] theorem cleared_mem : (s.cleared m).mem = s.mem := rfl
@[simp] theorem cleared_mode : (s.cleared m).mode = m := rfl
@[simp] theorem cleared_requests : (s.cleared m).requests = 0 := rfl
@[simp] theorem cleared_hitsLru : (s.cleared m).hitsLru = 0 := rfl
@[simp] theorem cleared_hitsPlru : (s.cleared m).hitsPlru = 0 := rfl
@[simp] theorem cleared_phase : (s.cleared m).phase = .run := rfl
@[simp] theorem cleared_cause : (s.cleared m).cause = .none := rfl
@[simp] theorem cleared_info : (s.cleared m).info = 0 := rfl
@[simp] theorem cleared_started : (s.cleared m).started = false := rfl
@[simp] theorem cleared_inputs : (s.cleared m).inputs = s.inputs := rfl
@[simp] theorem cleared_responses : (s.cleared m).responses = s.responses := rfl

variable (a : Addr) (v : Byte)

@[simp] theorem load_params : (s.load a v).params = s.params := rfl
@[simp] theorem load_lru : (s.load a v).lru = s.lru := rfl
@[simp] theorem load_plru : (s.load a v).plru = s.plru := rfl
@[simp] theorem load_mem : (s.load a v).mem = s.mem.write a.toNat v := rfl
@[simp] theorem load_mode : (s.load a v).mode = s.mode := rfl
@[simp] theorem load_requests : (s.load a v).requests = s.requests := rfl
@[simp] theorem load_hitsLru : (s.load a v).hitsLru = s.hitsLru := rfl
@[simp] theorem load_hitsPlru : (s.load a v).hitsPlru = s.hitsPlru := rfl
@[simp] theorem load_phase : (s.load a v).phase = s.phase := rfl
@[simp] theorem load_cause : (s.load a v).cause = s.cause := rfl
@[simp] theorem load_info : (s.load a v).info = s.info := rfl
@[simp] theorem load_started : (s.load a v).started = s.started := rfl
@[simp] theorem load_inputs : (s.load a v).inputs = s.inputs := rfl
@[simp] theorem load_responses : (s.load a v).responses = s.responses := rfl

/-- Taking a fault in a phase other than ERROR: everything it can do, once (R137). -/
theorem raiseFault_eq (h : s.phase ≠ .error) : raiseFault c i s = faulted s c i := by
  simp [raiseFault, State.enterFault, h, faulted, faultResponse, State.respond]

/-- Taking a fault in phase ERROR only answers (R137, R141). -/
theorem raiseFault_of_error (h : s.phase = .error) : raiseFault c i s = answerInError s := by
  simp [raiseFault, State.enterFault, h, answerInError]

/-- Everything the release of reset can do (R130, R148): the geometry is legal, so only the mode can be refused. -/
theorem resetRelease_eq (b : BitVec 2) :
    resetRelease b s =
      if Mode.ofCode b = .unrecognised then { s.cleared .unrecognised with phase := .error, cause := .configError }
      else s.cleared (Mode.ofCode b) := by
  have hg : Config.geometry.legal = true := by decide
  by_cases h : Mode.ofCode b = .unrecognised <;> simp [resetRelease, hg, h]

end Sys2Proof.Machine
end

