-- ==== Sys2Proof/Laws/Handle.lean ====
section
/-! SUPPORT. What Handle can do, once (44_engine_commands.md R109): one lemma per way through its admission checks, the
fields each policy's turn leaves, and the step as a function of the host's next move. -/

namespace Sys2Proof.Machine

/-! ### The six access commands are Handle -/

theorem exec_of_access {i : Instr} {a : Addr} {n : Nat} {value : Option Data}
    (h : accessOf i = some (a, n, value)) (s : State) : exec i s = .next (handle (encode i) a n value s) := by
  cases i <;> simp only [accessOf, Option.some.injEq, Prod.mk.injEq, reduceCtorEq] at h <;>
    (obtain ⟨rfl, rfl, rfl⟩ := h; rfl)

theorem accessOf_size {i : Instr} {a : Addr} {n : Nat} {value : Option Data} (h : accessOf i = some (a, n, value)) :
    n = 1 ∨ n = 2 ∨ n = 4 := by
  cases i <;> simp only [accessOf, Option.some.injEq, Prod.mk.injEq, reduceCtorEq] at h <;>
    (obtain ⟨rfl, rfl, rfl⟩ := h; simp)

/-! ### The admission checks (R109, R139) -/

variable {cw : Word} {a : Addr} {n : Nat} {value : Option Data} {s : State}

theorem handle_of_error (h : s.phase = .error) : handle cw a n value s = answerInError s := by
  simp [handle, h]

theorem handle_of_done (h : s.phase = .done) : handle cw a n value s = faulted s .protocol cw := by
  rw [← raiseFault_eq s _ _ (by simp [h])]
  simp [handle, h]

theorem handle_of_range (h : s.phase = .run) (hr : ¬a.toNat + n ≤ 262144) :
    handle cw a n value s = faulted s .addressRange cw := by
  rw [← raiseFault_eq s _ _ (by simp [h])]
  have : inRange a n = false := by rw [Bool.eq_false_iff, ne_eq, inRange_iff]; exact hr
  simp [handle, h, this]

theorem handle_of_counter (h : s.phase = .run) (hr : a.toNat + n ≤ 262144)
    (hc : atLimit s.params.cntW s.requests = true) : handle cw a n value s = faulted s .counterOverflow cw := by
  rw [← raiseFault_eq s _ _ (by simp [h])]
  have := (inRange_iff a n).mpr hr
  simp [handle, h, this, hc]

theorem handle_of_passed (h : s.phase = .run) (hr : a.toNat + n ≤ 262144)
    (hc : atLimit s.params.cntW s.requests = false) : handle cw a n value s = perform cw a n value s := by
  have := (inRange_iff a n).mpr hr
  simp [handle, h, this, hc]

theorem Admitted.notAtLimit (h : Admitted s a n) : atLimit s.params.cntW s.requests = false := by
  rw [Bool.eq_false_iff, ne_eq, atLimit_iff]
  rintro ⟨w, hw, e⟩
  exact h.counterRoom w hw e

theorem handle_of_admitted (h : Admitted s a n) : handle cw a n value s = perform cw a n value s :=
  handle_of_passed h.running h.inMem h.notAtLimit

/-- What Handle can do in phase RUN: a fault at admission, or the execution. -/
theorem handle_cases (h : s.phase = .run) :
    handle cw a n value s = faulted s .addressRange cw ∨ handle cw a n value s = faulted s .counterOverflow cw ∨
      (a.toNat + n ≤ 262144 ∧ atLimit s.params.cntW s.requests = false ∧
        handle cw a n value s = perform cw a n value s) := by
  by_cases hr : a.toNat + n ≤ 262144
  · cases hc : atLimit s.params.cntW s.requests with
    | true => exact .inr (.inl (handle_of_counter h hr hc))
    | false => exact .inr (.inr ⟨hr, rfl, handle_of_passed h hr hc⟩)
  · exact .inl (handle_of_range h hr)

/-! ### The two policies' turns -/

variable (xs : List SubAccess) (s : State)

@[simp] theorem runLru_params : (runLru xs s).state.params = s.params := by unfold runLru; split <;> rfl
@[simp] theorem runLru_plru : (runLru xs s).state.plru = s.plru := by unfold runLru; split <;> rfl
@[simp] theorem runLru_mode : (runLru xs s).state.mode = s.mode := by unfold runLru; split <;> rfl
@[simp] theorem runLru_requests : (runLru xs s).state.requests = s.requests := by unfold runLru; split <;> rfl
@[simp] theorem runLru_hitsLru : (runLru xs s).state.hitsLru = s.hitsLru + (runLru xs s).hit.toNat := by
  unfold runLru; split <;> rfl
@[simp] theorem runLru_hitsPlru : (runLru xs s).state.hitsPlru = s.hitsPlru := by unfold runLru; split <;> rfl
@[simp] theorem runLru_phase : (runLru xs s).state.phase = s.phase := by unfold runLru; split <;> rfl
@[simp] theorem runLru_cause : (runLru xs s).state.cause = s.cause := by unfold runLru; split <;> rfl
@[simp] theorem runLru_info : (runLru xs s).state.info = s.info := by unfold runLru; split <;> rfl
@[simp] theorem runLru_started : (runLru xs s).state.started = s.started := by unfold runLru; split <;> rfl
@[simp] theorem runLru_inputs : (runLru xs s).state.inputs = s.inputs := by unfold runLru; split <;> rfl
@[simp] theorem runLru_responses : (runLru xs s).state.responses = s.responses := by unfold runLru; split <;> rfl

@[simp] theorem runPlru_params : (runPlru xs s).state.params = s.params := by unfold runPlru; split <;> rfl
@[simp] theorem runPlru_lru : (runPlru xs s).state.lru = s.lru := by unfold runPlru; split <;> rfl
@[simp] theorem runPlru_mode : (runPlru xs s).state.mode = s.mode := by unfold runPlru; split <;> rfl
@[simp] theorem runPlru_requests : (runPlru xs s).state.requests = s.requests := by unfold runPlru; split <;> rfl
@[simp] theorem runPlru_hitsLru : (runPlru xs s).state.hitsLru = s.hitsLru := by unfold runPlru; split <;> rfl
@[simp] theorem runPlru_hitsPlru : (runPlru xs s).state.hitsPlru = s.hitsPlru + (runPlru xs s).hit.toNat := by
  unfold runPlru; split <;> rfl
@[simp] theorem runPlru_phase : (runPlru xs s).state.phase = s.phase := by unfold runPlru; split <;> rfl
@[simp] theorem runPlru_cause : (runPlru xs s).state.cause = s.cause := by unfold runPlru; split <;> rfl
@[simp] theorem runPlru_info : (runPlru xs s).state.info = s.info := by unfold runPlru; split <;> rfl
@[simp] theorem runPlru_started : (runPlru xs s).state.started = s.started := by unfold runPlru; split <;> rfl
@[simp] theorem runPlru_inputs : (runPlru xs s).state.inputs = s.inputs := by unfold runPlru; split <;> rfl
@[simp] theorem runPlru_responses : (runPlru xs s).state.responses = s.responses := by unfold runPlru; split <;> rfl

/-- A turn that is cut short counts no hit (R109, R137). -/
theorem runLru_hit_of_raised (h : (runLru xs s).raised = true) : (runLru xs s).hit = false := by
  unfold runLru at h ⊢
  split
  · rename_i he
    simp only [he, if_true] at h
    exact drive_hit_of_raised _ _ _ h
  · rfl

theorem runLru_wf {s : State} (h : s.mem.wf = true) : (runLru xs s).state.mem.wf = true := by
  unfold runLru; split
  · exact drive_wf _ _ h
  · exact h

theorem runPlru_wf {s : State} (h : s.mem.wf = true) : (runPlru xs s).state.mem.wf = true := by
  unfold runPlru; split
  · exact drive_wf _ _ h
  · exact h

/-! ### The execution (R109) -/

/-- The states after each policy's turn, as `perform` takes them. -/
abbrev afterLru (a : Addr) (n : Nat) (value : Option Data) (s : State) : Ran :=
  runLru (subAccesses a n value) s.countRequest

abbrev afterPlru (a : Addr) (n : Nat) (value : Option Data) (s : State) : Ran :=
  runPlru (subAccesses a n value) (afterLru a n value s).state

section Turns

variable {s : State} (a : Addr) (n : Nat) (value : Option Data)

/-- The drive of `ARR[LRU]` by an event, and of `ARR[PLRU]` after it (R46). -/
abbrev lruDrive (a : Addr) (n : Nat) (value : Option Data) (s : State) : Driven Nat :=
  drive (lruOps s.params.ageW) (subAccesses a n value) s.lru s.mem

abbrev plruDrive (a : Addr) (n : Nat) (value : Option Data) (s : State) : Driven Bool :=
  drive plruOps (subAccesses a n value) s.plru (afterLru a n value s).state.mem

theorem afterLru_on (h : enabled s.mode .lru = true) :
    (afterLru a n value s).state.lru = (lruDrive a n value s).arr ∧
      (afterLru a n value s).state.mem = (lruDrive a n value s).mem ∧
      (afterLru a n value s).hit = (lruDrive a n value s).hit ∧
      (afterLru a n value s).bytes = (lruDrive a n value s).bytes ∧
      (afterLru a n value s).raised = (lruDrive a n value s).raised := by
  simp [afterLru, runLru, h]

theorem afterLru_off (h : enabled s.mode .lru = false) :
    (afterLru a n value s).state.lru = s.lru ∧ (afterLru a n value s).state.mem = s.mem ∧
      (afterLru a n value s).hit = false ∧ (afterLru a n value s).bytes = [] ∧
      (afterLru a n value s).raised = false := by
  simp [afterLru, runLru, h]

theorem afterPlru_on (h : enabled s.mode .plru = true) :
    (afterPlru a n value s).state.plru = (plruDrive a n value s).arr ∧
      (afterPlru a n value s).state.mem = (plruDrive a n value s).mem ∧
      (afterPlru a n value s).hit = (plruDrive a n value s).hit ∧
      (afterPlru a n value s).bytes = (plruDrive a n value s).bytes := by
  simp [afterPlru, runPlru, h]

theorem afterPlru_off (h : enabled s.mode .plru = false) :
    (afterPlru a n value s).state.plru = s.plru ∧
      (afterPlru a n value s).state.mem = (afterLru a n value s).state.mem ∧
      (afterPlru a n value s).hit = false ∧ (afterPlru a n value s).bytes = [] := by
  simp [afterPlru, runPlru, h]

end Turns

theorem perform_raised {s : State} (h : (afterLru a n value s).raised = true) (hp : s.phase ≠ .error) :
    perform cw a n value s = faulted (afterLru a n value s).state .ageOverflow cw := by
  rw [← raiseFault_eq _ _ _ (by simpa using hp)]
  unfold perform
  exact if_pos h

theorem perform_done {s : State} (h : (afterLru a n value s).raised = false) :
    perform cw a n value s =
      (afterPlru a n value s).state.respond (.word (responseWord .none false s.phase (afterPlru a n value s).hit
        (afterLru a n value s).hit
        (accessData s.mode value (afterLru a n value s).bytes (afterPlru a n value s).bytes))) := by
  unfold perform
  simp only [h, Bool.false_eq_true, if_false]
  simp

/-- With room for the ages the LRU turn is not cut short (R97, R135). -/
theorem AgeRoom.not_raised {s : State} (h : AgeRoom s a n) (hr : a.toNat + n ≤ 262144) (hn : n ≤ 4) :
    (afterLru a n value s).raised = false := by
  cases he : enabled s.mode .lru with
  | false => exact (afterLru_off a n value he).2.2.2.2
  | true =>
    rw [(afterLru_on a n value he).2.2.2.2]
    refine drive_lru_not_raised _ _ (subAccesses_oneLine hr hn value) _ _ fun k hk x hx v ho _ => ?_
    obtain ⟨i, hi, rfl⟩ := mem_subAccesses.mp hx
    rw [subAccesses_length]
    exact h he k hk i hi v ho

/-- An event that raises nothing is its sub-accesses, each once and in ascending order (R109, R118). -/
theorem drive_subAccesses {ρ : Type} (pol : PolicyOps ρ) (a : Addr) (value : Option Data) (arr : CacheArray ρ)
    (m : Memory) (n : Nat) (h : (drive pol (subAccesses a n value) arr m).raised = false) :
    drive pol (subAccesses a n value) arr m =
      { arr := (afterBytes pol a value arr m n).1, mem := (afterBytes pol a value arr m n).2,
        hit := (List.range n).all fun k => (byteResult pol a value arr m k).hit,
        bytes := (List.range n).map fun k => (byteResult pol a value arr m k).byte, raised := false } := by
  induction n with
  | zero => simp [subAccesses, drive, afterBytes]
  | succ n ih =>
    have e : subAccesses a (n + 1) value = subAccesses a n value ++ [byteOf a value n] := by
      simp [subAccesses, List.range_succ, byteOf]
    rw [e] at h ⊢
    obtain ⟨h1, h2⟩ := drive_snoc _ _ _ _ h
    rw [h2, ih h1]
    simp [List.range_succ, afterBytes, byteResult]

/-- Assembling bytes is their little-endian sum (R41, R109). -/
theorem assemble_map_range (n : Nat) (b : Nat → Byte) : assemble ((List.range n).map b) = byteSum n b := by
  induction n generalizing b with
  | zero => rfl
  | succ n ih =>
    have h := ih fun k => b (k + 1)
    simp only [byteSum] at h ⊢
    rw [List.range_succ_eq_map]
    simp only [List.map_cons, List.map_map, assemble, List.sum_cons, Function.comp_def] at h ⊢
    rw [h, ← List.sum_map_mul_left]
    simp [pow_succ, Nat.mul_comm, Nat.mul_left_comm]

/-- Assembled bytes are below `256^n` (R127 (f)). -/
theorem assemble_lt (bs : List Byte) : assemble bs < 256 ^ bs.length := by
  induction bs with
  | nil => simp [assemble]
  | cons b bs ih =>
    have := b.isLt
    simp only [assemble, List.length_cons, pow_succ]
    omega

/-- The value of `RDATA` is the little-endian sum of its at most four bytes: zero-extension loses none (R60). -/
theorem toNat_readData_map {n : Nat} (h : n ≤ 4) (b : Nat → Byte) :
    (readData ((List.range n).map b)).toNat = byteSum n b := by
  have hlt : byteSum n b < 2 ^ 32 := by
    have := assemble_lt ((List.range n).map b)
    rw [assemble_map_range, List.length_map, List.length_range] at this
    exact this.trans_le ((Nat.pow_le_pow_right (by decide) h).trans (by norm_num))
  rw [readData, assemble_map_range, BitVec.toNat_ofNat, Nat.mod_eq_of_lt hlt]

/-! ### The step -/

theorem step_command {s : State} {rest : List HostInput} (h : s.inputs = .command cw :: rest) :
    step s = runCommand cw { s with inputs := rest, started := true } := by
  simp [step, h, State.accept]

theorem step_reset {s : State} {b : BitVec 2} {rest : List HostInput} (h : s.inputs = .reset b :: rest) :
    step s = .next (resetRelease b { s with inputs := rest }) := by
  simp [step, h, State.popInput]

/-- A run takes its first step and goes on from there. -/
theorem run_of_step {M : Host.Core} {s t : M.State} (h : M.step s = .next t) (k : Nat) : M.run (k + 1) s = M.run k t := by
  simp only [Host.Core.run, h]

/-- Every command answers a next state; `exec` never stops (R141). -/
theorem exec_next (i : Instr) (s : State) : ∃ t, exec i s = .next t := by
  cases i <;> exact ⟨_, rfl⟩

theorem runCommand_next (cw : Word) (s : State) : ∃ t, runCommand cw s = .next t := by
  unfold runCommand
  split
  · exact exec_next _ _
  · exact ⟨_, rfl⟩

end Sys2Proof.Machine
end

