-- ==== Sys2Proof/Laws/PerInstr.lean ====
section
/-! SUPPORT. Statements made per instruction: one family, the table row of each command (30_encoding.md R64). -/

namespace Sys2Proof.Laws

/-- The command word of the instruction matches its row of spec/opcode_table.json under the row's mask (R64), and names
its row's number of bytes. -/
def TableRow.Statement : Instr → Prop
  | .rd1 a d => encode (.rd1 a d) &&& 0xFFFC000000000000#64 = 0x0004000000000000#64 ∧ (Instr.rd1 a d).span = some (a, 1)
  | .rd2 a d => encode (.rd2 a d) &&& 0xFFFC000000000000#64 = 0x0008000000000000#64 ∧ (Instr.rd2 a d).span = some (a, 2)
  | .rd4 a d => encode (.rd4 a d) &&& 0xFFFC000000000000#64 = 0x0010000000000000#64 ∧ (Instr.rd4 a d).span = some (a, 4)
  | .wr1 a d => encode (.wr1 a d) &&& 0xFFFC000000000000#64 = 0x0024000000000000#64 ∧ (Instr.wr1 a d).span = some (a, 1)
  | .wr2 a d => encode (.wr2 a d) &&& 0xFFFC000000000000#64 = 0x0028000000000000#64 ∧ (Instr.wr2 a d).span = some (a, 2)
  | .wr4 a d => encode (.wr4 a d) &&& 0xFFFC000000000000#64 = 0x0030000000000000#64 ∧ (Instr.wr4 a d).span = some (a, 4)
  | .flush z a d =>
    encode (.flush z a d) &&& 0xFFE0000000000000#64 = 0x0040000000000000#64 ∧ (Instr.flush z a d).span = none
  | .report z a d =>
    encode (.report z a d) &&& 0xFFE0000000000000#64 = 0x0060000000000000#64 ∧ (Instr.report z a d).span = none

/-- The part of a packed word that the mask of the READ and WRITE rows keeps. -/
theorem packCommand_and_accessMask (o z : BitVec 3) (a : Addr) (d : Data) :
    packCommand 0#8 o z a d &&& 0xFFFC000000000000#64 = packCommand 0#8 o z 0#18 0#32 := by
  rw [and_accessMask]
  simp only [rsvOf_packCommand, opOf_packCommand, sizeOf_packCommand]

/-- The part of a packed word that the mask of the FLUSH and REPORT rows keeps. -/
theorem packCommand_and_plainMask (o z : BitVec 3) (a : Addr) (d : Data) :
    packCommand 0#8 o z a d &&& 0xFFE0000000000000#64 = packCommand 0#8 o 0#3 0#18 0#32 := by
  rw [and_plainMask]
  simp only [rsvOf_packCommand, opOf_packCommand]

theorem TableRow.rd1 (a : Addr) (d : Data) : TableRow.Statement (.rd1 a d) :=
  ⟨(packCommand_and_accessMask ..).trans (by decide), rfl⟩

theorem TableRow.rd2 (a : Addr) (d : Data) : TableRow.Statement (.rd2 a d) :=
  ⟨(packCommand_and_accessMask ..).trans (by decide), rfl⟩

theorem TableRow.rd4 (a : Addr) (d : Data) : TableRow.Statement (.rd4 a d) :=
  ⟨(packCommand_and_accessMask ..).trans (by decide), rfl⟩

theorem TableRow.wr1 (a : Addr) (d : Data) : TableRow.Statement (.wr1 a d) :=
  ⟨(packCommand_and_accessMask ..).trans (by decide), rfl⟩

theorem TableRow.wr2 (a : Addr) (d : Data) : TableRow.Statement (.wr2 a d) :=
  ⟨(packCommand_and_accessMask ..).trans (by decide), rfl⟩

theorem TableRow.wr4 (a : Addr) (d : Data) : TableRow.Statement (.wr4 a d) :=
  ⟨(packCommand_and_accessMask ..).trans (by decide), rfl⟩

theorem TableRow.flush (z : BitVec 3) (a : Addr) (d : Data) : TableRow.Statement (.flush z a d) :=
  ⟨(packCommand_and_plainMask ..).trans (by decide), rfl⟩

theorem TableRow.report (z : BitVec 3) (a : Addr) (d : Data) : TableRow.Statement (.report z a d) :=
  ⟨(packCommand_and_plainMask ..).trans (by decide), rfl⟩

end Sys2Proof.Laws
end

