-- ==== Sys2Proof/Tests/Slice0.lean ====
section
/-! SUPPORT. The model's own tests. Expected values are taken from spec/95_test_vectors.md or from the worked example of a
rule, named at each test. Then, for every statement with hypotheses, a witness that meets them together. -/

namespace Sys2Proof.Tests

open Sys2Proof Sys2Proof.Machine

set_option maxRecDepth 20000

/-! ### Encoding: words written out from the spec's encoding (V-ENC) -/

theorem test_decode_rd1 : decode 0x0004000000000000#64 = .ok (.rd1 0#18 0#32) := by decide
theorem test_decode_rd2 : decode 0x000BFFFE00000000#64 = .ok (.rd2 0x3FFFE#18 0#32) := by decide
theorem test_decode_rd4 : decode 0x0013FFFC00000000#64 = .ok (.rd4 0x3FFFC#18 0#32) := by decide
theorem test_decode_wr1 : decode 0x00240400000000BB#64 = .ok (.wr1 0x00400#18 0xBB#32) := by decide
theorem test_decode_wr2 : decode 0x002803FF0000A55A#64 = .ok (.wr2 0x003FF#18 0xA55A#32) := by decide
theorem test_decode_wr4 : decode 0x00300010DEADBEEF#64 = .ok (.wr4 0x00010#18 0xDEADBEEF#32) := by decide
theorem test_decode_flush : decode 0x0040000000000000#64 = .ok (.flush 0#3 0#18 0#32) := by decide
theorem test_decode_report : decode 0x007C000000000000#64 = .ok (.report 7#3 0#18 0#32) := by decide
theorem test_decode_badSize : decode 0x000C010000000000#64 = .error .malformedEvent := by decide
theorem test_decode_reservedOp : decode 0x0080000000000000#64 = .error .illegalCommand := by decide
theorem test_decode_reservedField : decode 0x0104000000000000#64 = .error .illegalCommand := by decide

/-- The composition worked out bit by bit under V-ENC-6. -/
theorem test_encode_wr4 : encode (.wr4 0x00010#18 0xDEADBEEF#32) = 0x00300010DEADBEEF#64 := by decide

theorem test_tableWord : decodeTableWord 64 0x0028000000000000 = some (.wr2 0#18 0#32) := by decide

/-! ### Well-formedness: one ill-formed term for each check, which the check refuses (R53, R108, R156) -/

theorem test_wf_size : Event.sizeOk ⟨0, 3, false, none⟩ = false ∧ Event.wellFormed ⟨0, 3, false, none⟩ = false := by
  decide
theorem test_wf_address :
    Event.addressOk ⟨0x40000, 1, false, none⟩ = false ∧ Event.wellFormed ⟨0x40000, 1, false, none⟩ = false := by decide
/-- The host's duty; the event is the command of V-FLT-2 all the same. -/
theorem test_wf_inMem :
    Event.inMem ⟨0x3FFFF, 2, false, none⟩ = false ∧
      (Event.toInstr ⟨0x3FFFF, 2, false, none⟩).map encode = some 0x000BFFFF00000000#64 := by decide
theorem test_wf_value : Event.valueOk ⟨0, 4, true, none⟩ = false ∧ Event.wellFormed ⟨0, 4, true, none⟩ = false := by
  decide
theorem test_wf_instr :
    Instr.wellFormed (.rd2 0x3FFFF#18 0#32) = false ∧ Instr.wellFormed (.rd2 0x3FFFE#18 0#32) = true := by decide

/-! ### Helpers -/

/-- A line of `MEM` listed with the contents LOWBYTE of 95_test_vectors.md: `MEM[a] = a mod 256`. -/
def lowLine (base : Nat) : List Host.Cell := (List.range 32).map fun k => (base + k, BitVec.ofNat 8 (base + k))

/-- The machine after reset with these bytes of `MEM` listed. -/
def fresh (cells : List Host.Cell) : State := { State.reset with mem := { cells := cells } }

/-- The same with this command word presented. -/
def present (cw : Word) (s : State) : State := { s with inputs := [.command cw] }

/-- The state a step leads to; `State.reset` if it stops. -/
def stateAfter (o : Host.Outcome State Fault Refusal) : State :=
  match o with
  | .next t => t
  | .fault _ => State.reset
  | .refused _ => State.reset

/-- The responses given once this command word has been presented. -/
def answer (cw : Word) (s : State) : List Response := (stateAfter (step (present cw s))).responses

/-- The machine after FLUSH from reset. -/
def flushedReset : State := { State.reset with phase := .done }

/-- The machine after V-FLT-1: phase ERROR with cause 4. -/
def faultedReset : State :=
  { State.reset with phase := .error, cause := .addressRange, info := 0x0013FFFD00000000#64, started := true }

/-- A block of `ARR[LRU]` with four occupied ways of tags 0 to 3 and these ages; all lines clean and zero. -/
def fullLru (a b c d : Nat) : Block Nat :=
  { occ := 4, lines := #v[⟨0, false, Vector.replicate 32 0, a⟩, ⟨1, false, Vector.replicate 32 0, b⟩,
      ⟨2, false, Vector.replicate 32 0, c⟩, ⟨3, false, Vector.replicate 32 0, d⟩] }

/-- The same of `ARR[PLRU]`, with these used bits. -/
def fullPlru (a b c d : Bool) : Block Bool :=
  { occ := 4, lines := #v[⟨0, false, Vector.replicate 32 0, a⟩, ⟨1, false, Vector.replicate 32 0, b⟩,
      ⟨2, false, Vector.replicate 32 0, c⟩, ⟨3, false, Vector.replicate 32 0, d⟩] }

/-- The recency metadata of the four ways. -/
def recencies {ρ : Type} (B : Block ρ) : List ρ := ways.map fun w => (B.line w).recency

/-! ### The decomposer and the policies (V-DEC, V-LRU, V-PLRU) -/

theorem test_decompose_wrap : decompose 0x003FF#18 = ⟨0#8, 31#5, 31#5⟩ ∧ decompose 0x00400#18 = ⟨1#8, 0#5, 0#5⟩ := by
  decide
theorem test_reconstruct : reconstruct 0x55#8 10#5 = 0x15540#18 ∧ lineBase 0x15555#18 = 0x15540#18 := by decide
/-- V-LRU-1b: touching the youngest way still ages the others. -/
theorem test_lruTouch : recencies (lruTouch none (fullLru 3 2 1 0) 3).block = [4, 3, 2, 0] := by decide
/-- V-LRU-2a. -/
theorem test_lruVictim_tie : lruVictim (fullLru 5 7 7 2) = 1 := by decide
/-- R97, R135: an age of 7 is the largest of three bits. -/
theorem test_lruTouch_raises : (lruTouch (some 3) (fullLru 7 2 1 0) 3).raised = true := by decide
/-- V-PLRU-4 and V-PLRU-6b. -/
theorem test_plruTouch :
    recencies (plruTouch (fullPlru true true false true) 2) = [false, false, true, false] ∧
      recencies (plruTouch (fullPlru true true true false) 0) = [true, true, true, false] := by decide
/-- V-PLRU-7a and V-PLRU-7e. -/
theorem test_plruVictim :
    plruVictim (fullPlru true false true false) = 1 ∧ plruVictim (fullPlru true true true true) = 0 := by decide

/-! ### One step of each command -/

/-- V-CMD-1. -/
theorem test_rd1_miss : answer 0x0006A7F300000000#64 (fresh (lowLine 0x2A7E0)) = [.word 0x00000000000000F3#64] := by
  decide
/-- V-FLT-9: Protocol in phase DONE. -/
theorem test_rd1_afterFlush : answer 0x0004000000000000#64 flushedReset = [.word 0x000000B800000000#64] := by decide
/-- The example of R111: both lines of the event are absent. -/
theorem test_rd2_straddles :
    answer 0x000803FF00000000#64 (fresh (lowLine 0x3E0 ++ lowLine 0x400)) = [.word 0x00000000000000FF#64] := by decide
/-- V-FLT-2. -/
theorem test_rd2_pastTheTop : answer 0x000BFFFF00000000#64 State.reset = [.word 0x0000009800000000#64] := by decide
/-- V-CMD-10: the highest legal 4-byte event. -/
theorem test_rd4_highest : answer 0x0013FFFC00000000#64 (fresh (lowLine 0x3FFE0)) = [.word 0x00000000FFFEFDFC#64] := by
  decide
/-- V-FLT-1: no request is counted. -/
theorem test_rd4_pastTheTop :
    answer 0x0013FFFD00000000#64 State.reset = [.word 0x0000009800000000#64] ∧
      (stateAfter (step (present 0x0013FFFD00000000#64 State.reset))).requests = 0 := by decide
/-- V-CMD-12: only the low byte of the value is written. -/
theorem test_wr1_lowByte :
    ((stateAfter (step (present 0x0024002012345678#64 (fresh (lowLine 0x20))))).lru.block 1).byteAt 0 0 = 0x78#8 ∧
      ((stateAfter (step (present 0x0024002012345678#64 (fresh (lowLine 0x20))))).lru.block 1).byteAt 0 1 = 0x21#8 := by
  decide
/-- P3 step 4: the two bytes go to two sets. -/
theorem test_wr2_straddles :
    let t := stateAfter (step (present 0x002803FF0000A55A#64 (fresh (lowLine 0x3E0 ++ lowLine 0x400))))
    (t.plru.block 31).byteAt 0 31 = 0x5A#8 ∧ (t.plru.block 0).byteAt 0 0 = 0xA5#8 ∧
      ((t.plru.block 0).line 0).dirty = true ∧ t.requests = 1 := by decide
/-- The example of R115: little-endian, and the event is a miss. -/
theorem test_wr4_littleEndian :
    let t := stateAfter (step (present 0x00300010DEADBEEF#64 (fresh (lowLine 0))))
    [16#5, 17#5, 18#5, 19#5].map (fun o => (t.lru.block 0).byteAt 0 o) = [0xEF#8, 0xBE#8, 0xAD#8, 0xDE#8] ∧
      t.hitsLru = 0 := by decide
/-- V-FLT-3. -/
theorem test_wr4_pastTheTop : answer 0x0033FFFE00000001#64 State.reset = [.word 0x0000009800000000#64] := by decide
/-- V-CMD-14: the unused fields are ignored. -/
theorem test_flush_junk : answer 0x005FFFFFFFFFFFFF#64 State.reset = [.word 0x0000000400000000#64] := by decide
/-- V-FLT-10: a second FLUSH. -/
theorem test_flush_twice : answer 0x0040000000000000#64 flushedReset = [.word 0x000000B800000000#64] := by decide
/-- V-CMD-15: no request, so the record is not valid. -/
theorem test_report_noRequest :
    answer 0x0060000000000000#64 State.reset = [.record ⟨false, .both, 0, 0, 0, .run, .none⟩] := by decide
/-- V-FLT-16: in phase ERROR. -/
theorem test_report_inError :
    answer 0x0060000000000000#64 faultedReset = [.record ⟨false, .both, 0, 0, 0, .error, .addressRange⟩] := by decide

/-! ### Words that are no command, and reset (V-FLT) -/

/-- V-FLT-4 and V-FLT-6. -/
theorem test_reject :
    answer 0x000C010000000000#64 State.reset = [.word 0x0000007800000000#64] ∧
      answer 0x0080000000000000#64 State.reset = [.word 0x0000005800000000#64] := by decide
/-- V-FLT-11 and V-FLT-12: the order of the checks in phase DONE. -/
theorem test_reject_afterFlush :
    answer 0x000C010000000000#64 flushedReset = [.word 0x000000B800000000#64] ∧
      answer 0x0080000000000000#64 flushedReset = [.word 0x0000005800000000#64] := by decide
/-- V-FLT-14 and V-FLT-15: the stored cause. -/
theorem test_inError :
    answer 0x0004000000000000#64 faultedReset = [.word 0x0000009800000000#64] ∧
      answer 0x0080000000000000#64 faultedReset = [.word 0x0000009800000000#64] := by decide
/-- V-FLT-17. -/
theorem test_configError :
    answer 0x0004000000000000#64 (resetRelease 3#2 State.reset) = [.word 0x0000003800000000#64] := by decide
/-- V-FLT-18: the fourth request with counters of two bits. -/
theorem test_counterOverflow :
    answer 0x0004000000000000#64 { State.reset with params := ⟨none, some 2⟩, requests := 3 } =
      [.word 0x000000F800000000#64] := by decide
/-- The host's question: step runs the presented word. -/
theorem test_withFetchWord :
    (stateAfter (step (State.reset.withFetchWord 64 0x0040000000000000))).phase = .done := by decide

/-! ### Witnesses: a concrete state and operands that meet the hypotheses of each statement

Statements without hypotheses need none: DecodeOfEncodeIsTheInstruction, WordIsTheCommandItsRowMatches,
WrittenWordsDecode, DecomposeGivesTagIndexOffset, LineAddressesStayInMemory, PlruTouchSetsAndClearsAll,
ResetStartsCoherent, ReportAnswersTheRegisters, ResetStateIsAsTheSpecSays, InvariantHoldsAtReset. -/

/-- The machine after `RD1 0x00000` from reset, whatever MEM_INIT: one clean line in set 0 of both arrays. -/
def oneLine : State :=
  { State.reset with
    lru := State.reset.lru.setBlock 0
      { occ := 1, lines := #v[⟨0, false, memRead ⟨[]⟩ 0, 0⟩, Line.atReset 0, Line.atReset 0, Line.atReset 0] }
    plru := State.reset.plru.setBlock 0
      { occ := 1, lines := #v[⟨0, false, memRead ⟨[]⟩ 0, true⟩, Line.atReset false, Line.atReset false,
          Line.atReset false] }
    requests := 1
    started := true }

theorem inv_oneLine : Inv oneLine where
  memWf := by decide
  lruBlocks := by decide
  plruBlocks := by decide
  agesDistinct := by decide
  agesFit := by intro k w _ n hn; cases hn
  usedLegal := by decide
  hitsLruLe := by decide
  hitsPlruLe := by decide
  requestsFit := by intro n hn; cases hn
  errorIffCause := by decide
  infoZero := by decide
  modeLegal := by decide
  lruDisabled := by decide
  plruDisabled := by decide

/-- In `oneLine` a lookup finds nothing but way 0 of set 0, by tag 0. -/
theorem lookup_oneLine (k : Index) (t : Tag) (w : Fin 4) :
    (lookup (oneLine.lru.block k) t = some w → k = 0 ∧ t = 0 ∧ w = 0) ∧
      (lookup (oneLine.plru.block k) t = some w → k = 0 ∧ t = 0 ∧ w = 0) := by
  have h1 : ∀ (k : Index) (w : Fin 4), (oneLine.lru.block k).occupied w = true →
      k = 0 ∧ w = 0 ∧ ((oneLine.lru.block k).line w).tag = 0 := by decide
  have h2 : ∀ (k : Index) (w : Fin 4), (oneLine.plru.block k).occupied w = true →
      k = 0 ∧ w = 0 ∧ ((oneLine.plru.block k).line w).tag = 0 := by decide
  constructor <;> intro h <;> obtain ⟨⟨ho, ht⟩, -⟩ := lookup_eq_some.mp h
  · obtain ⟨e1, e2, e3⟩ := h1 k w ho
    exact ⟨e1, ht.symm.trans e3, e2⟩
  · obtain ⟨e1, e2, e3⟩ := h2 k w ho
    exact ⟨e1, ht.symm.trans e3, e2⟩

/-- `oneLine` is coherent with what its `MEM` holds. -/
theorem coherent_oneLine : Coherent (fun x => oneLine.mem.read x.toNat) oneLine := by
  have hp : ∀ (a : Addr), (decompose a).index = 0 → (decompose a).tag = 0 →
      ∀ (h : (decompose a).offset.toNat < 32), (memRead ⟨[]⟩ 0)[(decompose a).offset.toNat] = oneLine.mem.read a.toNat := by
    intro a hi ht h
    have e : (decompose a).offset.toNat = a.toNat := by
      have h1 := congrArg BitVec.toNat hi
      have h2 := congrArg BitVec.toNat ht
      have h3 := a.isLt
      simp [decompose, BitVec.extractLsb'_toNat, Nat.shiftRight_eq_div_pow] at h1 h2 ⊢
      omega
    simp only [memRead, Vector.getElem_ofFn]
    rw [e]
    simp [oneLine, State.reset]
  refine ⟨fun _ => ⟨fun a w hw => ?_, fun a _ => rfl⟩, fun _ => ⟨fun a w hw => ?_, fun a _ => rfl⟩⟩
  · obtain ⟨h1, h2, rfl⟩ := (lookup_oneLine _ _ _).1 hw
    refine Eq.trans ?_ (hp a h1 h2 (decompose a).offset.isLt)
    rw [h1]
    rfl
  · obtain ⟨h1, h2, rfl⟩ := (lookup_oneLine _ _ _).2 hw
    refine Eq.trans ?_ (hp a h1 h2 (decompose a).offset.isLt)
    rw [h1]
    rfl

/-- With the default parameters there is room for every age and every request. -/
theorem room_of_default {s : State} (h : s.params = Config.defaultParams) (a : Addr) (n : Nat) : AgeRoom s a n := by
  intro _ w hw
  rw [h] at hw
  cases hw

theorem admitted_of_default {s : State} (h : s.params = Config.defaultParams) (hp : s.phase = .run) {a : Addr} {n : Nat}
    (ha : a.toNat + n ≤ 262144) : Admitted s a n :=
  ⟨hp, ha, by intro w hw; rw [h] at hw; cases hw⟩

theorem witness_EncodeOfDecodeIsTheWord : decode 0x002803FF0000A55A#64 = .ok (.wr2 0x003FF#18 0xA55A#32) := by decide

/-- The highest address with the most bytes, which is a command; and the four ways to be none: size, address, a value for
a read, no value for a write. -/
theorem witness_WellFormedEventHasItsCommand :
    (0x3FFFF ≤ 262143 ∧ (some 5).isSome = true) ∧ 3 ∉ [1, 2, 4] ∧ 262143 < 0x40000 ∧ (some 5).isSome ≠ false ∧
      (none : Option Nat).isSome ≠ true := by decide

theorem witness_StepRunsTheDecodedCommand :
    (present 0x0004040000000000#64 oneLine).inputs = .command 0x0004040000000000#64 :: [] ∧
      decode 0x0004040000000000#64 = .ok (.rd1 0x00400#18 0#32) := ⟨rfl, by decide⟩

/-- Within a line, at the end of a set, and at the end of set 31. -/
theorem witness_DecomposePartitionsTheAddress :
    (0x0001F#18).toNat = (0x0001E#18).toNat + 1 ∧ (decompose 0x0001E#18).offset ≠ 31#5 ∧
      (0x00020#18).toNat = (0x0001F#18).toNat + 1 ∧ (decompose 0x0001F#18).offset = 31#5 ∧
      (0x00400#18).toNat = (0x003FF#18).toNat + 1 ∧ (decompose 0x003FF#18).offset = 31#5 ∧
      (decompose 0x003FF#18).index = 31#5 := by decide

theorem witness_ByteOfMemReadsAsLastWritten : State.reset.mem.wf = true ∧ 262143 < 262144 := by decide

theorem witness_LineWriteSetsItsBytesOnly : State.reset.mem.wf = true ∧ (262112#18).toNat % 32 = 0 := by decide

/-- A touch that raises, and one that does not. -/
theorem witness_LruTouchAgesTheOtherWays :
    (lruTouch (some 3) (fullLru 7 2 1 0) 3).raised = true ∧ (lruTouch (some 3) (fullLru 6 2 1 0) 3).raised = false := by
  decide

theorem witness_LruVictimIsFirstOfMaximumAge :
    0 < (fullLru 9 4 0 7).occ ∧ (fullLru 9 4 0 7).agesDistinct ∧ (fullLru 5 7 7 2).occ = 4 ∧
      recencies (fullLru 5 7 7 2) = [5, 7, 7, 2] := by decide

theorem witness_LruVictimIsLeastRecentlyTouched :
    (fullLru 0 0 0 0).occ = 4 ∧ ∀ w : Fin 4, w ∈ ([0, 1, 2, 3, 0, 1] : List (Fin 4)) := by decide

theorem witness_PlruVictimIsFirstClearWay :
    (∃ v : Fin 4, v.val < (fullPlru true true true false).occ ∧
      ((fullPlru true true true false).line v).recency = false) ∧
      (∀ v : Fin 4, v.val < (fullPlru true true true true).occ →
        ((fullPlru true true true true).line v).recency = true) ∧
      (fullPlru true true true false).occ = 4 ∧ (fullPlru true true true false).usedLegal := by decide

theorem witness_PlruTouchedWayIsNotTheNextVictim : (fullPlru true true true false).occ = 4 := rfl

/-- A hit in a full block, and the fourth fill of a block: in both the bit of way 0 is cleared. -/
theorem witness_ClearAllFiresOnlyWhenBlockIsFull :
    let full := fullPlru true true true false
    let three : Block Bool := { fullPlru true true true false with occ := 3 }
    (full.usedLegal ∧ full.occ = 4 ∧ (full.line 0).recency = true ∧
      ((plruTouch full 3).line 0).recency = false) ∧
      three.usedLegal ∧ (3 : Fin 4).val ≤ three.occ ∧ (three.line 0).recency = true ∧
      ((plruTouch three 3).line 0).recency = false := by decide

theorem witness_LookupIsLeastOccupiedMatch :
    (fullLru 3 2 1 0).tagsDistinct ∧ (2 : Fin 4).val < (fullLru 3 2 1 0).occ ∧ ((fullLru 3 2 1 0).line 2).tag = 2 := by
  decide

/-- An array with one full block in set 0. -/
def fullArray : CacheArray Nat := State.reset.lru.setBlock 0 (fullLru 3 2 1 0)

/-- The same with way 0, the victim, dirty. -/
def dirtyArray : CacheArray Nat :=
  State.reset.lru.setBlock 0 ((fullLru 3 2 1 0).setLine 0 ⟨0, true, Vector.replicate 32 0xBB#8, 3⟩)

def fullArrayP : CacheArray Bool := State.reset.plru.setBlock 0 (fullPlru true true true false)

theorem witness_HitTouchesAndStoresOneByte :
    lookup (fullArray.block (decompose 0x00805#18).index) (decompose 0x00805#18).tag = some 2 ∧
      touchRoom none (fullArray.block 0) 2 ∧
      lookup (fullArrayP.block (decompose 0x00805#18).index) (decompose 0x00805#18).tag = some 2 := by
  exact ⟨by decide, fun _ _ _ _ hk => (by cases hk), by decide⟩

theorem witness_MissFillsTheNextFreeWay :
    lookup (oneLine.lru.block (decompose 0x00400#18).index) (decompose 0x00400#18).tag = none ∧
      (oneLine.lru.block (decompose 0x00400#18).index).occ = (1 : Fin 4).val ∧ touchRoom none (oneLine.lru.block 0) 1 ∧
      lookup (oneLine.plru.block (decompose 0x00400#18).index) (decompose 0x00400#18).tag = none ∧
      (oneLine.plru.block (decompose 0x00400#18).index).occ = (1 : Fin 4).val := by
  exact ⟨by decide, by decide, fun _ _ _ _ hk => (by cases hk), by decide, by decide⟩

/-- With a clean victim, with a dirty one, and in the pseudo-LRU array. -/
theorem witness_MissInFullBlockEvictsTheVictim :
    State.reset.mem.wf = true ∧ lookup (fullArray.block (decompose 0x01000#18).index) (decompose 0x01000#18).tag = none ∧
      (fullArray.block 0).occ = 4 ∧ touchRoom none (fullArray.block 0) (lruVictim (fullArray.block 0)) ∧
      lookup (dirtyArray.block (decompose 0x01000#18).index) (decompose 0x01000#18).tag = none ∧
      (dirtyArray.block 0).occ = 4 ∧ ((dirtyArray.block 0).line (lruVictim (dirtyArray.block 0))).dirty = true ∧
      touchRoom none (dirtyArray.block 0) (lruVictim (dirtyArray.block 0)) ∧
      lookup (fullArrayP.block (decompose 0x01000#18).index) (decompose 0x01000#18).tag = none ∧
      (fullArrayP.block 0).occ = 4 := by
  exact ⟨by decide, by decide, by decide, fun _ _ _ _ hk => (by cases hk), by decide, by decide, by decide,
    fun _ _ _ _ hk => (by cases hk), by decide, by decide⟩

/-- Hypotheses on an access command, met by each of the six at the highest address it can have; they are those of
AccessCompletesAndCountsOneRequest, HitFlagIffEveryByteResident and AccessLeavesItsBytesResident. -/
theorem witness_AccessCompletesAndCountsOneRequest :
    (accessOf (.rd1 0x3FFFF#18 0#32) = some (0x3FFFF#18, 1, none) ∧ Admitted oneLine 0x3FFFF#18 1 ∧
      AgeRoom oneLine 0x3FFFF#18 1) ∧
      (accessOf (.rd2 0x3FFFE#18 0#32) = some (0x3FFFE#18, 2, none) ∧ Admitted oneLine 0x3FFFE#18 2 ∧
        AgeRoom oneLine 0x3FFFE#18 2) ∧
      (accessOf (.rd4 0x3FFFC#18 0#32) = some (0x3FFFC#18, 4, none) ∧ Admitted oneLine 0x3FFFC#18 4 ∧
        AgeRoom oneLine 0x3FFFC#18 4) ∧
      (accessOf (.wr1 0x3FFFF#18 7#32) = some (0x3FFFF#18, 1, some 7#32) ∧ Admitted oneLine 0x3FFFF#18 1 ∧
        AgeRoom oneLine 0x3FFFF#18 1) ∧
      (accessOf (.wr2 0x3FFFE#18 7#32) = some (0x3FFFE#18, 2, some 7#32) ∧ Admitted oneLine 0x3FFFE#18 2 ∧
        AgeRoom oneLine 0x3FFFE#18 2) ∧
      (accessOf (.wr4 0x3FFFC#18 7#32) = some (0x3FFFC#18, 4, some 7#32) ∧ Admitted oneLine 0x3FFFC#18 4 ∧
        AgeRoom oneLine 0x3FFFC#18 4) := by
  refine ⟨⟨rfl, ?_, ?_⟩, ⟨rfl, ?_, ?_⟩, ⟨rfl, ?_, ?_⟩, ⟨rfl, ?_, ?_⟩, ⟨rfl, ?_, ?_⟩, ⟨rfl, ?_, ?_⟩⟩ <;>
    first
      | exact room_of_default rfl _ _
      | exact admitted_of_default rfl rfl (by decide)

theorem witness_AccessIsItsSubAccessesInOrder :
    accessOf (.wr4 0x0001D#18 9#32) = some (0x0001D#18, 4, some 9#32) ∧ Admitted oneLine 0x0001D#18 4 ∧
      AgeRoom oneLine 0x0001D#18 4 ∧ someEnabled oneLine :=
  ⟨rfl, admitted_of_default rfl rfl (by decide), room_of_default rfl _ _, by decide⟩

theorem witness_HitFlagIffEveryByteResident :
    accessOf (.rd4 0x0001D#18 0#32) = some (0x0001D#18, 4, none) ∧ Admitted oneLine 0x0001D#18 4 ∧
      AgeRoom oneLine 0x0001D#18 4 :=
  ⟨rfl, admitted_of_default rfl rfl (by decide), room_of_default rfl _ _⟩

theorem witness_AccessLeavesItsBytesResident :
    accessOf (.wr2 0x003FF#18 0xA55A#32) = some (0x003FF#18, 2, some 0xA55A#32) ∧ Admitted oneLine 0x003FF#18 2 ∧
      AgeRoom oneLine 0x003FF#18 2 :=
  ⟨rfl, admitted_of_default rfl rfl (by decide), room_of_default rfl _ _⟩

/-- With a write-back: the access misses in the full block of set 0, whose victim is dirty. -/
theorem witness_AccessChangesOnlyLinesItWritesBack :
    accessOf (.rd1 0x01000#18 0#32) = some (0x01000#18, 1, none) ∧
      ({ State.reset with lru := dirtyArray } : State).mem.wf = true ∧
      (∃ t, exec (.rd1 0x01000#18 0#32) { State.reset with lru := dirtyArray } = .next t) ∧
      lruWriteBacks { State.reset with lru := dirtyArray } (subAccesses 0x01000#18 1 none) = [0x00000#18] := by
  exact ⟨rfl, by decide, ⟨_, rfl⟩, by decide⟩

theorem witness_AccessChangesOnlyBlocksItMapsTo :
    accessOf (.wr2 0x003FF#18 1#32) = some (0x003FF#18, 2, some 1#32) ∧
      ∃ t, exec (.wr2 0x003FF#18 1#32) oneLine = .next t := ⟨rfl, _, rfl⟩

theorem witness_ReadAfterWriteReturnsTheValue :
    someEnabled oneLine ∧
      (Admitted oneLine 0x3FFFF#18 1 ∧ AgeRoom oneLine 0x3FFFF#18 1 ∧ ∃ t, exec (.wr1 0x3FFFF#18 7#32) oneLine = .next t ∧
        Admitted t 0x3FFFF#18 1 ∧ AgeRoom t 0x3FFFF#18 1) ∧
      (Admitted oneLine 0x003FF#18 2 ∧ AgeRoom oneLine 0x003FF#18 2 ∧ ∃ t, exec (.wr2 0x003FF#18 7#32) oneLine = .next t ∧
        Admitted t 0x003FF#18 2 ∧ AgeRoom t 0x003FF#18 2) ∧
      (Admitted oneLine 0x3FFFC#18 4 ∧ AgeRoom oneLine 0x3FFFC#18 4 ∧ ∃ t, exec (.wr4 0x3FFFC#18 7#32) oneLine = .next t ∧
        Admitted t 0x3FFFC#18 4 ∧ AgeRoom t 0x3FFFC#18 4) := by
  refine ⟨by decide, ⟨admitted_of_default rfl rfl (by decide), room_of_default rfl _ _, _, rfl, ?_, ?_⟩,
    ⟨admitted_of_default rfl rfl (by decide), room_of_default rfl _ _, _, rfl, ?_, ?_⟩,
    ⟨admitted_of_default rfl rfl (by decide), room_of_default rfl _ _, _, rfl, ?_, ?_⟩⟩ <;>
    first
      | exact room_of_default (by decide) _ _
      | exact admitted_of_default (by decide) (by decide) (by decide)

theorem witness_ReadReturnsTheTrueContent :
    accessOf (.rd4 0x0001D#18 0#32) = some (0x0001D#18, 4, none) ∧ Inv oneLine ∧
      Coherent (fun x => oneLine.mem.read x.toNat) oneLine ∧ someEnabled oneLine ∧ Admitted oneLine 0x0001D#18 4 ∧
      AgeRoom oneLine 0x0001D#18 4 :=
  ⟨rfl, inv_oneLine, coherent_oneLine, by decide, admitted_of_default rfl rfl (by decide), room_of_default rfl _ _⟩

theorem witness_WriteReplacesTheTrueContent :
    accessOf (.wr4 0x0001D#18 9#32) = some (0x0001D#18, 4, some 9#32) ∧ Inv oneLine ∧
      Coherent (fun x => oneLine.mem.read x.toNat) oneLine ∧ Admitted oneLine 0x0001D#18 4 ∧
      AgeRoom oneLine 0x0001D#18 4 :=
  ⟨rfl, inv_oneLine, coherent_oneLine, admitted_of_default rfl rfl (by decide), room_of_default rfl _ _⟩

theorem witness_FlushPublishesTheTrueContent :
    Inv oneLine ∧ Coherent (fun x => oneLine.mem.read x.toNat) oneLine ∧ someEnabled oneLine ∧ oneLine.phase = .run :=
  ⟨inv_oneLine, coherent_oneLine, by decide, rfl⟩

/-- `oneLine` with a write and a read of it presented. -/
def oneLineRun : State :=
  { oneLine with inputs := [.command (encode (.wr4 0x0001D#18 9#32)), .command (encode (.rd2 0x0001E#18 0#32))] }

theorem inv_oneLineRun : Inv oneLineRun :=
  have h := inv_oneLine
  ⟨h.memWf, h.lruBlocks, h.plruBlocks, h.agesDistinct, h.agesFit, h.usedLegal, h.hitsLruLe, h.hitsPlruLe, h.requestsFit,
    h.errorIffCause, h.infoZero, h.modeLegal, h.lruDisabled, h.plruDisabled⟩

theorem witness_EngineRefinesFlatMemory :
    (∀ i ∈ [Instr.wr4 0x0001D#18 9#32, Instr.rd2 0x0001E#18 0#32], (accessOf i).isSome = true ∧ i.wellFormed = true) ∧
      Inv oneLineRun ∧ Coherent (fun x => oneLine.mem.read x.toNat) oneLineRun ∧ someEnabled oneLineRun ∧
      oneLineRun.phase = .run ∧ oneLineRun.params = Config.defaultParams ∧
      oneLineRun.inputs = [Instr.wr4 0x0001D#18 9#32, Instr.rd2 0x0001E#18 0#32].map
        (fun i => .command (encode i)) ++ [] := by
  exact ⟨by decide, inv_oneLineRun,
    ⟨coherent_oneLine.lru, coherent_oneLine.plru⟩, by decide, rfl, rfl, rfl⟩

/-- Set 0 holds tag 0 dirty in both arrays, set 1 in the LRU array only. -/
def dirtyState : State :=
  { State.reset with
    lru := (dirtyArray.setBlock 1 ((fullLru 3 2 1 0).setLine 0 ⟨0, true, Vector.replicate 32 0xBB#8, 3⟩))
    plru := State.reset.plru.setBlock 0 ((fullPlru true true true false).setLine 0 ⟨0, true, Vector.replicate 32 0xBB#8, true⟩) }

/-- A byte each of the three clauses speaks of: dirty in both arrays, dirty in the LRU array only, dirty in none. -/
theorem witness_FlushWritesBackEveryDirtyLine :
    dirtyState.phase = .run ∧ dirtyState.mem.wf = true ∧ (∀ k, (dirtyState.lru.block k).tagsDistinct) ∧
      (∀ k, (dirtyState.plru.block k).tagsDistinct) ∧
      (enabled dirtyState.mode .plru = true ∧ flushes dirtyState.plru 0x00005#18 0) ∧
      (enabled dirtyState.mode .lru = true ∧ flushes dirtyState.lru 0x00025#18 0 ∧
        ∀ v, ¬flushes dirtyState.plru 0x00025#18 v) ∧
      (∀ v, ¬flushes dirtyState.lru 0x00400#18 v) ∧ ∀ v, ¬flushes dirtyState.plru 0x00400#18 v := by
  unfold flushes
  decide

theorem witness_HitRateIsAPercentage : Inv oneLine ∧ ∃ q : Rat, (reportRecord oneLine).hitRate .lru = some q :=
  ⟨inv_oneLine, _, rfl⟩

theorem witness_IgnoredFieldsHaveNoEffect :
    (0x12345678#32).extractLsb' 0 8 = (0x00000078#32).extractLsb' 0 8 ∧
      (0x12345678#32).extractLsb' 0 16 = (0x00005678#32).extractLsb' 0 16 := by decide

theorem witness_FaultEntryStoresTheFirstFault : oneLine.phase ≠ .error ∧ faultedReset.phase = .error := by decide

theorem witness_FaultResponseCarriesItsTabledCode : oneLine.phase ≠ .error := by decide

theorem witness_ReservedWordsAreIllegal :
    (present 0x0104000000000000#64 oneLine).inputs = .command 0x0104000000000000#64 :: [] ∧ oneLine.phase ≠ .error ∧
      (0x0104000000000000#64).extractLsb' 56 8 ≠ 0#8 ∧ 4 ≤ ((0x0080000000000000#64).extractLsb' 53 3).toNat := by decide

/-- A READ of size 3 and a WRITE of size 0. -/
theorem witness_BadSizeIsMalformed :
    (present 0x000C010000000000#64 oneLine).inputs = .command 0x000C010000000000#64 :: [] ∧ oneLine.phase = .run ∧
      (0x000C010000000000#64).extractLsb' 56 8 = 0#8 ∧ ((0x000C010000000000#64).extractLsb' 53 3).toNat < 2 ∧
      (0x000C010000000000#64).extractLsb' 50 3 ∉ [1#3, 2#3, 4#3] ∧
      (0x0020010000000005#64).extractLsb' 56 8 = 0#8 ∧ ((0x0020010000000005#64).extractLsb' 53 3).toNat < 2 ∧
      (0x0020010000000005#64).extractLsb' 50 3 ∉ [1#3, 2#3, 4#3] := by decide

theorem witness_EventPastTheTopFaults :
    oneLine.phase = .run ∧ accessOf (.rd2 0x3FFFF#18 0#32) = some (0x3FFFF#18, 2, none) ∧
      262143 < (0x3FFFF#18).toNat + 2 - 1 ∧ accessOf (.wr4 0x3FFFD#18 1#32) = some (0x3FFFD#18, 4, some 1#32) ∧
      262143 < (0x3FFFD#18).toNat + 4 - 1 ∧ ¬262143 < (0x3FFFC#18).toNat + 4 - 1 := by decide

theorem witness_FullRequestCounterFaults :
    accessOf (.rd1 0#18 0#32) = some (0#18, 1, none) ∧
      ({ State.reset with params := ⟨none, some 2⟩, requests := 3 } : State).requests = 2 ^ 2 - 1 ∧
      State.reset.phase = .run ∧ (0#18).toNat + 1 ≤ 262144 ∧ oneLine.params.cntW = none := by decide

/-- V-FLT-19 in small: ages of three bits, way 0 of set 0 at age 7, and a hit on way 3. -/
theorem witness_AgeAtItsLimitEndsTheCommand :
    let s : State :=
      { State.reset with params := ⟨some 3, none⟩, lru := State.reset.lru.setBlock 0 (fullLru 7 2 1 0) }
    accessOf (.rd1 0x00C00#18 0#32) = some (0x00C00#18, 1, none) ∧ Admitted s 0x00C00#18 1 ∧
      enabled s.mode .lru = true ∧ s.params.ageW = some 3 ∧
      (0 : Fin 4) ≠ (lookup (s.lru.block (decompose 0x00C00#18).index) (decompose 0x00C00#18).tag).getD
        (missWay (lruOps (some 3)) (s.lru.block (decompose 0x00C00#18).index)) ∧
      (0 : Fin 4).val < (s.lru.block (decompose 0x00C00#18).index).occ ∧
      ((s.lru.block (decompose 0x00C00#18).index).line 0).recency = 2 ^ 3 - 1 := by
  refine ⟨rfl, ⟨rfl, by decide, by intro w hw; cases hw⟩, rfl, rfl, ?_, ?_, ?_⟩ <;> decide

theorem witness_CommandsAfterFlushFault :
    flushedReset.phase = .done ∧ (∀ z a d, Instr.flush 0#3 0#18 0#32 ≠ .report z a d) ∧
      (present 0x000C010000000000#64 flushedReset).inputs = .command 0x000C010000000000#64 :: [] ∧
      (present 0x000C010000000000#64 flushedReset).phase = .done ∧
      decode 0x000C010000000000#64 = .error .malformedEvent :=
  ⟨rfl, fun _ _ _ h => (by cases h), rfl, rfl, by decide⟩

/-- A word for each clause of the order, in the state it speaks of: ERROR, reserved `OP`, READ of size 3 in DONE, READ of
size 3 in RUN, past the top, full counter, and an access that passes. -/
theorem witness_FirstConditionInOrderIsReported :
    (present 0x0080000000000000#64 faultedReset).phase = .error ∧
      4 ≤ ((0x0080000000000000#64).extractLsb' 53 3).toNat ∧ (present 0x000C010000000000#64 flushedReset).phase = .done ∧
      ((0x000C010000000000#64).extractLsb' 53 3).toNat ≠ 3 ∧ ((0x000C010000000000#64).extractLsb' 50 3).toNat = 3 ∧
      262143 < ((0x0013FFFD00000000#64).extractLsb' 32 18).toNat +
        ((0x0013FFFD00000000#64).extractLsb' 50 3).toNat - 1 ∧
      ({ State.reset with params := ⟨none, some 2⟩, requests := 3 } : State).requests = 2 ^ 2 - 1 ∧
      (present 0x0013FFFC00000000#64 oneLine).inputs = .command 0x0013FFFC00000000#64 :: [] := by decide

theorem witness_FaultsButAgeOverflowArePrecise :
    (present 0x0080000000000000#64 State.reset).inputs = .command 0x0080000000000000#64 :: [] ∧
      (present 0x0080000000000000#64 State.reset).phase ≠ .error ∧
      ∃ t, step (present 0x0080000000000000#64 State.reset) = .next t ∧ t.phase = .error ∧ t.cause ≠ .ageOverflow :=
  ⟨rfl, by decide, _, rfl, rfl, by decide⟩

theorem witness_ErrorPhaseAnswersAndStays :
    faultedReset.phase = .error ∧
      (present 0x0060000000000000#64 faultedReset).inputs = .command 0x0060000000000000#64 :: [] ∧
      decode 0x0060000000000000#64 = .ok (.report 0#3 0#18 0#32) ∧
      ∃ t, step (present 0x0060000000000000#64 faultedReset) = .next t := ⟨rfl, rfl, by decide, _, rfl⟩

theorem witness_EveryCommandGetsOneResponse :
    (present 0xFFFFFFFFFFFFFFFF#64 oneLine).inputs = .command 0xFFFFFFFFFFFFFFFF#64 :: [] := rfl

theorem witness_ResetAndOnlyResetStartsAfresh :
    ({ oneLine with inputs := [.reset 2#2] } : State).inputs = .reset 2#2 :: [] ∧ (2#2 : BitVec 2) ≠ 3#2 ∧
      (∀ m rest, (present 0x0040000000000000#64 oneLine).inputs ≠ .reset m :: rest) ∧
      ∃ t, step (present 0x0040000000000000#64 oneLine) = .next t :=
  ⟨rfl, by decide, fun _ _ h => (by cases h), _, rfl⟩

theorem witness_UnrecognisedModeIsAConfigError :
    ({ oneLine with inputs := [.reset 3#2] } : State).inputs = .reset 3#2 :: [] ∧
      ({ oneLine with inputs := [.reset 1#2] } : State).inputs = .reset 1#2 :: [] ∧ (1#2 : BitVec 2) ≠ 3#2 :=
  ⟨rfl, rfl, by decide⟩

/-- No move; a load before the first command; a load in phase DONE; a load in phase RUN after the first command. -/
theorem witness_HostMovesOutsideTheCommands :
    oneLine.inputs = [] ∧ State.reset.started = false ∧ State.reset.mem.wf = true ∧
      ({ flushedReset with started := true, inputs := [.load 0x3FFFF#18 1#8] } : State).phase ≠ .run ∧
      ({ oneLine with inputs := [.load 0#18 1#8] } : State).inputs = .load 0#18 1#8 :: [] ∧ oneLine.started = true ∧
      oneLine.phase = .run := ⟨rfl, rfl, by decide, by decide, rfl, rfl, rfl⟩

/-- The step is a write. -/
theorem witness_EveryStepKeepsTheInvariant : Inv oneLineRun ∧ ∃ t, step oneLineRun = .next t := ⟨inv_oneLineRun, _, rfl⟩

/-- The pseudo-LRU array is enabled in one state only and the other data differ; the LRU arrays agree. -/
theorem witness_ArraysDoNotInfluenceEachOther :
    let s' : State := { oneLine with mode := .lruOnly, plru := State.reset.plru }
    oneLine.phase = s'.phase ∧ oneLine.params = s'.params ∧ oneLine.requests = s'.requests ∧
      oneLine.params.ageW = none ∧ (∃ t, exec (.rd1 0x00400#18 0#32) oneLine = .next t) ∧
      (∃ t', exec (.rd1 0x00400#18 0#32) s' = .next t') ∧ enabled oneLine.mode .lru = enabled s'.mode .lru ∧
      (∀ k, (oneLine.lru.block k).sameMeta (s'.lru.block k)) ∧
      (let s'' : State := { oneLine with mode := .plruOnly, lru := State.reset.lru }
       enabled oneLine.mode .plru = enabled s''.mode .plru ∧
        ∀ k, (oneLine.plru.block k).sameMeta (s''.plru.block k)) := by
  exact ⟨rfl, rfl, rfl, rfl, ⟨_, rfl⟩, ⟨_, rfl⟩, rfl, fun _ => ⟨rfl, fun _ => ⟨rfl, rfl, rfl⟩⟩, rfl,
    fun _ => ⟨rfl, fun _ => ⟨rfl, rfl, rfl⟩⟩⟩

/-- `oneLine` with other values in the unoccupied way 3 of set 0. -/
def oneLineOther : State :=
  { oneLine with
    lru := oneLine.lru.setBlock 0 ((oneLine.lru.block 0).setLine 3 ⟨7, true, Vector.replicate 32 1, 9⟩)
    plru := oneLine.plru.setBlock 0 ((oneLine.plru.block 0).setLine 3 ⟨7, true, Vector.replicate 32 1, false⟩) }

/-- The step is an access that fills the next way of set 0; also a state at which the step stops. -/
theorem witness_UnoccupiedWaysAreNeverRead :
    SameButUnoccupied (present 0x0004040000000000#64 oneLine) (present 0x0004040000000000#64 oneLineOther) ∧
      (∃ t, step (present 0x0004040000000000#64 oneLine) = .next t) ∧
      step { oneLine with inputs := [.load 0#18 1#8] } = .fault .hostWroteMem := by
  have hocc : ∀ w : Fin 4, w ≠ 0 → (oneLine.lru.block 0).occupied w = false ∧ (oneLine.plru.block 0).occupied w = false := by
    decide
  refine ⟨⟨rfl, fun k => ?_, fun k => ?_, ?_⟩, ⟨_, rfl⟩, rfl⟩
  · by_cases hk : k = 0
    · subst hk
      refine ⟨rfl, fun w hw => ?_⟩
      have hw0 : w ≠ 3 := by rintro rfl; cases hw.symm.trans (hocc 3 (by decide)).1
      simp only [present, oneLineOther, setBlock_block_self, setLine_line, hw0, if_false]
    · simp only [present, oneLineOther, setBlock_block_ne _ _ hk]
      exact ⟨rfl, fun _ _ => rfl⟩
  · by_cases hk : k = 0
    · subst hk
      refine ⟨rfl, fun w hw => ?_⟩
      have hw0 : w ≠ 3 := by rintro rfl; cases hw.symm.trans (hocc 3 (by decide)).2
      simp only [present, oneLineOther, setBlock_block_self, setLine_line, hw0, if_false]
    · simp only [present, oneLineOther, setBlock_block_ne _ _ hk]
      exact ⟨rfl, fun _ _ => rfl⟩
  · decide

end Sys2Proof.Tests
end

section
/-! The statements about `MEM` (20_memory.md): reading back what a byte write and a line write-back stored. -/

namespace Sys2Proof.Machine

/-- Inside the written line: byte `k` of the payload (R39). -/
theorem read_memWrite_line {m : Memory} (h : m.wf = true) {a : Addr} (ha : a.toNat % 32 = 0) (v : Payload) (k : Nat)
    (hk : k < 32) : (memWrite m a v).read (a.toNat + k) = v[k] := by
  have hin : a.toNat ≤ a.toNat + k ∧ a.toNat + k < a.toNat + 32 := by omega
  rw [read_memWrite h ha, dif_pos hin]
  simp only [Nat.add_sub_cancel_left]

/-- The frame of `MemWrite`: outside the written line nothing changes (R39). -/
theorem read_memWrite_outside {m : Memory} (h : m.wf = true) {a : Addr} (ha : a.toNat % 32 = 0) (v : Payload) {b : Nat}
    (hb : b < a.toNat ∨ a.toNat + 32 ≤ b) : (memWrite m a v).read b = m.read b := by
  have hout : ¬(a.toNat ≤ b ∧ b < a.toNat + 32) := by omega
  rw [read_memWrite h ha, dif_neg hout]

/-- A fill read of the line just written back gives its payload (R38, R39). -/
theorem memRead_memWrite {m : Memory} (h : m.wf = true) {a : Addr} (ha : a.toNat % 32 = 0) (v : Payload) :
    memRead (memWrite m a v) a = v := by
  ext k hk
  rw [memRead_get, read_memWrite_line h ha v k hk]

/-- Settles O10, from the rules of the one-byte write. -/
theorem byteOfMemReadsAsLastWritten : Obligations.ByteOfMemReadsAsLastWritten := by
  intro m a v hwf ha
  exact ⟨Memory.write_wf hwf ha v, Memory.read_write hwf a v⟩

/-- Settles O11, from the rules of the line write inside the line and outside it. -/
theorem lineWriteSetsItsBytesOnly : Obligations.LineWriteSetsItsBytesOnly := by
  intro m a v hwf ha
  exact ⟨memWrite_wf hwf ha v, read_memWrite_line hwf ha v, fun _ hb => read_memWrite_outside hwf ha v hb,
    memRead_memWrite hwf ha v⟩

end Sys2Proof.Machine
end

section
/-! The invariant (10_state.md R25 to R28, R30 to R33): the clauses about the arrays, the counters and `MEM`, those
about the fault registers, and how every step keeps them (R90). -/

namespace Sys2Proof.Machine

/-! ### What every sub-access keeps of an array -/

/-- Occupancy and tags of every block of `ARR[LRU]` are legal and the ages of occupied ways fit their width
(R22, R25, R26). -/
abbrev LruSound (ageW : Option Nat) (arr : CacheArray Nat) : Prop :=
  ∀ k : Index, ((arr.block k).occ ≤ 4 ∧ (arr.block k).tagsDistinct) ∧
    ∀ w, (arr.block k).occupied w = true → fits ageW ((arr.block k).line w).recency

/-- Occupancy, tags and used bits of every block of `ARR[PLRU]` are legal (R25, R26, R28). -/
abbrev PlruSound (arr : CacheArray Bool) : Prop :=
  ∀ k : Index, ((arr.block k).occ ≤ 4 ∧ (arr.block k).tagsDistinct) ∧ (arr.block k).usedLegal

theorem byteAccess_lruSound {ageW : Option Nat} {arr : CacheArray Nat} (h : LruSound ageW arr) (x : SubAccess)
    (m : Memory) : LruSound ageW (byteAccess (lruOps ageW) x arr m).arr := fun k =>
  ⟨byteAccess_keeps_tags (lruOps_touchOnly ageW) x arr m k (h k).1,
    byteAccess_keeps_fits ageW x arr m k (h k).1.1 (h k).2⟩

theorem byteAccess_plruSound {arr : CacheArray Bool} (h : PlruSound arr) (x : SubAccess) (m : Memory) :
    PlruSound (byteAccess plruOps x arr m).arr := fun k =>
  ⟨byteAccess_keeps_tags plruOps_touchOnly x arr m k (h k).1, byteAccess_keeps_used x arr m k (h k).1.1 (h k).2⟩

/-! ### What a policy's turn keeps -/

theorem runLru_lruSound {s : State} (h : LruSound s.params.ageW s.lru) (xs : List SubAccess) :
    LruSound s.params.ageW (runLru xs s).state.lru := by
  unfold runLru
  split
  · exact drive_keeps (fun arr _ => LruSound s.params.ageW arr) xs (fun x _ _ m h => byteAccess_lruSound h x m) _ _ h
  · exact h

/-- A turn that is not cut short keeps the ages distinct (R27). -/
theorem runLru_agesDistinct {s : State} (h : LruSound s.params.ageW s.lru) (ha : ∀ k, (s.lru.block k).agesDistinct)
    {xs : List SubAccess} (hr : (runLru xs s).raised = false) (k : Index) :
    ((runLru xs s).state.lru.block k).agesDistinct := by
  unfold runLru at hr ⊢
  split
  · rename_i he
    simp only [he, if_true] at hr
    exact (drive_keeps_of_not_raised
      (fun arr _ => LruSound s.params.ageW arr ∧ ∀ k, (arr.block k).agesDistinct) xs
      (fun x _ arr m hP hx => ⟨byteAccess_lruSound hP.1 x m,
        fun k => byteAccess_keeps_ages _ x arr m hx k (hP.1 k).1.1 (hP.2 k)⟩) _ _ ⟨h, ha⟩ hr).2 k
  · exact ha k

theorem runPlru_plruSound {s : State} (h : PlruSound s.plru) (xs : List SubAccess) :
    PlruSound (runPlru xs s).state.plru := by
  unfold runPlru
  split
  · exact drive_keeps (fun arr _ => PlruSound arr) xs (fun x _ _ m h => byteAccess_plruSound h x m) _ _ h
  · exact h

/-- An array that is not enabled takes no part in a command (R109, R116). -/
theorem runLru_off {s : State} (h : enabled s.mode .lru = false) (xs : List SubAccess) :
    runLru xs s = { state := s, hit := false, bytes := [], raised := false } := by
  simp [runLru, h]

theorem runPlru_off {s : State} (h : enabled s.mode .plru = false) (xs : List SubAccess) :
    runPlru xs s = { state := s, hit := false, bytes := [], raised := false } := by
  simp [runPlru, h]

/-! ### The invariant in three parts -/

/-- The clauses of the invariant about `MEM`, the arrays and the counters, but for the distinct ages, which a fault in
the middle of a touch gives up. -/
structure DataSound (s : State) : Prop where
  memWf : s.mem.wf = true
  lru : LruSound s.params.ageW s.lru
  plru : PlruSound s.plru
  hitsLruLe : s.hitsLru ≤ s.requests
  hitsPlruLe : s.hitsPlru ≤ s.requests
  requestsFit : fits s.params.cntW s.requests
  lruDisabled : enabled s.mode .lru = false → s.hitsLru = 0 ∧ ∀ k : Index, (s.lru.block k).occ = 0
  plruDisabled : enabled s.mode .plru = false → s.hitsPlru = 0 ∧ ∀ k : Index, (s.plru.block k).occ = 0

/-- The clauses of the invariant about the fault registers and the mode. -/
structure RegistersSound (s : State) : Prop where
  errorIffCause : s.phase = .error ↔ s.cause ≠ .none
  infoZero : s.cause = .none ∨ s.cause = .configError → s.info = 0
  modeLegal : s.mode = .unrecognised → s.cause = .configError

theorem inv_iff {s : State} :
    Inv s ↔ DataSound s ∧ RegistersSound s ∧ (s.phase ≠ .error → ∀ k, (s.lru.block k).agesDistinct) := by
  constructor
  · intro h
    exact ⟨⟨h.memWf, fun k => ⟨h.lruBlocks k, h.agesFit k⟩, fun k => ⟨h.plruBlocks k, h.usedLegal k⟩, h.hitsLruLe,
      h.hitsPlruLe, h.requestsFit, h.lruDisabled, h.plruDisabled⟩, ⟨h.errorIffCause, h.infoZero, h.modeLegal⟩,
      h.agesDistinct⟩
  · rintro ⟨hd, hr, ha⟩
    exact ⟨hd.memWf, fun k => (hd.lru k).1, fun k => (hd.plru k).1, ha, fun k => (hd.lru k).2, fun k => (hd.plru k).2,
      hd.hitsLruLe, hd.hitsPlruLe, hd.requestsFit, hr.errorIffCause, hr.infoZero, hr.modeLegal, hd.lruDisabled,
      hd.plruDisabled⟩

theorem Inv.data {s : State} (h : Inv s) : DataSound s := (inv_iff.mp h).1

theorem Inv.registers {s : State} (h : Inv s) : RegistersSound s := (inv_iff.mp h).2.1

/-- Outside phase ERROR no cause is stored. -/
theorem RegistersSound.cause_none {s : State} (h : RegistersSound s) (hp : s.phase ≠ .error) : s.cause = .none :=
  not_not.mp fun hc => hp (h.errorIffCause.mpr hc)

/-- Outside phase ERROR the mode is a recognised one (R130). -/
theorem RegistersSound.mode_ne {s : State} (h : RegistersSound s) (hp : s.phase ≠ .error) : s.mode ≠ .unrecognised :=
  fun hm => by simpa [h.cause_none hp] using h.modeLegal hm

/-! ### Responses, host moves and faults -/

/-- The invariant says nothing about the host's ports. -/
theorem Inv.withPorts {s : State} (h : Inv s) (started : Bool) (inputs : List HostInput) (responses : List Response) :
    Inv { s with started := started, inputs := inputs, responses := responses } where
  __ := h

theorem Inv.respond {s : State} (h : Inv s) (r : Response) : Inv (s.respond r) := h.withPorts ..

theorem Inv.accept {s : State} (h : Inv s) : Inv s.accept := h.withPorts ..

theorem Inv.popInput {s : State} (h : Inv s) : Inv s.popInput := h.withPorts ..

/-- A state entered by a fault of a command satisfies the invariant as soon as its arrays and counters do (R137). -/
theorem DataSound.faulted {s : State} (h : DataSound s) (hm : s.mode ≠ .unrecognised) {c : Cause} (hc : c ≠ .none)
    (hc' : c ≠ .configError) (cw : Word) : Inv (faulted s c cw) := by
  have hregs : RegistersSound (Machine.faulted s c cw) :=
    ⟨⟨fun _ => hc, fun _ => rfl⟩, fun h => absurd h (by simp [Machine.faulted, hc, hc']), fun h => absurd h hm⟩
  exact inv_iff.mpr ⟨{ h with }, hregs, fun hp => absurd rfl hp⟩

theorem Inv.faulted {s : State} (h : Inv s) (hp : s.phase ≠ .error) {c : Cause} (hc : c ≠ .none)
    (hc' : c ≠ .configError) (cw : Word) : Inv (faulted s c cw) :=
  h.data.faulted (h.registers.mode_ne hp) hc hc' cw

theorem Inv.raiseFault {s : State} (h : Inv s) {c : Cause} (hc : c ≠ .none) (hc' : c ≠ .configError) (cw : Word) :
    Inv (raiseFault c cw s) := by
  by_cases hp : s.phase = .error
  · rw [raiseFault_of_error s c cw hp]
    exact h.respond _
  · rw [raiseFault_eq s c cw hp]
    exact h.faulted hp hc hc' cw

/-! ### Reset and the loads of `MEM` -/

@[simp] theorem atReset_occ {ρ : Type} (r : ρ) (k : Index) : ((CacheArray.atReset r).block k).occ = 0 := by
  rw [atReset_block]

@[simp] theorem atReset_occupied {ρ : Type} (r : ρ) (k : Index) (w : Fin 4) :
    ((CacheArray.atReset r).block k).occupied w = false := by
  simp [Block.occupied]

@[simp] theorem atReset_line {ρ : Type} (r : ρ) (k : Index) (w : Fin 4) :
    ((CacheArray.atReset r).block k).line w = Line.atReset r := by
  simp [atReset_block, Block.line]

theorem atReset_tagsDistinct {ρ : Type} (r : ρ) (k : Index) : ((CacheArray.atReset r).block k).tagsDistinct :=
  fun v _ hv => by simp at hv

theorem atReset_lruSound (ageW : Option Nat) : LruSound ageW (CacheArray.atReset 0) := fun k =>
  ⟨⟨by simp, atReset_tagsDistinct 0 k⟩, fun w hw => by simp at hw⟩

theorem atReset_plruSound : PlruSound (CacheArray.atReset false) := fun k =>
  ⟨⟨by simp, atReset_tagsDistinct false k⟩, fun w _ => by rw [atReset_line]; rfl, fun h => by simp at h⟩

theorem cleared_dataSound {s : State} (h : s.mem.wf = true) (m : Mode) : DataSound (s.cleared m) where
  memWf := h
  lru := atReset_lruSound _
  plru := atReset_plruSound
  hitsLruLe := le_rfl
  hitsPlruLe := le_rfl
  requestsFit := fits_zero _
  lruDisabled _ := by simp
  plruDisabled _ := by simp

/-- The state that a reset in a recognised mode leaves satisfies the invariant, whatever was before it. -/
theorem cleared_inv {s : State} (h : s.mem.wf = true) {m : Mode} (hm : m ≠ .unrecognised) : Inv (s.cleared m) :=
  inv_iff.mpr ⟨cleared_dataSound h m, ⟨by simp, fun _ => rfl, fun h => absurd h hm⟩,
    fun _ _ v _ hv => by simp at hv⟩

theorem resetRelease_inv {s : State} (h : s.mem.wf = true) (b : BitVec 2) : Inv (resetRelease b s) := by
  rw [resetRelease_eq]
  split
  · exact inv_iff.mpr ⟨{ cleared_dataSound h .unrecognised with }, ⟨by simp, fun _ => rfl, fun _ => rfl⟩,
      fun hp => absurd rfl hp⟩
  · rename_i hm
    exact cleared_inv h hm

/-- A change of `MEM` that keeps its canonical form keeps the invariant. -/
theorem Inv.withMem {s : State} (h : Inv s) {m : Memory} (hm : m.wf = true) : Inv { s with mem := m } where
  __ := h
  memWf := hm

theorem Inv.load {s : State} (h : Inv s) (a : Addr) (v : Byte) : Inv (s.load a v) :=
  h.withMem (Memory.write_wf h.memWf a.isLt v)

/-! ### The commands -/

theorem DataSound.countRequest {s : State} (h : DataSound s) (hc : atLimit s.params.cntW s.requests = false) :
    DataSound s.countRequest where
  __ := h
  hitsLruLe := Nat.le_succ_of_le h.hitsLruLe
  hitsPlruLe := Nat.le_succ_of_le h.hitsPlruLe
  requestsFit := fits_succ h.requestsFit hc

theorem DataSound.runLru {s : State} (h : DataSound s) (hhits : s.hitsLru < s.requests) (xs : List SubAccess) :
    DataSound (runLru xs s).state where
  memWf := runLru_wf xs h.memWf
  lru := by simpa using runLru_lruSound h.lru xs
  plru := by simpa using h.plru
  hitsLruLe := by
    have := (Machine.runLru xs s).hit.toNat_le
    simp
    omega
  hitsPlruLe := by simpa using h.hitsPlruLe
  requestsFit := by simpa using h.requestsFit
  lruDisabled he := by
    rw [runLru_mode] at he
    rw [runLru_off he]
    exact h.lruDisabled he
  plruDisabled := by simpa using h.plruDisabled

theorem DataSound.runPlru {s : State} (h : DataSound s) (hhits : s.hitsPlru < s.requests) (xs : List SubAccess) :
    DataSound (runPlru xs s).state where
  memWf := runPlru_wf xs h.memWf
  lru := by simpa using h.lru
  plru := runPlru_plruSound h.plru xs
  hitsLruLe := by simpa using h.hitsLruLe
  hitsPlruLe := by
    have := (Machine.runPlru xs s).hit.toNat_le
    simp
    omega
  requestsFit := by simpa using h.requestsFit
  lruDisabled := by simpa using h.lruDisabled
  plruDisabled he := by
    rw [runPlru_mode] at he
    rw [runPlru_off he]
    exact h.plruDisabled he

/-- The execution of an admitted access keeps the invariant, whether AgeOverflow cuts it short or not (R90, R135). -/
theorem Inv.perform {s : State} (h : Inv s) (hrun : s.phase = .run)
    (hc : atLimit s.params.cntW s.requests = false) (cw : Word) (a : Addr) (n : Nat) (value : Option Data) :
    Inv (perform cw a n value s) := by
  have hne : s.phase ≠ .error := by simp [hrun]
  have hcount := h.data.countRequest hc
  have hlru : DataSound (afterLru a n value s).state := hcount.runLru (Nat.lt_succ_of_le h.hitsLruLe) _
  cases hr : (afterLru a n value s).raised with
  | true =>
    rw [perform_raised hr hne]
    exact hlru.faulted (by simpa using h.registers.mode_ne hne) (by decide) (by decide) cw
  | false =>
    rw [perform_done hr]
    have hplru : DataSound (afterPlru a n value s).state :=
      hlru.runPlru (by simpa using Nat.lt_succ_of_le h.hitsPlruLe) _
    have hages := runLru_agesDistinct hcount.lru (h.agesDistinct hne) hr
    refine Inv.respond (inv_iff.mpr ⟨hplru, ?_, fun _ k => by simpa using hages k⟩) _
    exact ⟨by simpa using h.errorIffCause, by simpa using h.infoZero, by simpa using h.modeLegal⟩

theorem Inv.handle {s : State} (h : Inv s) (cw : Word) (a : Addr) (n : Nat) (value : Option Data) :
    Inv (handle cw a n value s) := by
  cases hp : s.phase with
  | error =>
    rw [handle_of_error hp]
    exact h.respond _
  | done =>
    rw [handle_of_done hp]
    exact h.faulted (by simp [hp]) (by decide) (by decide) cw
  | run =>
    rcases handle_cases (cw := cw) (a := a) (n := n) (value := value) hp with e | e | ⟨-, hc, e⟩ <;> rw [e]
    · exact h.faulted (by simp [hp]) (by decide) (by decide) cw
    · exact h.faulted (by simp [hp]) (by decide) (by decide) cw
    · exact h.perform hp hc cw a n value

theorem drainBlock_wf {ρ : Type} {m : Memory} (h : m.wf = true) (B : Block ρ) (k : Index) :
    (drainBlock m B k).wf = true := by
  unfold drainBlock
  refine List.foldlRecOn (motive := fun m' : Memory => m'.wf = true) ways _ h fun m' hm' w _ => ?_
  split
  · exact memWrite_wf hm' (reconstruct_mod _ _) _
  · exact hm'

theorem drainArray_wf {ρ : Type} (arr : CacheArray ρ) {m : Memory} (h : m.wf = true) :
    (drainArray arr m).wf = true :=
  List.foldlRecOn (motive := fun m' : Memory => m'.wf = true) sets _ h fun _ hm' k _ =>
    drainBlock_wf hm' (arr.block k) k

theorem drainAll_wf {s : State} (h : s.mem.wf = true) : (drainAll s).wf = true := by
  have hlru : (if enabled s.mode .lru then drainArray s.lru s.mem else s.mem).wf = true := by
    split
    · exact drainArray_wf _ h
    · exact h
  unfold drainAll
  simp only
  split
  · exact drainArray_wf _ hlru
  · exact hlru

theorem Inv.flushed {s : State} (h : Inv s) (hrun : s.phase = .run) : Inv (flushed s) := by
  have hne : s.phase ≠ .error := by simp [hrun]
  obtain ⟨hdata, hregs, hages⟩ := inv_iff.mp (h.withMem (drainAll_wf h.memWf))
  have hcause := h.registers.cause_none hne
  have hdone : Inv { s with mem := drainAll s, phase := .done } :=
    inv_iff.mpr ⟨{ hdata with }, ⟨by simp [hcause], hregs.infoZero, hregs.modeLegal⟩, fun _ => hages hne⟩
  exact hdone.respond _

theorem exec_keeps_inv {i : Instr} {s t : State} (h : Inv s) (ht : exec i s = .next t) : Inv t := by
  cases i with
  | flush z a d =>
    cases ht
    split
    · exact h.respond _
    · rename_i hne
      split
      · exact h.raiseFault (by decide) (by decide) _
      · rename_i hnd
        exact h.flushed (by cases hp : s.phase <;> simp_all)
  | report z a d =>
    cases ht
    exact h.respond _
  | _ =>
    cases ht
    exact h.handle ..

theorem rejectWord_inv {s : State} (h : Inv s) (e : DecodeError) (cw : Word) : Inv (rejectWord e cw s) := by
  cases e with
  | illegalCommand => exact h.raiseFault (by decide) (by decide) cw
  | malformedEvent =>
    simp only [rejectWord]
    split <;> exact h.raiseFault (by decide) (by decide) cw

theorem runCommand_keeps_inv {cw : Word} {s t : State} (h : Inv s) (ht : runCommand cw s = .next t) : Inv t := by
  unfold runCommand at ht
  split at ht
  · exact exec_keeps_inv h ht
  · cases ht
    exact rejectWord_inv h _ cw

/-- Settles O54: one lemma for each move the host can make. -/
theorem everyStepKeepsTheInvariant : Obligations.EveryStepKeepsTheInvariant := by
  intro s t h ht
  cases hin : s.inputs with
  | nil =>
    simp only [step, hin] at ht
    cases ht
    exact h
  | cons move rest =>
    cases move with
    | command cw =>
      simp only [step, hin] at ht
      exact runCommand_keeps_inv h.accept ht
    | reset b =>
      simp only [step, hin] at ht
      cases ht
      exact resetRelease_inv (s := s.popInput) h.memWf b
    | load a v =>
      simp only [step, hin] at ht
      split at ht
      · cases ht
        exact h.popInput.load a v
      · cases ht

/-- Settles O53: `State.reset` is a cleared state in mode Both with an empty `MEM`. -/
theorem invariantHoldsAtReset : Obligations.InvariantHoldsAtReset :=
  cleared_inv (s := State.reset) reset_mem_wf (m := .both) (by decide)

/-- Settles O51, clause by clause. -/
theorem resetStateIsAsTheSpecSays : Obligations.ResetStateIsAsTheSpecSays := by
  refine ⟨fun k => ?_, fun k w => ?_, rfl, rfl, rfl, rfl, rfl, rfl, rfl, ?_⟩
  · exact ⟨atReset_occ 0 k, atReset_occ false k⟩
  · exact congrArg Line.recency (atReset_line false k w)
  · rw [resetRelease_eq]
    rfl

end Sys2Proof.Machine
end

section
/-! The clear-all of the pseudo-LRU policy (43_plru_policy.md R101, R102) and the hit rate the host forms (R124, R125). -/

namespace Sys2Proof.Machine

/-- A touch that turns a used bit off is one whose clear-all fires (R101). -/
theorem clearAllFires_of_cleared {B : Block Bool} {w v : Fin 4} (hv : (B.line v).recency = true)
    (hv' : ((plruTouch B w).line v).recency = false) : clearAllFires B w := by
  by_contra hc
  rw [plruTouch_line] at hv'
  by_cases hvw : v = w
  · simp [hvw] at hv'
  · simp [hvw, hc, hv] at hv'

/-- After a clear-all the touched way's bit alone is 1 (R101, R102). -/
theorem plruTouch_of_clearAllFires {B : Block Bool} {w : Fin 4} (hc : clearAllFires B w) (u : Fin 4) :
    ((plruTouch B w).line u).recency = decide (u = w) := by
  rw [plruTouch_line, if_pos hc]
  by_cases hu : u = w <;> simp [hu]

/-- In a block whose used bits are legal, set bits belong to occupied ways (R28 (a)). -/
theorem Block.usedLegal.lt_occ {B : Block Bool} (h : B.usedLegal) {u : Fin 4} (hu : (B.line u).recency = true) :
    u.val < B.occ := by
  rw [← occupied_iff]
  by_contra ho
  rw [h.1 u (by simpa using ho)] at hu
  cases hu

/-- If every way but `w` is occupied, and `w` is too or is the next free one, the block is full or lacks way 3 only. -/
theorem full_or_fourthFill {B : Block Bool} {w : Fin 4} (h4 : B.occ ≤ 4) (hw : w.val ≤ B.occ)
    (ho : ∀ u : Fin 4, u ≠ w → u.val < B.occ) : B.occ = 4 ∨ (B.occ = 3 ∧ w = 3) := by
  by_cases h3 : w = 3
  · subst h3
    have : (3 : Fin 4).val = 3 := rfl
    omega
  · have hlast : 3 < B.occ := ho 3 (Ne.symm h3)
    omega

/-- Settles O18: a clear-all needs the bits of all other ways, so they are occupied. -/
theorem clearAllFiresOnlyWhenBlockIsFull : Obligations.ClearAllFiresOnlyWhenBlockIsFull := by
  intro B w h4 hlegal hw ⟨v, hv, hv'⟩
  have hc := clearAllFires_of_cleared hv hv'
  exact ⟨full_or_fourthFill h4 hw fun u hu => hlegal.lt_occ (hc u hu), plruTouch_of_clearAllFires hc⟩

theorem Inv.hits_le {s : State} (h : Inv s) (P : Policy) : (reportRecord s).hits P ≤ s.requests := by
  cases P with
  | lru => exact h.hitsLruLe
  | plru => exact h.hitsPlruLe

/-- When a hit rate is formed, and which (R123 to R125). -/
theorem hitRate_eq (s : State) (P : Policy) :
    (reportRecord s).hitRate P =
      if s.phase ≠ .error ∧ 0 < s.requests ∧ enabled s.mode P = true
      then some ((100 * (reportRecord s).hits P : Nat) / (s.requests : Nat) : Rat) else none := by
  simp [ReportRecord.hitRate, reportRecord, and_assoc]

/-- Settles O36: the rate is a fraction of two counters of which the invariant orders the first below the second. -/
theorem hitRateIsAPercentage : Obligations.HitRateIsAPercentage := by
  intro s P h
  rw [hitRate_eq]
  constructor
  · intro q hq
    split at hq
    · rename_i hc
      obtain ⟨-, hpos, -⟩ := hc
      cases hq
      have hposQ : (0 : Rat) < s.requests := by exact_mod_cast hpos
      have hle : ((reportRecord s).hits P : Rat) ≤ s.requests := by exact_mod_cast h.hits_le P
      push_cast
      refine ⟨by positivity, ?_, div_mul_cancel₀ _ hposQ.ne'⟩
      rw [div_le_iff₀ hposQ]
      linarith
    · cases hq
  · simp only [ite_eq_right_iff, reduceCtorEq, imp_false, not_and_or, not_not, Nat.not_lt, Nat.le_zero,
      Bool.not_eq_true]
    tauto

end Sys2Proof.Machine
end

section
/-! Two runs of one event side by side: if each sub-access carries a relation between the two arrays and memories, and
the two results agree on hit, raise and byte, then so does the whole event (R109). -/

namespace Sys2Proof.Machine

variable {ρ : Type} {pol : PolicyOps ρ}

/-- Two sub-accesses, or two events, of the same outcome: they lead to related arrays and memories, and agree on the hit
flag, on the raise of AgeOverflow, and, up to `β`, on the bytes returned. -/
structure SubAgree (P : CacheArray ρ → Memory → CacheArray ρ → Memory → Prop) (β : Byte → Byte → Prop)
    (r r' : SubResult ρ) : Prop where
  related : P r.arr r.mem r'.arr r'.mem
  hit : r.hit = r'.hit
  raised : r.raised = r'.raised
  byte : r.raised = false → β r.byte r'.byte

structure DrivenAgree (P : CacheArray ρ → Memory → CacheArray ρ → Memory → Prop) (β : Byte → Byte → Prop)
    (d d' : Driven ρ) : Prop where
  related : P d.arr d.mem d'.arr d'.mem
  hit : d.hit = d'.hit
  raised : d.raised = d'.raised
  bytes : List.Forall₂ β d.bytes d'.bytes

theorem drive_agree {P : CacheArray ρ → Memory → CacheArray ρ → Memory → Prop} {β : Byte → Byte → Prop}
    (h : ∀ x arr m arr' m', P arr m arr' m' → SubAgree P β (byteAccess pol x arr m) (byteAccess pol x arr' m'))
    (xs : List SubAccess) {arr arr' : CacheArray ρ} {m m' : Memory} (h0 : P arr m arr' m') :
    DrivenAgree P β (drive pol xs arr m) (drive pol xs arr' m') := by
  induction xs generalizing arr arr' m m' with
  | nil => exact ⟨h0, rfl, rfl, .nil⟩
  | cons x xs ih =>
    obtain ⟨hrel, hhit, hraised, hbyte⟩ := h x arr m arr' m' h0
    cases hr : (byteAccess pol x arr m).raised with
    | true =>
      rw [drive_cons_raised x xs arr m hr, drive_cons_raised x xs arr' m' (hraised ▸ hr)]
      exact ⟨hrel, rfl, rfl, .nil⟩
    | false =>
      rw [drive_cons x xs arr m hr, drive_cons x xs arr' m' (hraised ▸ hr)]
      have hd := ih hrel
      exact ⟨hd.related, by simp only [hhit, hd.hit], hd.raised, .cons (hbyte hr) hd.bytes⟩

/-- Which ways are occupied is a matter of the occupancy counter alone (R18). -/
theorem occupied_congr {B B' : Block ρ} (h : B.occ = B'.occ) (w : Fin 4) : B.occupied w = B'.occupied w := by
  simp only [Block.occupied, h]

/-- The byte a sub-access that raises nothing returns: the written one, or the one of the line hit, or that of `MEM`
(R79, R80, R82). -/
theorem byteAccess_byte (hp : TouchOnly pol) (x : SubAccess) (arr : CacheArray ρ) (m : Memory)
    (h : (byteAccess pol x arr m).raised = false) :
    (byteAccess pol x arr m).byte = x.write.getD
      (match lookup (arr.block (decompose x.addr).index) (decompose x.addr).tag with
        | some w => (arr.block (decompose x.addr).index).byteAt w (decompose x.addr).offset
        | none => (memAfterEvict pol x arr m).read x.addr.toNat) := by
  rw [byteAccess_raised] at h
  cases hl : lookup (arr.block (decompose x.addr).index) (decompose x.addr).tag with
  | some w =>
    simp only [hl] at h
    rw [byteAccess_hit hl, hitAccess_eq _ _ _ _ h]
    exact hitBlock_byteAt hp ..
  | none =>
    simp only [hl] at h
    rw [byteAccess_miss hl, missAccess_eq hp _ _ _ h]
    exact missBlock_byteAt hp ..

end Sys2Proof.Machine
end

section
/-! The independence of the arrays (10_state.md R34): with unbounded ages, occupancy, tags, dirty flags, recency and hits
after a sub-access depend on nothing but the same before it. -/

namespace Sys2Proof.Machine

variable {ρ : Type} {pol : PolicyOps ρ} {room : Block ρ → Fin 4 → Prop} {after : Block ρ → Fin 4 → Fin 4 → ρ}

/-! ### The metadata of a block after a sub-access -/

/-- The dirty flag of every way after a sub-access that raises nothing: a hit keeps or sets that of its way, a miss gives
the way it takes a new one (R79, R80, R82). -/
theorem byteAccess_dirty (hp : TouchOnly pol) (x : SubAccess) (arr : CacheArray ρ) (m : Memory)
    (h : (byteAccess pol x arr m).raised = false) (v : Fin 4) :
    (((byteAccess pol x arr m).arr.block (decompose x.addr).index).line v).dirty =
      if v = accessWay pol (arr.block (decompose x.addr).index) (decompose x.addr).tag then
        (((lookup (arr.block (decompose x.addr).index) (decompose x.addr).tag).isSome &&
          ((arr.block (decompose x.addr).index).line v).dirty) || x.write.isSome)
      else ((arr.block (decompose x.addr).index).line v).dirty := by
  rw [byteAccess_block hp x arr m h]
  unfold accessWay
  cases hl : lookup (arr.block (decompose x.addr).index) (decompose x.addr).tag with
  | some w => simp [hitBlock_line hp]
  | none => simp [missBlock_line hp]

/-- The recency of every way after a sub-access, for a policy whose touch always has room (R94, R101). -/
theorem byteAccess_recency (hg : TouchGives pol room after) (hroom : ∀ B w, room B w) (x : SubAccess)
    (arr : CacheArray ρ) (m : Memory) (h : (byteAccess pol x arr m).raised = false) (v : Fin 4) :
    (((byteAccess pol x arr m).arr.block (decompose x.addr).index).line v).recency =
      after (arr.block (decompose x.addr).index)
        (accessWay pol (arr.block (decompose x.addr).index) (decompose x.addr).tag) v := by
  rw [byteAccess_block hg.toTouchOnly x arr m h]
  unfold accessWay
  cases hl : lookup (arr.block (decompose x.addr).index) (decompose x.addr).tag with
  | some w =>
    simp only [hitBlock_line hg.toTouchOnly, Option.getD_some]
    exact hg.recency _ _ _ (hroom _ _)
  | none =>
    simp only [missBlock_line hg.toTouchOnly, Option.getD_none]
    rw [hg.recency _ _ _ (hroom _ _)]
    exact (hg.congr _ _ _ (filledBlock_occ ..) (filledBlock_recency x _ _)).2 v

/-- A policy whose touch always has room never raises. -/
theorem byteAccess_not_raised (hg : TouchGives pol room after) (hroom : ∀ B w, room B w) (x : SubAccess)
    (arr : CacheArray ρ) (m : Memory) : (byteAccess pol x arr m).raised = false := by
  rw [byteAccess_raised]
  split <;> exact hg.raised _ _ (hroom _ _)

/-! ### What the choices of a sub-access depend on -/

/-- The victim is a function of the occupancy and the recency metadata (R95, R103). -/
def VictimFromRecency (pol : PolicyOps ρ) : Prop :=
  ∀ B B' : Block ρ, B.occ = B'.occ → (∀ w, (B.line w).recency = (B'.line w).recency) → pol.victim B = pol.victim B'

theorem lruOps_victimFromRecency (ageW : Option Nat) : VictimFromRecency (lruOps ageW) := by
  intro B B' hocc hrec
  have hoccupied := occupied_congr hocc
  have hmax : maxAge B = maxAge B' := by simp only [maxAge, hoccupied, hrec]
  simp only [lruOps, lruVictim, hoccupied, hmax, hrec]

theorem plruOps_victimFromRecency : VictimFromRecency plruOps := by
  intro B B' hocc hrec
  simp only [plruOps, plruVictim, occupied_congr hocc, hrec]

section Blocks

variable {B B' : Block ρ} (h : B.sameMeta B')

include h

theorem Block.sameMeta.occ : B.occ = B'.occ := h.1
theorem Block.sameMeta.tag (w : Fin 4) : (B.line w).tag = (B'.line w).tag := (h.2 w).1
theorem Block.sameMeta.dirty (w : Fin 4) : (B.line w).dirty = (B'.line w).dirty := (h.2 w).2.1
theorem Block.sameMeta.recency (w : Fin 4) : (B.line w).recency = (B'.line w).recency := (h.2 w).2.2

theorem Block.sameMeta.lookup (t : Tag) : lookup B t = lookup B' t := lookup_congr (occupied_congr h.occ) h.tag t

theorem Block.sameMeta.missWay (hv : VictimFromRecency pol) : missWay pol B = missWay pol B' := by
  simp only [Machine.missWay, h.occ, hv B B' h.occ h.recency]

theorem Block.sameMeta.accessWay (hv : VictimFromRecency pol) (t : Tag) : accessWay pol B t = accessWay pol B' t := by
  simp only [Machine.accessWay, h.lookup t, h.missWay hv]

end Blocks

/-! ### The sub-access and the event -/

/-- Two arrays agree on everything but payloads (R34). -/
abbrev SameMeta (arr arr' : CacheArray ρ) : Prop := ∀ k : Index, (arr.block k).sameMeta (arr'.block k)

theorem byteAccess_sameMeta (hg : TouchGives pol room after) (hroom : ∀ B w, room B w) (hv : VictimFromRecency pol)
    (x : SubAccess) {arr arr' : CacheArray ρ} (m m' : Memory) (h : SameMeta arr arr') :
    SameMeta (byteAccess pol x arr m).arr (byteAccess pol x arr' m').arr := by
  intro k
  by_cases hk : k = (decompose x.addr).index
  swap
  · rw [byteAccess_block_ne x arr m hk, byteAccess_block_ne x arr' m' hk]
    exact h k
  subst hk
  have hB := h (decompose x.addr).index
  have hr := byteAccess_not_raised hg hroom x arr m
  have hr' := byteAccess_not_raised hg hroom x arr' m'
  have hp := hg.toTouchOnly
  refine ⟨?_, fun v => ⟨?_, ?_, ?_⟩⟩
  · rw [byteAccess_occ hp, byteAccess_occ hp, hB.lookup, hB.occ, hr, hr']
  · rw [byteAccess_tag hp, byteAccess_tag hp, hB.lookup, hB.missWay hv, hB.tag]
  · rw [byteAccess_dirty hp x arr m hr, byteAccess_dirty hp x arr' m' hr', hB.accessWay hv, hB.lookup, hB.dirty]
  · rw [byteAccess_recency hg hroom x arr m hr, byteAccess_recency hg hroom x arr' m' hr', hB.accessWay hv]
    exact (hg.congr _ _ _ hB.occ hB.recency).2 v

/-- The metadata and the hit flag of an event depend on the metadata before it alone (R34). -/
theorem drive_sameMeta (hg : TouchGives pol room after) (hroom : ∀ B w, room B w) (hv : VictimFromRecency pol)
    (xs : List SubAccess) {arr arr' : CacheArray ρ} (m m' : Memory) (h : SameMeta arr arr') :
    SameMeta (drive pol xs arr m).arr (drive pol xs arr' m').arr ∧
      (drive pol xs arr m).hit = (drive pol xs arr' m').hit := by
  have hstep : ∀ x (arr : CacheArray ρ) m arr' m', SameMeta arr arr' →
      SubAgree (fun arr _ arr' _ => SameMeta arr arr') (fun _ _ => True) (byteAccess pol x arr m)
        (byteAccess pol x arr' m') := fun x arr m arr' m' h =>
    { related := byteAccess_sameMeta hg hroom hv x m m' h
      hit := by rw [byteAccess_hit_eq, byteAccess_hit_eq, (h _).lookup]
      raised := by rw [byteAccess_not_raised hg hroom, byteAccess_not_raised hg hroom]
      byte := fun _ => trivial }
  have hd := drive_agree hstep xs (m := m) (m' := m') h
  exact ⟨hd.related, hd.hit⟩

/-! ### The turns of the two policies -/

theorem touchRoom_none (B : Block Nat) (w : Fin 4) : touchRoom none B w :=
  not_ageBlocked_iff.mp (not_ageBlocked_none B w)

/-- With unbounded ages an event in range is never cut short (R97). -/
theorem afterLru_not_raised {s : State} (h : s.params.ageW = none) {a : Addr} {n : Nat} (hr : a.toNat + n ≤ 262144)
    (hn : n ≤ 4) (value : Option Data) : (afterLru a n value s).raised = false :=
  AgeRoom.not_raised (fun _ w hw => by simp [h] at hw) hr hn

theorem runLru_sameMeta {s s' : State} (hage : s.params.ageW = none) (hparams : s.params = s'.params)
    (hen : enabled s.mode .lru = enabled s'.mode .lru) (h : SameMeta s.lru s'.lru) (xs : List SubAccess) :
    SameMeta (runLru xs s).state.lru (runLru xs s').state.lru ∧ (runLru xs s).hit = (runLru xs s').hit := by
  cases he : enabled s.mode .lru with
  | false =>
    rw [runLru_off he, runLru_off (hen ▸ he)]
    exact ⟨h, rfl⟩
  | true =>
    simp only [runLru, he, ← hen, if_true, ← hparams, hage]
    exact drive_sameMeta (lruOps_gives none) touchRoom_none (lruOps_victimFromRecency none) xs _ _ h

theorem runPlru_sameMeta {s s' : State} (hen : enabled s.mode .plru = enabled s'.mode .plru)
    (h : SameMeta s.plru s'.plru) (xs : List SubAccess) :
    SameMeta (runPlru xs s).state.plru (runPlru xs s').state.plru ∧ (runPlru xs s).hit = (runPlru xs s').hit := by
  cases he : enabled s.mode .plru with
  | false =>
    rw [runPlru_off he, runPlru_off (hen ▸ he)]
    exact ⟨h, rfl⟩
  | true =>
    simp only [runPlru, he, ← hen, if_true]
    exact drive_sameMeta plruOps_gives (fun _ _ => trivial) plruOps_victimFromRecency xs _ _ h

/-! ### The commands -/

/-- What R34 says of one command run from `s` to `t` and from `s'` to `t'`. -/
structure ArraysIndependent (s s' t t' : State) : Prop where
  lru : enabled s.mode .lru = enabled s'.mode .lru → SameMeta s.lru s'.lru →
    SameMeta t.lru t'.lru ∧ t.hitsLru + s'.hitsLru = t'.hitsLru + s.hitsLru
  plru : enabled s.mode .plru = enabled s'.mode .plru → SameMeta s.plru s'.plru →
    SameMeta t.plru t'.plru ∧ t.hitsPlru + s'.hitsPlru = t'.hitsPlru + s.hitsPlru
  phase : t.phase = t'.phase
  requests : t.requests = t'.requests

/-- A command that leaves the arrays and the counters alone: every one but an access that is performed. -/
structure LeavesArrays (s t : State) : Prop where
  lru : t.lru = s.lru
  plru : t.plru = s.plru
  hitsLru : t.hitsLru = s.hitsLru
  hitsPlru : t.hitsPlru = s.hitsPlru
  requests : t.requests = s.requests

theorem respond_leavesArrays (s : State) (r : Response) : LeavesArrays s (s.respond r) := ⟨rfl, rfl, rfl, rfl, rfl⟩

theorem faulted_leavesArrays (s : State) (c : Cause) (cw : Word) : LeavesArrays s (faulted s c cw) :=
  ⟨rfl, rfl, rfl, rfl, rfl⟩

theorem flushed_leavesArrays (s : State) : LeavesArrays s (flushed s) := ⟨rfl, rfl, rfl, rfl, rfl⟩

theorem LeavesArrays.independent {s s' t t' : State} (h : LeavesArrays s t) (h' : LeavesArrays s' t')
    (hphase : t.phase = t'.phase) (hreq : s.requests = s'.requests) : ArraysIndependent s s' t t' where
  lru _ hm := by rw [h.lru, h'.lru, h.hitsLru, h'.hitsLru]; exact ⟨hm, Nat.add_comm ..⟩
  plru _ hm := by rw [h.plru, h'.plru, h.hitsPlru, h'.hitsPlru]; exact ⟨hm, Nat.add_comm ..⟩
  phase := hphase
  requests := by rw [h.requests, h'.requests, hreq]

section Runs

variable {s s' : State} (hphase : s.phase = s'.phase) (hparams : s.params = s'.params)
  (hreq : s.requests = s'.requests) (hage : s.params.ageW = none)

include hphase hparams hreq hage

theorem perform_independent {a : Addr} {n : Nat} (hr : a.toNat + n ≤ 262144) (hn : n ≤ 4) (cw : Word)
    (value : Option Data) : ArraysIndependent s s' (perform cw a n value s) (perform cw a n value s') := by
  rw [perform_done (afterLru_not_raised hage hr hn value),
    perform_done (afterLru_not_raised (hparams ▸ hage) hr hn value)]
  refine ⟨fun hen hm => ?_, fun hen hm => ?_, by simpa using hphase, by simpa using hreq⟩
  · obtain ⟨hmeta, hhit⟩ := runLru_sameMeta (s := s.countRequest) (s' := s'.countRequest) hage hparams hen hm
      (subAccesses a n value)
    refine ⟨by simpa using hmeta, ?_⟩
    simp [hhit]
    omega
  · obtain ⟨hmeta, hhit⟩ := runPlru_sameMeta (s := (afterLru a n value s).state)
      (s' := (afterLru a n value s').state) (by simpa using hen) (by simpa using hm) (subAccesses a n value)
    refine ⟨by simpa using hmeta, ?_⟩
    simp [hhit]
    omega

theorem handle_independent (cw : Word) (a : Addr) {n : Nat} (hn : n ≤ 4) (value : Option Data) :
    ArraysIndependent s s' (handle cw a n value s) (handle cw a n value s') := by
  have hfault : ∀ c, ArraysIndependent s s' (faulted s c cw) (faulted s' c cw) := fun c =>
    (faulted_leavesArrays s c cw).independent (faulted_leavesArrays s' c cw) rfl hreq
  cases hp : s.phase with
  | error =>
    rw [handle_of_error hp, handle_of_error (hphase ▸ hp)]
    exact (respond_leavesArrays ..).independent (respond_leavesArrays ..) hphase hreq
  | done =>
    rw [handle_of_done hp, handle_of_done (hphase ▸ hp)]
    exact hfault .protocol
  | run =>
    by_cases hr : a.toNat + n ≤ 262144
    swap
    · rw [handle_of_range hp hr, handle_of_range (hphase ▸ hp) hr]
      exact hfault .addressRange
    cases hc : atLimit s.params.cntW s.requests with
    | true =>
      rw [handle_of_counter hp hr hc, handle_of_counter (hphase ▸ hp) hr (hparams ▸ hreq ▸ hc)]
      exact hfault .counterOverflow
    | false =>
      rw [handle_of_passed hp hr hc, handle_of_passed (hphase ▸ hp) hr (hparams ▸ hreq ▸ hc)]
      exact perform_independent hphase hparams hreq hage hr hn cw value

theorem exec_independent (i : Instr) {t t' : State} (ht : exec i s = .next t) (ht' : exec i s' = .next t') :
    ArraysIndependent s s' t t' := by
  cases hi : accessOf i with
  | some op =>
    obtain ⟨a, n, value⟩ := op
    rw [exec_of_access hi] at ht ht'
    cases ht
    cases ht'
    exact handle_independent hphase hparams hreq hage _ a (by have := accessOf_size hi; omega) value
  | none =>
    cases i with
    | flush z a d =>
      cases ht
      cases ht'
      rw [← hphase]
      cases hp : s.phase with
      | error => exact (respond_leavesArrays ..).independent (respond_leavesArrays ..) hphase hreq
      | done =>
        simp only [reduceCtorEq, if_false, if_true]
        rw [raiseFault_eq s _ _ (by simp [hp]), raiseFault_eq s' _ _ (by simp [← hphase, hp])]
        exact (faulted_leavesArrays ..).independent (faulted_leavesArrays ..) rfl hreq
      | run => exact (flushed_leavesArrays s).independent (flushed_leavesArrays s') rfl hreq
    | report z a d =>
      cases ht
      cases ht'
      exact (respond_leavesArrays ..).independent (respond_leavesArrays ..) hphase hreq
    | _ => simp [accessOf] at hi

end Runs

/-- Settles O55: only an access that is performed touches the arrays, and each turn of it reads its own array's metadata
alone. -/
theorem arraysDoNotInfluenceEachOther : Obligations.ArraysDoNotInfluenceEachOther := by
  intro i s s' t t' hphase hparams hreq hage ht ht'
  have h := exec_independent hphase hparams hreq hage i ht ht'
  exact ⟨⟨h.lru, h.plru⟩, h.phase, h.requests⟩

end Sys2Proof.Machine
end

section
/-! The unspecified fields of unoccupied ways (10_state.md R149): no operation reads them, so two states that differ only
there stay so (R90). -/

namespace Sys2Proof.Machine

variable {ρ : Type} {pol : PolicyOps ρ} {E : ρ → ρ → Prop}

/-! ### Blocks that agree where they are occupied -/

/-- Two blocks agree on the occupancy and on every occupied way, and `E` holds of the recency metadata of all ways: what
is known of the unoccupied ones, nothing for an age (R149) and equality for a used bit (R35). -/
structure Block.SameUpTo (E : ρ → ρ → Prop) (B B' : Block ρ) : Prop where
  occ : B.occ = B'.occ
  line : ∀ w, B.occupied w = true → B.line w = B'.line w
  recency : ∀ w, E (B.line w).recency (B'.line w).recency

namespace Block.SameUpTo

variable {B B' : Block ρ}

/-- Where every way is occupied there is nothing to differ in. -/
theorem eq_of_full (h : B.SameUpTo E B') (h4 : ¬B.occ < 4) : B = B' :=
  Block.ext_line h.occ fun w => h.line w ((occupied_iff _ _).mpr (by omega))

theorem setLine (h : B.SameUpTo E B') {w : Fin 4} {l l' : Line ρ} (hl : B.occupied w = true → l = l')
    (hE : E l.recency l'.recency) : (B.setLine w l).SameUpTo E (B'.setLine w l') where
  occ := h.occ
  line v hv := by
    rw [setLine_line, setLine_line]
    by_cases hvw : v = w
    · subst hvw
      simpa using hl hv
    · simpa only [if_neg hvw] using h.line v hv
  recency v := by
    rw [setLine_line, setLine_line]
    by_cases hvw : v = w
    · simpa only [if_pos hvw] using hE
    · simpa only [if_neg hvw] using h.recency v

theorem setRecency (h : B.SameUpTo E B') (w : Fin 4) {r : ρ} (hr : E r r) :
    (B.setRecency w r).SameUpTo E (B'.setRecency w r) :=
  h.setLine (fun ho => by rw [h.line w ho]) hr

/-- Lookup reads occupied ways only (R18, R77). -/
theorem lookup (h : B.SameUpTo E B') (t : Tag) : lookup B t = lookup B' t := by
  have hmatch : ∀ w, (B.occupied w && (B.line w).tag == t) = (B'.occupied w && (B'.line w).tag == t) := by
    intro w
    rw [← occupied_congr h.occ w]
    cases ho : B.occupied w with
    | false => rfl
    | true => rw [h.line w ho]
  simp only [Machine.lookup, hmatch]

/-- The way a miss takes: the occupancy names it, or the block is full (R81, R83). -/
theorem missWay (h : B.SameUpTo E B') : missWay pol B = missWay pol B' := by
  by_cases h4 : B.occ < 4
  · apply Fin.ext
    rw [missWay_val h4, missWay_val (h.occ ▸ h4), h.occ]
  · rw [h.eq_of_full h4]

/-- An eviction reads the block only when it is full (R83). -/
theorem evict (h : B.SameUpTo E B') (m : Memory) (k : Index) (w : Fin 4) : evict m B k w = evict m B' k w := by
  by_cases h4 : B.occ < 4
  · simp [Machine.evict, h4, ← h.occ]
  · rw [h.eq_of_full h4]

/-- FLUSH writes back occupied ways only (R120). -/
theorem drainBlock (h : B.SameUpTo E B') (m : Memory) (k : Index) : drainBlock m B k = drainBlock m B' k := by
  have hturn : ∀ (m' : Memory) (w : Fin 4),
      (if B.occupied w && (B.line w).dirty then writeBack m' B k w else m') =
        if B'.occupied w && (B'.line w).dirty then writeBack m' B' k w else m' := by
    intro m' w
    rw [← occupied_congr h.occ w]
    cases ho : B.occupied w with
    | false => simp only [Bool.false_and, Bool.false_eq_true, if_false]
    | true => simp only [writeBack, h.line w ho]
  simp only [Machine.drainBlock, hturn]

end Block.SameUpTo

/-! ### The touches -/

/-- Two touches of the same outcome. -/
structure Touched.SameUpTo (E : ρ → ρ → Prop) (t t' : Touched ρ) : Prop where
  raised : t.raised = t'.raised
  block : t.block.SameUpTo E t'.block

/-- A policy's touch reads no unspecified field, and the recency it gives the touched way, when it raises nothing, does
not depend on any: that way may be the one being filled, unoccupied until then (R82). -/
structure TouchBlind (pol : PolicyOps ρ) (E : ρ → ρ → Prop) : Prop extends TouchOnly pol where
  touch : ∀ {B B' : Block ρ}, B.SameUpTo E B' → ∀ w, (pol.touch B w).SameUpTo E (pol.touch B' w)
  fresh : ∀ (B B' : Block ρ) (w : Fin 4), (pol.touch B w).raised = false → (pol.touch B' w).raised = false →
    ((pol.touch B w).block.line w).recency = ((pol.touch B' w).block.line w).recency

/-- Nothing is known of the ages of unoccupied ways (R149). -/
abbrev AnyAge : Nat → Nat → Prop := fun _ _ => True

theorem lruAgeOne_sameUpTo (ageW : Option Nat) (w : Fin 4) {t t' : Touched Nat} (h : t.SameUpTo AnyAge t') (v : Fin 4) :
    (lruAgeOne ageW w t v).SameUpTo AnyAge (lruAgeOne ageW w t' v) := by
  unfold lruAgeOne
  rw [← h.raised, ← occupied_congr h.block.occ v]
  split
  · exact h
  · split
    · rename_i hv
      rw [← h.block.line v hv.2]
      split
      · exact ⟨rfl, h.block⟩
      · exact ⟨rfl, h.block.setRecency v trivial⟩
    · exact h

theorem lruTouch_sameUpTo (ageW : Option Nat) {B B' : Block Nat} (h : B.SameUpTo AnyAge B') (w : Fin 4) :
    (lruTouch ageW B w).SameUpTo AnyAge (lruTouch ageW B' w) := by
  have hloop : ∀ (vs : List (Fin 4)) (t t' : Touched Nat), t.SameUpTo AnyAge t' →
      (vs.foldl (lruAgeOne ageW w) t).SameUpTo AnyAge (vs.foldl (lruAgeOne ageW w) t') := by
    intro vs
    induction vs with
    | nil => exact fun _ _ ht => ht
    | cons v vs ih => exact fun t t' ht => ih _ _ (lruAgeOne_sameUpTo ageW w ht v)
  have ht := hloop ways _ _ (⟨rfl, h⟩ : Touched.SameUpTo AnyAge ⟨B, false⟩ ⟨B', false⟩)
  unfold lruTouch
  simp only [← ht.raised]
  split
  · exact ht
  · exact ⟨rfl, ht.block.setRecency w trivial⟩

theorem lruOps_blind (ageW : Option Nat) : TouchBlind (lruOps ageW) AnyAge where
  toTouchOnly := lruOps_touchOnly ageW
  touch h w := lruTouch_sameUpTo ageW h w
  fresh B B' w hr hr' := by
    have hzero : ∀ B, (lruTouch ageW B w).raised = false → ((lruTouch ageW B w).block.line w).recency = 0 :=
      fun B hr => ((lruTouch_spec ageW B w).2.2.2.2 hr w).trans (if_pos rfl)
    exact (hzero B hr).trans (hzero B' hr').symm

theorem plruTouch_sameUpTo {B B' : Block Bool} (h : B.SameUpTo Eq B') (w : Fin 4) :
    (plruTouch B w).SameUpTo Eq (plruTouch B' w) where
  occ := by simp [h.occ]
  line v hv := by
    have ho : B.occupied v = true := by simpa [Block.occupied] using hv
    simp only [plruTouch_line, clearAllFires, h.recency, h.line v ho]
  recency v := by simp only [plruTouch_line, clearAllFires, h.recency]

theorem plruOps_blind : TouchBlind plruOps Eq where
  toTouchOnly := plruOps_touchOnly
  touch h w := ⟨rfl, plruTouch_sameUpTo h w⟩
  fresh B B' w _ _ := by simp [plruOps, plruTouch_line]

/-! ### The sub-access and the event -/

/-- Two arrays whose blocks agree where they are occupied. -/
abbrev SameUpTo (E : ρ → ρ → Prop) (arr arr' : CacheArray ρ) : Prop :=
  ∀ k : Index, (arr.block k).SameUpTo E (arr'.block k)

section Blocks

variable {B B' : Block ρ} (h : B.SameUpTo E B')

include h

theorem filledBlock_sameUpTo (x : SubAccess) (m : Memory) :
    (filledBlock pol x B m).SameUpTo E (filledBlock pol x B' m) := by
  unfold filledBlock
  rw [← h.missWay]
  exact h.setLine (fun ho => by rw [h.line _ ho]) (h.recency _)

theorem hitBlock_sameUpTo (hb : TouchBlind pol E) (x : SubAccess) (w : Fin 4) :
    (hitBlock pol x B w).SameUpTo E (hitBlock pol x B' w) := by
  have ht := (hb.touch h w).block
  refine ht.setLine (fun ho => by rw [ht.line w ho]) ?_
  simpa using ht.recency w

/-- After a miss the way it took is occupied, and holds the same in both blocks (R82). -/
theorem missBlock_sameUpTo (hb : TouchBlind pol E) (x : SubAccess) (m : Memory)
    (hr : (pol.touch (filledBlock pol x B m) (missWay pol B)).raised = false) :
    (missBlock pol x B m).SameUpTo E (missBlock pol x B' m) := by
  have ht := hb.touch (filledBlock_sameUpTo (pol := pol) h x m) (missWay pol B)
  have hw : missWay pol B = missWay pol B' := h.missWay
  refine ⟨by rw [missBlock_occ, missBlock_occ, h.occ], fun v hv => ?_, fun v => ?_⟩
  · by_cases h4 : B.occ < 4
    swap
    · rw [h.eq_of_full h4]
    rw [missBlock_line hb.toTouchOnly, missBlock_line hb.toTouchOnly, ← hw]
    by_cases hvw : v = missWay pol B
    · subst hvw
      simp only [if_true]
      rw [hb.fresh _ (filledBlock pol x B' m) _ hr (ht.raised ▸ hr)]
    · have ho : B.occupied v = true := ((missBlock_occupied x (by omega) m v).mp hv).resolve_right hvw
      have hrec := congrArg Line.recency (ht.block.line v (by simpa [Block.occupied, hb.occ] using ho))
      simp only [if_neg hvw, h.line v ho, hrec]
  · rw [missBlock_line hb.toTouchOnly, missBlock_line hb.toTouchOnly, ← hw]
    exact ht.block.recency v

end Blocks

/-- Two arrays whose blocks agree where they are occupied, with one `MEM` beside them. -/
abbrev SameArrays (E : ρ → ρ → Prop) (arr : CacheArray ρ) (m : Memory) (arr' : CacheArray ρ) (m' : Memory) : Prop :=
  SameUpTo E arr arr' ∧ m = m'

section Access

variable (hb : TouchBlind pol E) (x : SubAccess) {arr arr' : CacheArray ρ} (m : Memory) (h : SameUpTo E arr arr')

include h

theorem memAfterEvict_sameUpTo : memAfterEvict pol x arr m = memAfterEvict pol x arr' m := by
  have hB := h (decompose x.addr).index
  simp only [memAfterEvict, hB.missWay, hB.evict]

theorem byteAccess_mem_sameUpTo : (byteAccess pol x arr m).mem = (byteAccess pol x arr' m).mem := by
  rw [byteAccess_mem, byteAccess_mem, (h _).lookup, memAfterEvict_sameUpTo x m h]

include hb

theorem byteAccess_raised_sameUpTo : (byteAccess pol x arr m).raised = (byteAccess pol x arr' m).raised := by
  have hB := h (decompose x.addr).index
  rw [byteAccess_raised, byteAccess_raised, ← hB.lookup, ← memAfterEvict_sameUpTo x m h, ← hB.missWay]
  split
  · exact (hb.touch hB _).raised
  · exact (hb.touch (filledBlock_sameUpTo hB x _) _).raised

theorem byteAccess_sameUpTo : SameUpTo E (byteAccess pol x arr m).arr (byteAccess pol x arr' m).arr := by
  intro k
  by_cases hk : k = (decompose x.addr).index
  swap
  · rw [byteAccess_block_ne x arr m hk, byteAccess_block_ne x arr' m hk]
    exact h k
  subst hk
  have hB := h (decompose x.addr).index
  have hraised := byteAccess_raised_sameUpTo hb x m h
  cases hr : (byteAccess pol x arr m).raised with
  | true =>
    rw [byteAccess_block_raised x arr m hr, byteAccess_block_raised x arr' m (hraised ▸ hr), ← hB.lookup,
      ← memAfterEvict_sameUpTo x m h, ← hB.missWay]
    split
    · exact (hb.touch hB _).block
    · exact (hb.touch (filledBlock_sameUpTo hB x _) _).block
  | false =>
    rw [byteAccess_block hb.toTouchOnly x arr m hr, byteAccess_block hb.toTouchOnly x arr' m (hraised ▸ hr), ← hB.lookup,
      ← memAfterEvict_sameUpTo x m h]
    rw [byteAccess_raised] at hr
    cases hl : lookup (arr.block (decompose x.addr).index) (decompose x.addr).tag with
    | some w => exact hitBlock_sameUpTo hB hb x w
    | none =>
      simp only [hl] at hr
      exact missBlock_sameUpTo hB hb x _ hr

theorem byteAccess_byte_sameUpTo (hr : (byteAccess pol x arr m).raised = false) :
    (byteAccess pol x arr m).byte = (byteAccess pol x arr' m).byte := by
  have hB := h (decompose x.addr).index
  have hr' : (byteAccess pol x arr' m).raised = false := byteAccess_raised_sameUpTo hb x m h ▸ hr
  rw [byteAccess_byte hb.toTouchOnly x arr m hr, byteAccess_byte hb.toTouchOnly x arr' m hr', ← hB.lookup,
    ← memAfterEvict_sameUpTo x m h]
  cases hl : lookup (arr.block (decompose x.addr).index) (decompose x.addr).tag with
  | some w =>
    have ho := (lookup_eq_some.mp hl).1.1
    simp only [Block.byteAt, hB.line w ho]
  | none => rfl

theorem drive_sameUpTo (xs : List SubAccess) :
    DrivenAgree (SameArrays E) Eq (drive pol xs arr m) (drive pol xs arr' m) := by
  refine drive_agree (fun x arr m arr' m' => ?_) xs ⟨h, rfl⟩
  rintro ⟨h, rfl⟩
  exact
    { related := ⟨byteAccess_sameUpTo hb x m h, byteAccess_mem_sameUpTo x m h⟩
      hit := by rw [byteAccess_hit_eq, byteAccess_hit_eq, (h _).lookup]
      raised := byteAccess_raised_sameUpTo hb x m h
      byte := byteAccess_byte_sameUpTo hb x m h }

end Access

theorem drainArray_sameUpTo {arr arr' : CacheArray ρ} (h : SameUpTo E arr arr') (m : Memory) :
    drainArray arr m = drainArray arr' m := by
  have hblock := fun m k => (h k).drainBlock m k
  simp only [drainArray, hblock]

/-! ### States that differ in unspecified fields only -/

/-- The state with its two arrays replaced. -/
def State.withArrays (s : State) (L : CacheArray Nat) (P : CacheArray Bool) : State := { s with lru := L, plru := P }

theorem sameButUnoccupied_withArrays {s : State} {L : CacheArray Nat} {P : CacheArray Bool}
    (hL : SameUpTo AnyAge s.lru L) (hP : SameUpTo Eq s.plru P) : SameButUnoccupied s (s.withArrays L P) where
  registers := rfl
  lru k := ⟨(hL k).occ, (hL k).line⟩
  plru k := ⟨(hP k).occ, (hP k).line⟩
  used k := (hP k).recency

theorem SameButUnoccupied.exists_arrays {s s' : State} (h : SameButUnoccupied s s') :
    ∃ L P, s' = s.withArrays L P ∧ SameUpTo AnyAge s.lru L ∧ SameUpTo Eq s.plru P :=
  ⟨s'.lru, s'.plru, h.registers.symm, fun k => ⟨(h.lru k).1, (h.lru k).2, fun _ => trivial⟩,
    fun k => ⟨(h.plru k).1, (h.plru k).2, h.used k⟩⟩

theorem SameButUnoccupied.refl (s : State) : SameButUnoccupied s s :=
  sameButUnoccupied_withArrays (fun _ => ⟨rfl, fun _ _ => rfl, fun _ => trivial⟩)
    (fun _ => ⟨rfl, fun _ _ => rfl, fun _ => rfl⟩)

/-- An operation that neither reads nor writes the arrays. -/
def KeepsArrays (f : State → State) : Prop :=
  ∀ s L P, f (s.withArrays L P) = (f s).withArrays L P ∧ (f s).lru = s.lru ∧ (f s).plru = s.plru

theorem KeepsArrays.same {f : State → State} (hf : KeepsArrays f) {s s' : State} (h : SameButUnoccupied s s') :
    SameButUnoccupied (f s) (f s') := by
  obtain ⟨L, P, rfl, hL, hP⟩ := h.exists_arrays
  obtain ⟨hf, hlru, hplru⟩ := hf s L P
  rw [hf]
  exact sameButUnoccupied_withArrays (hlru ▸ hL) (hplru ▸ hP)

theorem respond_keepsArrays (r : Response) : KeepsArrays (State.respond · r) := fun _ _ _ => ⟨rfl, rfl, rfl⟩

theorem accept_keepsArrays : KeepsArrays State.accept := fun _ _ _ => ⟨rfl, rfl, rfl⟩

theorem countRequest_keepsArrays : KeepsArrays State.countRequest := fun _ _ _ => ⟨rfl, rfl, rfl⟩

theorem popInput_keepsArrays : KeepsArrays State.popInput := fun _ _ _ => ⟨rfl, rfl, rfl⟩

theorem popInput_load_keepsArrays (a : Addr) (v : Byte) : KeepsArrays fun s => s.popInput.load a v :=
  fun _ _ _ => ⟨rfl, rfl, rfl⟩

theorem answerInError_keepsArrays : KeepsArrays answerInError := fun _ _ _ => ⟨rfl, rfl, rfl⟩

theorem report_keepsArrays : KeepsArrays fun s => s.respond (.record (reportRecord s)) := fun _ _ _ => ⟨rfl, rfl, rfl⟩

theorem raiseFault_keepsArrays (c : Cause) (cw : Word) : KeepsArrays (raiseFault c cw) := by
  intro s L P
  by_cases hp : s.phase = .error
  · rw [raiseFault_of_error s c cw hp, raiseFault_of_error (s.withArrays L P) c cw hp]
    exact answerInError_keepsArrays s L P
  · rw [raiseFault_eq s c cw hp, raiseFault_eq (s.withArrays L P) c cw hp]
    exact ⟨rfl, rfl, rfl⟩

namespace SameButUnoccupied

theorem ite {c : Prop} [Decidable c] {t t' u u' : State} (ht : SameButUnoccupied t t') (hu : SameButUnoccupied u u') :
    SameButUnoccupied (if c then t else u) (if c then t' else u') := by
  by_cases hc : c
  · simpa only [if_pos hc] using ht
  · simpa only [if_neg hc] using hu

variable {s s' : State} (h : SameButUnoccupied s s')

include h

theorem params : s.params = s'.params := (congrArg State.params h.registers :)
theorem mode : s.mode = s'.mode := (congrArg State.mode h.registers :)
theorem requests : s.requests = s'.requests := (congrArg State.requests h.registers :)
theorem phase : s.phase = s'.phase := (congrArg State.phase h.registers :)
theorem started : s.started = s'.started := (congrArg State.started h.registers :)
theorem inputs : s.inputs = s'.inputs := (congrArg State.inputs h.registers :)

theorem respond (r : Response) : SameButUnoccupied (s.respond r) (s'.respond r) := (respond_keepsArrays r).same h

theorem raiseFault (c : Cause) (cw : Word) : SameButUnoccupied (raiseFault c cw s) (raiseFault c cw s') :=
  (raiseFault_keepsArrays c cw).same h

/-- A reset overwrites both arrays. -/
theorem resetRelease (b : BitVec 2) : resetRelease b s = resetRelease b s' := by
  obtain ⟨L, P, rfl, -, -⟩ := h.exists_arrays
  rfl

end SameButUnoccupied

/-! ### The commands and the step -/

/-- Two turns of the same outcome. -/
structure RanAgree (r r' : Ran) : Prop where
  state : SameButUnoccupied r.state r'.state
  hit : r.hit = r'.hit
  bytes : r.bytes = r'.bytes
  raised : r.raised = r'.raised

section Commands

variable {s s' : State} (h : SameButUnoccupied s s')

include h

theorem runLru_same (xs : List SubAccess) : RanAgree (runLru xs s) (runLru xs s') := by
  obtain ⟨L, P, rfl, hL, hP⟩ := h.exists_arrays
  cases he : enabled s.mode .lru with
  | false =>
    rw [runLru_off he, runLru_off (s := s.withArrays L P) he]
    exact ⟨h, rfl, rfl, rfl⟩
  | true =>
    obtain ⟨⟨harr, hmem⟩, hhit, hraised, hbytes⟩ := drive_sameUpTo (lruOps_blind s.params.ageW) s.mem hL xs
    simp only [runLru, State.withArrays, he, if_true, ← hmem, ← hhit]
    exact ⟨sameButUnoccupied_withArrays harr hP, rfl, List.forall₂_eq_eq_eq ▸ hbytes, hraised⟩

theorem runPlru_same (xs : List SubAccess) : RanAgree (runPlru xs s) (runPlru xs s') := by
  obtain ⟨L, P, rfl, hL, hP⟩ := h.exists_arrays
  cases he : enabled s.mode .plru with
  | false =>
    rw [runPlru_off he, runPlru_off (s := s.withArrays L P) he]
    exact ⟨h, rfl, rfl, rfl⟩
  | true =>
    obtain ⟨⟨harr, hmem⟩, hhit, hraised, hbytes⟩ := drive_sameUpTo plruOps_blind s.mem hP xs
    simp only [runPlru, State.withArrays, he, if_true, ← hmem, ← hhit]
    exact ⟨sameButUnoccupied_withArrays hL harr, rfl, List.forall₂_eq_eq_eq ▸ hbytes, hraised⟩

theorem perform_same (cw : Word) (a : Addr) (n : Nat) (value : Option Data) :
    SameButUnoccupied (perform cw a n value s) (perform cw a n value s') := by
  have hl := runLru_same (countRequest_keepsArrays.same h) (subAccesses a n value)
  have hp := runPlru_same hl.state (subAccesses a n value)
  unfold perform
  simp only
  rw [← hl.raised, ← hl.hit, ← hl.bytes, ← hp.hit, ← hp.bytes, ← hp.state.phase, ← h.mode]
  exact .ite (hl.state.raiseFault _ _) (hp.state.respond _)

theorem handle_same (cw : Word) (a : Addr) (n : Nat) (value : Option Data) :
    SameButUnoccupied (handle cw a n value s) (handle cw a n value s') := by
  unfold handle
  rw [← h.phase, ← h.params, ← h.requests]
  exact .ite (answerInError_keepsArrays.same h) (.ite (h.raiseFault _ _) (.ite (h.raiseFault _ _)
    (.ite (h.raiseFault _ _) (perform_same h cw a n value))))

theorem drainAll_same : drainAll s = drainAll s' := by
  obtain ⟨L, P, rfl, hL, hP⟩ := h.exists_arrays
  unfold drainAll
  simp only
  rw [drainArray_sameUpTo hL, drainArray_sameUpTo hP]
  rfl

theorem flushed_same : SameButUnoccupied (flushed s) (flushed s') := by
  have hdrain := drainAll_same h
  obtain ⟨L, P, rfl, hL, hP⟩ := h.exists_arrays
  unfold flushed
  rw [← hdrain]
  exact (sameButUnoccupied_withArrays (s := { s with mem := drainAll s, phase := .done }) hL hP).respond _

theorem exec_same (i : Instr) : ∃ t t', exec i s = .next t ∧ exec i s' = .next t' ∧ SameButUnoccupied t t' := by
  cases i with
  | flush z a d =>
    refine ⟨_, _, rfl, rfl, ?_⟩
    rw [← h.phase]
    exact .ite (answerInError_keepsArrays.same h) (.ite (h.raiseFault _ _) (flushed_same h))
  | report z a d => exact ⟨_, _, rfl, rfl, report_keepsArrays.same h⟩
  | _ => exact ⟨_, _, rfl, rfl, handle_same h _ _ _ _⟩

theorem rejectWord_same (e : DecodeError) (cw : Word) : SameButUnoccupied (rejectWord e cw s) (rejectWord e cw s') := by
  cases e with
  | illegalCommand => exact h.raiseFault .illegalCommand cw
  | malformedEvent =>
    simp only [rejectWord, ← h.phase]
    exact .ite (h.raiseFault _ _) (h.raiseFault _ _)

theorem runCommand_same (cw : Word) :
    ∃ t t', runCommand cw s = .next t ∧ runCommand cw s' = .next t' ∧ SameButUnoccupied t t' := by
  unfold runCommand
  split
  · exact exec_same h _
  · exact ⟨_, _, rfl, rfl, rejectWord_same h _ cw⟩

/-- Two steps from such states lead to such states, or both end in the model's one stop. -/
theorem step_same : (∃ t t', step s = .next t ∧ step s' = .next t' ∧ SameButUnoccupied t t') ∨
    (step s = .fault .hostWroteMem ∧ step s' = .fault .hostWroteMem) := by
  unfold step
  rw [← h.inputs]
  cases s.inputs with
  | nil => exact .inl ⟨_, _, rfl, rfl, h⟩
  | cons move rest =>
    cases move with
    | command cw => exact .inl (runCommand_same (accept_keepsArrays.same h) cw)
    | reset b =>
      refine .inl ⟨_, _, rfl, rfl, ?_⟩
      rw [(popInput_keepsArrays.same h).resetRelease b]
      exact .refl _
    | load a v =>
      have hload : s'.mayLoad = s.mayLoad := by simp only [State.mayLoad, h.started, h.phase]
      rw [hload]
      cases s.mayLoad with
      | true => exact .inl ⟨_, _, rfl, rfl, (popInput_load_keepsArrays a v).same h⟩
      | false => exact .inr ⟨rfl, rfl⟩

end Commands

/-- Settles O56: the two steps go hand in hand. -/
theorem unoccupiedWaysAreNeverRead : Obligations.UnoccupiedWaysAreNeverRead := by
  intro s s' h
  rcases step_same h with ⟨t, t', ht, ht', hsame⟩ | ⟨ht, ht'⟩
  · refine ⟨fun u hu => ?_, fun _ hf => ?_⟩
    · cases ht.symm.trans hu
      exact ⟨t', ht', hsame⟩
    · cases ht.symm.trans hf
  · refine ⟨fun u hu => ?_, fun f hf => ?_⟩
    · cases ht.symm.trans hu
    · cases ht.symm.trans hf
      exact ht'

end Sys2Proof.Machine
end

section
/-! Coherence at reset (20_memory.md R47, R151): empty arrays hold no line, so `MEM` itself is the true content. -/

namespace Sys2Proof.Machine

theorem atReset_lookup {ρ : Type} (r : ρ) (k : Index) (t : Tag) : lookup ((CacheArray.atReset r).block k) t = none :=
  lookup_eq_none.mpr fun v hv => by simp at hv

/-- Empty blocks agree with whatever `MEM` holds (R47, R148). -/
theorem atReset_coherent {ρ : Type} (r : ρ) (m : Memory) :
    CoherentArray (fun x => m.read x.toNat) (CacheArray.atReset r) m where
  payload a w hw := by simp [atReset_lookup] at hw
  clean _ _ := rfl

/-- Settles O32: whatever the mode, both arrays are empty and `MEM` is as before. -/
theorem resetStartsCoherent : Obligations.ResetStartsCoherent := by
  intro s modeIn
  rw [resetRelease_eq]
  split <;> exact ⟨fun _ => atReset_coherent 0 s.mem, fun _ => atReset_coherent false s.mem⟩

end Sys2Proof.Machine
end

section
/-! Coherence (20_memory.md R47): a completed access keeps every enabled array coherent with the true content, which a
WRITE replaces in its bytes, and a READ answers it (R41, R117). -/

namespace Sys2Proof.Machine

/-! ### The true content and the answer of one command -/

/-- The true content after an access command: a READ leaves it, a WRITE replaces its bytes (R41, R47). -/
def contentAfter (C : Addr → Byte) (a : Addr) (n : Nat) : Option Data → Addr → Byte
  | none => C
  | some d => contentAfterWrite C a n d

/-- What an access command answers on a flat memory of content `C` (R60). -/
def flatAnswer (C : Addr → Byte) (a : Addr) (n : Nat) : Option Data → Data
  | none => contentValue C a n
  | some _ => 0#32

theorem foldl_contentStep_subAccesses (C : Addr → Byte) {a : Addr} {n : Nat} (h : a.toNat + n ≤ 262144)
    (value : Option Data) : (subAccesses a n value).foldl contentStep C = contentAfter C a n value := by
  cases value with
  | none => exact foldl_contentStep_read C a n
  | some d => exact foldl_contentStep_write C a n d h

theorem subAccesses_read_write {a : Addr} {n : Nat} : ∀ x ∈ subAccesses a n none, x.write = none := by
  intro x hx
  obtain ⟨i, -, rfl⟩ := mem_subAccesses.mp hx
  rfl

/-- An event changes the true content of no address off its lines. -/
theorem contentAfter_of_not_onLine (C : Addr → Byte) {a : Addr} {n : Nat} (h : a.toNat + n ≤ 262144)
    {value : Option Data} {y : Addr} (hy : ∀ x ∈ subAccesses a n value, ¬onLine y x) :
    contentAfter C a n value y = C y := by
  rw [← foldl_contentStep_subAccesses C h]
  refine foldl_contentStep_of_ne _ C fun x hx e => hy x hx ?_
  rw [e]
  exact ⟨rfl, rfl⟩

/-! ### One policy's drive -/

/-- `MEM` changes only off the lines of the sub-accesses, and there to the true content: what the write-backs of an
event do (R84). -/
def PublishesOffLine (C : Addr → Byte) (xs : List SubAccess) (m m' : Memory) : Prop :=
  ∀ y : Addr, m'.read y.toNat = m.read y.toNat ∨ ((∀ x ∈ xs, ¬onLine y x) ∧ m'.read y.toNat = C y)

theorem PublishesOffLine.refl (C : Addr → Byte) (xs : List SubAccess) (m : Memory) : PublishesOffLine C xs m m :=
  fun _ => .inl rfl

/-- The other array, before its turn, stays coherent (R46, R47). -/
theorem PublishesOffLine.keeps_before {ρ : Type} {C : Addr → Byte} {xs : List SubAccess} {m m' : Memory}
    (h : PublishesOffLine C xs m m') {arr : CacheArray ρ} (hc : CoherentArray C arr m) : CoherentArray C arr m' :=
  hc.of_mem fun y => (h y).imp id And.right

/-- The other array, after its turn, stays coherent with the content the event leaves (R46, R47). -/
theorem PublishesOffLine.keeps_after {ρ : Type} {C : Addr → Byte} {a : Addr} {n : Nat} {value : Option Data}
    {m m' : Memory} (h : PublishesOffLine C (subAccesses a n value) m m') (hr : a.toNat + n ≤ 262144)
    {arr : CacheArray ρ} (hc : CoherentArray (contentAfter C a n value) arr m) :
    CoherentArray (contentAfter C a n value) arr m' :=
  hc.of_mem fun y => (h y).imp id fun ⟨hy, e⟩ => e.trans (contentAfter_of_not_onLine C hr hy).symm

/-- What a drive that is not cut short leaves of the coherence of its array, and of the bytes it returns (R47). -/
structure DriveCoherent {ρ : Type} (C : Addr → Byte) (a : Addr) (n : Nat) (value : Option Data) (m : Memory)
    (d : Driven ρ) : Prop where
  array : CoherentArray (contentAfter C a n value) d.arr d.mem
  mem : PublishesOffLine C (subAccesses a n value) m d.mem
  bytes : value = none → readData d.bytes = contentValue C a n

theorem drive_subAccesses_coherent {ρ : Type} {pol : PolicyOps ρ} (hp : TouchOnly pol) (hv : VictimOccupied pol)
    {C : Addr → Byte} {a : Addr} {n : Nat} {value : Option Data} {arr : CacheArray ρ} {m : Memory}
    (hr : a.toNat + n ≤ 262144) (hn : n ≤ 4) (hwf : m.wf = true)
    (hb : ∀ k : Index, (arr.block k).occ ≤ 4 ∧ (arr.block k).tagsDistinct) (hc : CoherentArray C arr m)
    (hraised : (drive pol (subAccesses a n value) arr m).raised = false) :
    DriveCoherent C a n value m (drive pol (subAccesses a n value) arr m) := by
  obtain ⟨harr, hmem, hbytes⟩ := drive_coherent hp hv (subAccesses a n value) (subAccesses a n value)
    (fun _ => id) (subAccesses_oneLine hr hn value) hwf hb hc hraised
  refine ⟨foldl_contentStep_subAccesses C hr value ▸ harr, hmem, ?_⟩
  rintro rfl
  rw [hbytes subAccesses_read_write]
  simp [contentValue, subAccesses, Function.comp_def]

/-! ### The two turns -/

theorem enabled_of_someEnabled {s : State} (h : someEnabled s) :
    enabled s.mode .lru = true ∨ enabled s.mode .plru = true := by
  cases hm : s.mode with
  | both => exact .inl rfl
  | lruOnly => exact .inl rfl
  | plruOnly => exact .inr rfl
  | unrecognised => exact absurd hm h

section Turns

variable {C : Addr → Byte} {s : State} {a : Addr} {n : Nat} {value : Option Data}
  (h : Inv s) (hc : Coherent C s) (hr : a.toNat + n ≤ 262144) (hn : n ≤ 4)

include h hc hr hn

theorem lruDrive_coherent (he : enabled s.mode .lru = true) (hraised : (afterLru a n value s).raised = false) :
    DriveCoherent C a n value s.mem (lruDrive a n value s) :=
  drive_subAccesses_coherent (lruOps_touchOnly _) (lruOps_victimOccupied _) hr hn h.memWf h.lruBlocks (hc.lru he)
    ((afterLru_on a n value he).2.2.2.2 ▸ hraised)

theorem afterLru_publishes (hraised : (afterLru a n value s).raised = false) :
    PublishesOffLine C (subAccesses a n value) s.mem (afterLru a n value s).state.mem := by
  cases he : enabled s.mode .lru with
  | true =>
    rw [(afterLru_on a n value he).2.1]
    exact (lruDrive_coherent h hc hr hn he hraised).mem
  | false =>
    rw [(afterLru_off a n value he).2.1]
    exact .refl _ _ _

theorem plruDrive_coherent (he : enabled s.mode .plru = true) (hraised : (afterLru a n value s).raised = false) :
    DriveCoherent C a n value (afterLru a n value s).state.mem (plruDrive a n value s) :=
  drive_subAccesses_coherent plruOps_touchOnly plruOps_victimOccupied hr hn (runLru_wf _ h.memWf) h.plruBlocks
    ((afterLru_publishes h hc hr hn hraised).keeps_before (hc.plru he)) (drive_plru_raised ..)

theorem afterPlru_publishes (hraised : (afterLru a n value s).raised = false) :
    PublishesOffLine C (subAccesses a n value) (afterLru a n value s).state.mem (afterPlru a n value s).state.mem := by
  cases he : enabled s.mode .plru with
  | true =>
    rw [(afterPlru_on a n value he).2.1]
    exact (plruDrive_coherent h hc hr hn he hraised).mem
  | false =>
    rw [(afterPlru_off a n value he).2.1]
    exact .refl _ _ _

/-- After both turns the arrays agree with the content the event leaves (R46, R47). -/
theorem afterPlru_coherent (hraised : (afterLru a n value s).raised = false) :
    Coherent (contentAfter C a n value) (afterPlru a n value s).state where
  lru he := by
    have he : enabled s.mode .lru = true := by simpa using he
    obtain ⟨hlru, hmem, -⟩ := afterLru_on a n value he
    have harr := (lruDrive_coherent h hc hr hn he hraised).array
    rw [← hmem] at harr
    rw [runPlru_lru, hlru]
    exact (afterPlru_publishes h hc hr hn hraised).keeps_after hr harr
  plru he := by
    have he : enabled s.mode .plru = true := by simpa using he
    obtain ⟨hplru, hmem, -⟩ := afterPlru_on a n value he
    rw [hplru, hmem]
    exact (plruDrive_coherent h hc hr hn he hraised).array

/-- `RDATA` of an access is what a flat memory answers, whichever array supplies it (R60, R117). -/
theorem accessData_coherent (hsome : someEnabled s) (hraised : (afterLru a n value s).raised = false) :
    accessData s.mode value (afterLru a n value s).bytes (afterPlru a n value s).bytes = flatAnswer C a n value := by
  cases value with
  | some d => rfl
  | none =>
    cases hl : enabled s.mode .lru with
    | true =>
      rw [(afterLru_on a n none hl).2.2.2.1]
      simpa [accessData, hl, flatAnswer] using (lruDrive_coherent h hc hr hn hl hraised).bytes rfl
    | false =>
      have hp := (enabled_of_someEnabled hsome).resolve_left (by simp [hl])
      rw [(afterPlru_on a n none hp).2.2.2]
      simpa [accessData, hl, flatAnswer] using (plruDrive_coherent h hc hr hn hp hraised).bytes rfl

end Turns

/-! ### The command -/

/-- What an execution that is not cut short leaves besides the arrays and `MEM`, and its response word (R61, R109). -/
theorem perform_accessDone {s : State} {cw : Word} {a : Addr} {n : Nat} {value : Option Data} (hrun : s.phase = .run)
    (hraised : (afterLru a n value s).raised = false) :
    AccessDone s (perform cw a n value s) (responseWord .none false .run (afterPlru a n value s).hit
      (afterLru a n value s).hit
      (accessData s.mode value (afterLru a n value s).bytes (afterPlru a n value s).bytes)) := by
  rw [perform_done hraised, hrun]
  have hbit : ∀ b : Bool, (BitVec.ofBool b).toNat = b.toNat := by decide
  constructor
  case lruDisabled =>
    intro he
    obtain ⟨hlru, -, hhit, -⟩ := afterLru_off a n value he
    exact ⟨by simpa using hlru, by simp [hhit]⟩
  case plruDisabled =>
    intro he
    obtain ⟨hplru, -, hhit, -⟩ := afterPlru_off a n value he
    exact ⟨by simpa using hplru, by simp [hhit]⟩
  all_goals simp [hbit, hrun, Cause.code, Phase.code]

/-- An admitted access with room for ages completes, answers what a flat memory answers and keeps the arrays coherent
(R41, R47, R117). -/
theorem exec_access_coherent {C : Addr → Byte} {i : Instr} {a : Addr} {n : Nat} {value : Option Data} {s : State}
    (hi : accessOf i = some (a, n, value)) (h : Inv s) (hc : Coherent C s) (ha : Admitted s a n)
    (hroom : AgeRoom s a n) :
    ∃ t rw, exec i s = .next t ∧ AccessDone s t rw ∧ (someEnabled s → rdataOf rw = flatAnswer C a n value) ∧
      Coherent (contentAfter C a n value) t := by
  have hn : n ≤ 4 := by have := accessOf_size hi; omega
  have hraised := hroom.not_raised (value := value) ha.inMem hn
  refine ⟨_, _, exec_of_access hi s, handle_of_admitted ha ▸ perform_accessDone ha.running hraised,
    fun hsome => ?_, ?_⟩
  · rw [rdataOf_responseWord]
    exact accessData_coherent h hc ha.inMem hn hsome hraised
  · rw [handle_of_admitted ha, perform_done hraised]
    obtain ⟨hlru, hplru⟩ := afterPlru_coherent h hc ha.inMem hn hraised
    exact ⟨hlru, hplru⟩

/-- Settles O29: the case of no write value. -/
theorem readReturnsTheTrueContent : Obligations.ReadReturnsTheTrueContent := by
  intro C i a n s hi h hc hsome ha hroom
  obtain ⟨t, rw, ht, hdone, hdata, hct⟩ := exec_access_coherent hi h hc ha hroom
  exact ⟨t, rw, ht, hdone, hdata hsome, hct⟩

/-- Settles O30: the case of a write value. -/
theorem writeReplacesTheTrueContent : Obligations.WriteReplacesTheTrueContent := by
  intro C i a n d s hi h hc ha hroom
  obtain ⟨t, rw, ht, hdone, -, hct⟩ := exec_access_coherent hi h hc ha hroom
  exact ⟨t, rw, ht, hdone, hct⟩

end Sys2Proof.Machine
end

section
/-! The engine as a flat memory (20_memory.md R45, R47, R51): one command is one step, which answers what the flat
memory answers, and a sequence of commands is a run of such steps. -/

namespace Sys2Proof.Machine

/-- The decoder reads back every instruction from its command word (R55, R64). -/
theorem decode_encode (i : Instr) : decode (encode i) = .ok i := by
  cases i <;> simp [encode, decode, decodeRead, decodeWrite]

/-- A command word on the port is run as the instruction it encodes (R54, R162). -/
theorem step_encode {s : State} {i : Instr} {rest : List HostInput} (h : s.inputs = .command (encode i) :: rest) :
    step s = exec i s.accept := by
  simp [step, h, runCommand, decode_encode]

theorem span_of_access {i : Instr} {a : Addr} {n : Nat} {value : Option Data} (h : accessOf i = some (a, n, value)) :
    i.span = some (a, n) := by
  cases i <;> simp_all [accessOf, Instr.span]

/-- The bytes of a well-formed access lie in `MEM` (R156). -/
theorem inMem_of_wellFormed {i : Instr} {a : Addr} {n : Nat} {value : Option Data}
    (h : accessOf i = some (a, n, value)) (hw : i.wellFormed = true) : a.toNat + n ≤ 262144 := by
  simpa [Instr.wellFormed, span_of_access h, Config.memSize] using hw

/-- One command on a flat memory: the content it leaves and the value it answers. -/
theorem flatRun_cons {i : Instr} {a : Addr} {n : Nat} {value : Option Data} (h : accessOf i = some (a, n, value))
    (C : Addr → Byte) (is : List Instr) :
    flatRun C (i :: is) = ((flatRun (contentAfter C a n value) is).1,
      flatAnswer C a n value :: (flatRun (contentAfter C a n value) is).2) := by
  cases value <;> simp [flatRun, h, contentAfter, flatAnswer]

/-- The machine stands for a flat memory of content `C` and can take any access: what every command of a sequence finds
and leaves. -/
structure StandsFor (C : Addr → Byte) (s : State) : Prop where
  inv : Inv s
  coherent : Coherent C s
  someEnabled : someEnabled s
  running : s.phase = .run
  params : s.params = Config.defaultParams

theorem StandsFor.accept {C : Addr → Byte} {s : State} (h : StandsFor C s) : StandsFor C s.accept where
  inv := h.inv.accept
  coherent := ⟨h.coherent.lru, h.coherent.plru⟩
  someEnabled := h.someEnabled
  running := h.running
  params := h.params

/-- With unbounded counters every access in range is admitted (R136). -/
theorem StandsFor.admitted {C : Addr → Byte} {s : State} (h : StandsFor C s) {a : Addr} {n : Nat}
    (ha : a.toNat + n ≤ 262144) : Admitted s a n where
  running := h.running
  inMem := ha
  counterRoom w hw := by simp [h.params, Config.defaultParams] at hw

/-- With unbounded ages there is always room (R97). -/
theorem StandsFor.ageRoom {C : Addr → Byte} {s : State} (h : StandsFor C s) (a : Addr) (n : Nat) : AgeRoom s a n :=
  fun _ w hw => by simp [h.params, Config.defaultParams] at hw

/-- One command of a sequence, run on a machine that stands for a flat memory: one response, the flat memory's answer,
and the machine stands for the flat memory after the command. -/
theorem StandsFor.step {C : Addr → Byte} {s : State} (h : StandsFor C s) {i : Instr} {a : Addr} {n : Nat}
    {value : Option Data} (hi : accessOf i = some (a, n, value)) (hw : i.wellFormed = true) {rest : List HostInput}
    (hin : s.inputs = .command (encode i) :: rest) :
    ∃ t rw, step s = .next t ∧ StandsFor (contentAfter C a n value) t ∧ t.inputs = rest ∧
      t.responses = s.responses ++ [.word rw] ∧ rdataOf rw = flatAnswer C a n value ∧ t.requests = s.requests + 1 := by
  have hs := h.accept
  obtain ⟨t, rw, ht, hdone, hdata, hct⟩ := exec_access_coherent hi hs.inv hs.coherent
    (hs.admitted (inMem_of_wellFormed hi hw)) (hs.ageRoom a n)
  refine ⟨t, rw, (step_encode hin).trans ht, ?_, ?_, hdone.response, hdata hs.someEnabled, hdone.requests⟩
  · refine ⟨exec_keeps_inv hs.inv ht, hct, ?_, hdone.phase, hdone.params.trans hs.params⟩
    rw [Machine.someEnabled, hdone.mode]
    exact hs.someEnabled
  · rw [hdone.inputs, accept_inputs, hin, List.tail_cons]

/-- A sequence of commands, run on a machine that stands for a flat memory, ends on one that stands for the flat memory
after the sequence, with one response per command, the flat memory's answers in order (R45). -/
theorem StandsFor.run {C : Addr → Byte} {s : State} (h : StandsFor C s) {is : List Instr} {rest : List HostInput}
    (his : ∀ i ∈ is, (accessOf i).isSome = true ∧ i.wellFormed = true)
    (hin : s.inputs = is.map (fun i => .command (encode i)) ++ rest) :
    ∃ t rs, Host.Core.run core is.length s = .next t ∧ StandsFor (flatRun C is).1 t ∧ t.inputs = rest ∧
      t.responses = s.responses ++ rs ∧ rs.map Response.rdata = (flatRun C is).2.map some ∧
      t.requests = s.requests + is.length := by
  induction is generalizing C s with
  | nil => exact ⟨s, [], rfl, h, hin, (List.append_nil _).symm, rfl, rfl⟩
  | cons i is ih =>
    obtain ⟨⟨hacc, hw⟩, his⟩ := List.forall_mem_cons.mp his
    obtain ⟨⟨a, n, value⟩, hi⟩ := Option.isSome_iff_exists.mp hacc
    obtain ⟨t, rw, ht, hst, hint, hrest, hdata, hreqt⟩ := h.step hi hw hin
    obtain ⟨u, rs, hu, hsu, hinu, hresu, hdatau, hrequ⟩ := ih hst his hint
    rw [flatRun_cons hi]
    refine ⟨u, .word rw :: rs, (run_of_step (M := core) ht is.length).trans hu, hsu, hinu, ?_, ?_, ?_⟩
    · rw [hresu, hrest, List.append_assoc, List.singleton_append]
    · rw [List.map_cons, List.map_cons, hdatau, ← hdata]
      rfl
    · rw [hrequ, hreqt, List.length_cons]
      omega

/-- Settles O33: the machine of its premises stands for the flat memory of content `C`. -/
theorem engineRefinesFlatMemory : Obligations.EngineRefinesFlatMemory := by
  intro is C s rest his hinv hc hsome hrun hparams hin
  have h : StandsFor C s := ⟨hinv, hc, hsome, hrun, hparams⟩
  obtain ⟨t, rs, ht, hst, hint, hres, hdata, hreq⟩ := h.run his hin
  exact ⟨t, rs, ht, hint, hres, hdata, hreq, hst.running, hst.coherent⟩

end Sys2Proof.Machine
end

section
/-! What FLUSH leaves in `MEM` (44_engine_commands.md R120 to R122, 20_memory.md R51): every line that an occupied dirty
way holds, and nothing else; from coherent arrays that is the true content everywhere. -/

namespace Sys2Proof.Machine

variable {ρ : Type}

/-! ### One byte through a fold of write-backs -/

/-- From `m` to `m'` the byte at `x` becomes `v` if `writes` holds and stays if not; the canonical form is kept. -/
structure SetsByte (x : Nat) (v : Byte) (writes : Prop) (m m' : Memory) : Prop where
  wf : m'.wf = true
  set : writes → m'.read x = v
  keep : ¬writes → m'.read x = m.read x

theorem SetsByte.congr {x : Nat} {v : Byte} {p q : Prop} {m m' : Memory} (h : SetsByte x v p m m') (hpq : p ↔ q) :
    SetsByte x v q m m' := propext hpq ▸ h

/-- If every turn of a fold sets the byte to the same value or leaves it, so does the fold. -/
theorem SetsByte.foldl {ι : Type} {f : Memory → ι → Memory} {writes : ι → Prop} {x : Nat} {v : Byte}
    (hf : ∀ m i, m.wf = true → SetsByte x v (writes i) m (f m i)) (l : List ι) {m : Memory} (h : m.wf = true) :
    SetsByte x v (∃ i ∈ l, writes i) m (l.foldl f m) := by
  induction l generalizing m with
  | nil => exact ⟨h, by simp, fun _ => rfl⟩
  | cons i l ih =>
    obtain ⟨hwf, hset, hkeep⟩ := hf m i h
    obtain ⟨hwf', hset', hkeep'⟩ := ih hwf
    refine ⟨hwf', fun hw => ?_, fun hw => ?_⟩
    · by_cases hl : ∃ j ∈ l, writes j
      · exact hset' hl
      · exact (hkeep' hl).trans (hset ((List.exists_mem_cons_iff ..).mp hw |>.resolve_right hl))
    · obtain ⟨hi, hl⟩ := not_or.mp ((List.exists_mem_cons_iff ..).not.mp hw)
      exact (hkeep' hl).trans (hkeep hi)

/-! ### The byte an array drains (R120, R121) -/

theorem mem_sets (k : Index) : k ∈ sets :=
  List.mem_map.mpr ⟨k.toNat, List.mem_range.mpr k.isLt, by simp⟩

/-- What one write-back leaves in `MEM`: the payload in its line, every other byte as before (R39, R84). -/
theorem read_writeBack {m : Memory} (h : m.wf = true) (B : Block ρ) (k : Index) (w : Fin 4) (x : Addr) :
    (writeBack m B k w).read x.toNat =
      if (decompose x).tag = (B.line w).tag ∧ (decompose x).index = k then B.byteAt w (decompose x).offset
      else m.read x.toNat := by
  unfold writeBack
  rw [read_memWrite h (reconstruct_mod _ _)]
  by_cases hx : (decompose x).tag = (B.line w).tag ∧ (decompose x).index = k
  · obtain ⟨ht, hk⟩ := hx
    rw [dif_pos ((inLine_reconstruct_iff _ _ x).mpr ⟨ht.symm ▸ rfl, hk⟩), if_pos ⟨ht, hk⟩]
    simp only [Block.byteAt, ← ht, ← hk, reconstruct_decompose, sub_lineBase]
  · rw [dif_neg fun hb => hx ((inLine_reconstruct_iff _ _ x).mp hb), if_neg hx]

section Drain

variable {arr : CacheArray ρ} {x : Addr} {v : Byte}
  (hv : ∀ w, flushes arr x w → (arr.block (decompose x).index).byteAt w (decompose x).offset = v)

include hv

/-- One way's turn of a drain. -/
theorem drainWay_setsByte (k : Index) (m : Memory) (w : Fin 4) (h : m.wf = true) :
    SetsByte x.toNat v ((decompose x).index = k ∧ flushes arr x w) m
      (if (arr.block k).occupied w && ((arr.block k).line w).dirty then writeBack m (arr.block k) k w else m) := by
  split
  · rename_i hd
    obtain ⟨ho, hd⟩ := (Bool.and_eq_true ..).mp hd
    refine ⟨memWrite_wf h (reconstruct_mod _ _) _, ?_, fun hn => ?_⟩
    · rintro ⟨rfl, hw⟩
      rw [read_writeBack h, if_pos ⟨hw.2.2.symm, rfl⟩, hv w hw]
    · rw [read_writeBack h, if_neg]
      rintro ⟨ht, rfl⟩
      exact hn ⟨rfl, ho, hd, ht.symm⟩
  · rename_i hd
    refine ⟨h, ?_, fun _ => rfl⟩
    rintro ⟨rfl, ho, hd', -⟩
    exact absurd ((Bool.and_eq_true ..).mpr ⟨ho, hd'⟩) hd

theorem drainBlock_setsByte (k : Index) (m : Memory) (h : m.wf = true) :
    SetsByte x.toNat v ((decompose x).index = k ∧ ∃ w, flushes arr x w) m (drainBlock m (arr.block k) k) :=
  (SetsByte.foldl (fun m w => drainWay_setsByte hv k m w) ways h).congr (by simp [mem_ways])

theorem drainArray_setsByte {m : Memory} (h : m.wf = true) :
    SetsByte x.toNat v (∃ w, flushes arr x w) m (drainArray arr m) :=
  (SetsByte.foldl (fun m k => drainBlock_setsByte hv k m) sets h).congr (by simp [mem_sets])

end Drain

/-- With distinct tags one way at most holds the line of an address (R26). -/
theorem flushes_unique {arr : CacheArray ρ} (hd : ∀ k, (arr.block k).tagsDistinct) {x : Addr} {v w : Fin 4}
    (hv : flushes arr x v) (hw : flushes arr x w) : v = w :=
  hd _ v w hv.1 hw.1 (hv.2.2.trans hw.2.2.symm)

/-- A byte whose line the array holds dirty is drained (R120). -/
theorem read_drainArray_of_flushes {arr : CacheArray ρ} {m : Memory} (h : m.wf = true)
    (hd : ∀ k, (arr.block k).tagsDistinct) {x : Addr} {w : Fin 4} (hw : flushes arr x w) :
    (drainArray arr m).read x.toNat = (arr.block (decompose x).index).byteAt w (decompose x).offset :=
  (drainArray_setsByte (fun _ hu => by rw [flushes_unique hd hu hw]) h).set ⟨w, hw⟩

/-- A byte whose line the array does not hold dirty stays (R120). -/
theorem read_drainArray_of_not_flushes {arr : CacheArray ρ} {m : Memory} (h : m.wf = true) {x : Addr}
    (hx : ¬∃ w, flushes arr x w) : (drainArray arr m).read x.toNat = m.read x.toNat :=
  (drainArray_setsByte (v := 0) (fun w hw => absurd ⟨w, hw⟩ hx) h).keep hx

/-! ### Draining coherent arrays -/

/-- A resident dirty line is one FLUSH writes back. -/
theorem residentDirty_of_not_flushes {arr : CacheArray ρ} {x : Addr} (hx : ¬∃ w, flushes arr x w) :
    residentDirty arr x = false := by
  unfold residentDirty
  split
  · rename_i w hl
    obtain ⟨⟨ho, ht⟩, -⟩ := lookup_eq_some.mp hl
    exact Bool.eq_false_iff.mpr fun hd => hx ⟨w, ho, hd, ht⟩
  · rfl

/-- Draining a coherent array leaves the true content at every address (R47, R51). -/
theorem drainArray_publishes {C : Addr → Byte} {arr : CacheArray ρ} {m : Memory} (h : m.wf = true)
    (hd : ∀ k, (arr.block k).tagsDistinct) (hc : CoherentArray C arr m) (x : Addr) :
    (drainArray arr m).read x.toNat = C x := by
  by_cases hx : ∃ w, flushes arr x w
  · obtain ⟨w, hw⟩ := hx
    rw [read_drainArray_of_flushes h hd hw]
    exact hc.payload x w (lookup_of_distinct (hd _) hw.1 hw.2.2)
  · rw [read_drainArray_of_not_flushes h hx]
    exact hc.clean x (residentDirty_of_not_flushes hx)

/-- `MEM` once ARR[LRU] has been drained, if it is enabled: what the drain of ARR[PLRU] starts from (R121). -/
def memAfterLruDrain (s : State) : Memory := if enabled s.mode .lru then drainArray s.lru s.mem else s.mem

theorem drainAll_eq (s : State) :
    drainAll s = if enabled s.mode .plru then drainArray s.plru (memAfterLruDrain s) else memAfterLruDrain s := rfl

section Flush

variable {C : Addr → Byte} {s : State} (h : Inv s) (hc : Coherent C s)

include h

theorem memAfterLruDrain_wf : (memAfterLruDrain s).wf = true := by
  unfold memAfterLruDrain
  split
  · exact drainArray_wf _ h.memWf
  · exact h.memWf

include hc

theorem memAfterLruDrain_publishes (he : enabled s.mode .lru = true) (x : Addr) :
    (memAfterLruDrain s).read x.toNat = C x := by
  rw [memAfterLruDrain, if_pos he]
  exact drainArray_publishes h.memWf (fun k => (h.lruBlocks k).2) (hc.lru he) x

/-- The first drain only brings `MEM` closer to the true content, so the second array is still coherent (R46, R47). -/
theorem memAfterLruDrain_coherent (he : enabled s.mode .plru = true) : CoherentArray C s.plru (memAfterLruDrain s) := by
  refine (hc.plru he).of_mem fun y => ?_
  cases hl : enabled s.mode .lru with
  | true => exact .inr (memAfterLruDrain_publishes h hc hl y)
  | false => exact .inl (by simp [memAfterLruDrain, hl])

/-- Draining the enabled arrays leaves the true content at every address (R51, R122). -/
theorem drainAll_publishes (hsome : someEnabled s) (x : Addr) : (drainAll s).read x.toNat = C x := by
  rw [drainAll_eq]
  cases hp : enabled s.mode .plru with
  | true =>
    exact drainArray_publishes (memAfterLruDrain_wf h) (fun k => (h.plruBlocks k).2)
      (memAfterLruDrain_coherent h hc hp) x
  | false =>
    exact memAfterLruDrain_publishes h hc ((enabled_of_someEnabled hsome).resolve_right (by simp [hp])) x

end Flush

/-- FLUSH in phase RUN (R120). -/
theorem exec_flush_of_run {s : State} (hrun : s.phase = .run) (z : BitVec 3) (a : Addr) (d : Data) :
    exec (.flush z a d) s = .next (flushed s) := by
  simp [exec, execFlush, hrun]

/-- Settles O31: a flushed machine is in phase DONE, and its `MEM` is the drained one. -/
theorem flushPublishesTheTrueContent : Obligations.FlushPublishesTheTrueContent := by
  intro C z a d s h hc hsome hrun
  refine ⟨flushed s, exec_flush_of_run hrun z a d, rfl, fun x => ?_⟩
  have hx : (flushed s).mem.read x.toNat = C x := drainAll_publishes h hc hsome x
  exact ⟨hx, congrArg some hx⟩

end Sys2Proof.Machine
end

section
/-! The memory frame of the access commands (20_memory.md R40, 41_block_lookup_fill.md R84, R89): `MEM` changes only in
the lines an event writes back, each of which lies in a set that some byte of the event maps to. -/

namespace Sys2Proof.Machine

variable {ρ : Type} {pol : PolicyOps ρ}

/-! ### One sub-access -/

/-- The line address a sub-access writes back to: that of the dirty victim of a miss in a full block (R83, R84). -/
def accessWriteBacks (pol : PolicyOps ρ) (x : SubAccess) (arr : CacheArray ρ) : List Addr :=
  let B := arr.block (decompose x.addr).index
  let w := missWay pol B
  if (lookup B (decompose x.addr).tag).isNone && !(decide (B.occ < 4)) && (B.line w).dirty then
    [reconstruct (B.line w).tag (decompose x.addr).index]
  else []

/-- The lines an event writes back are those of its sub-accesses, up to the one that raises (R109, R135). -/
theorem driveWriteBacks_cons (x : SubAccess) (xs : List SubAccess) (arr : CacheArray ρ) (m : Memory) :
    driveWriteBacks pol (x :: xs) arr m = accessWriteBacks pol x arr ++
      if (byteAccess pol x arr m).raised then []
      else driveWriteBacks pol xs (byteAccess pol x arr m).arr (byteAccess pol x arr m).mem := rfl

/-- Outside the line it writes back a sub-access leaves `MEM` as it was (R79 to R84). -/
theorem read_byteAccess_outside (x : SubAccess) (arr : CacheArray ρ) {m : Memory} (h : m.wf = true) {y : Nat}
    (hy : ∀ b ∈ accessWriteBacks pol x arr, ¬inLine b y) : (byteAccess pol x arr m).mem.read y = m.read y := by
  rw [byteAccess_mem]
  split
  · rename_i hl
    unfold memAfterEvict evict
    split
    · rfl
    · rename_i h4
      split
      · rename_i hd
        have hout := hy (reconstruct _ _) (by simp only [accessWriteBacks, hl, h4, hd]; exact List.mem_singleton_self _)
        exact read_memWrite_outside h (reconstruct_mod _ _) _ (by omega)
      · rfl
  · rfl

theorem decompose_reconstruct_index (t : Tag) (k : Index) : (decompose (reconstruct t k)).index = k :=
  ((inLine_reconstruct_iff t k (reconstruct t k)).mp ⟨le_rfl, by omega⟩).2

/-- The line address `b` is aligned and lies in a set that one of the sub-accesses maps to (R40, R84). -/
def LineOfEvent (xs : List SubAccess) (b : Addr) : Prop :=
  b.toNat % 32 = 0 ∧ ∃ x ∈ xs, (decompose b).index = (decompose x.addr).index

theorem lineOfEvent_of_mem_accessWriteBacks {x : SubAccess} {arr : CacheArray ρ} {b : Addr}
    (hb : b ∈ accessWriteBacks pol x arr) {xs : List SubAccess} (hx : x ∈ xs) : LineOfEvent xs b := by
  unfold accessWriteBacks at hb
  simp only at hb
  split at hb
  · obtain rfl := List.mem_singleton.mp hb
    exact ⟨reconstruct_mod _ _, x, hx, decompose_reconstruct_index _ _⟩
  · cases hb

/-! ### One policy's drive -/

theorem read_drive_outside (xs : List SubAccess) (arr : CacheArray ρ) {m : Memory} (h : m.wf = true) {y : Nat}
    (hy : ∀ b ∈ driveWriteBacks pol xs arr m, ¬inLine b y) : (drive pol xs arr m).mem.read y = m.read y := by
  induction xs generalizing arr m with
  | nil => rfl
  | cons x xs ih =>
    rw [driveWriteBacks_cons, List.forall_mem_append] at hy
    obtain ⟨hx, hxs⟩ := hy
    have hstep := read_byteAccess_outside x arr h hx
    cases hr : (byteAccess pol x arr m).raised with
    | true =>
      rw [drive_cons_raised x xs arr m hr]
      exact hstep
    | false =>
      rw [hr] at hxs
      rw [drive_cons x xs arr m hr]
      exact (ih _ (byteAccess_wf x arr h) hxs).trans hstep

theorem lineOfEvent_of_mem_driveWriteBacks {xs : List SubAccess} {arr : CacheArray ρ} {m : Memory} {b : Addr}
    (hb : b ∈ driveWriteBacks pol xs arr m) {ys : List SubAccess} (hsub : xs ⊆ ys) : LineOfEvent ys b := by
  induction xs generalizing arr m with
  | nil => cases hb
  | cons x xs ih =>
    obtain ⟨hx, hxs⟩ := List.cons_subset.mp hsub
    rw [driveWriteBacks_cons, List.mem_append] at hb
    rcases hb with hb | hb
    · exact lineOfEvent_of_mem_accessWriteBacks hb hx
    · split at hb
      · cases hb
      · exact ih hb hxs

/-! ### The two turns -/

section Turns

variable {s : State} {a : Addr} {n : Nat} {value : Option Data} {y : Nat}

theorem read_afterLru_outside (h : s.mem.wf = true)
    (hy : ∀ b ∈ lruWriteBacks s (subAccesses a n value), ¬inLine b y) :
    (afterLru a n value s).state.mem.read y = s.mem.read y := by
  cases he : enabled s.mode .lru with
  | true =>
    rw [lruWriteBacks, if_pos he] at hy
    rw [(afterLru_on a n value he).2.1]
    exact read_drive_outside _ _ h hy
  | false => rw [(afterLru_off a n value he).2.1]

theorem read_afterPlru_outside (h : s.mem.wf = true) (hraised : (afterLru a n value s).raised = false)
    (hy : ∀ b ∈ plruWriteBacks s (subAccesses a n value), ¬inLine b y) :
    (afterPlru a n value s).state.mem.read y = (afterLru a n value s).state.mem.read y := by
  cases he : enabled s.mode .plru with
  | true =>
    rw [plruWriteBacks, if_pos (by simp [he, hraised])] at hy
    rw [(afterPlru_on a n value he).2.1]
    exact read_drive_outside _ _ (runLru_wf (s := s.countRequest) _ h) hy
  | false => rw [(afterPlru_off a n value he).2.1]

theorem lineOfEvent_of_mem_writeBacks {xs : List SubAccess} {b : Addr}
    (hb : b ∈ lruWriteBacks s xs ++ plruWriteBacks s xs) : LineOfEvent xs b := by
  rcases List.mem_append.mp hb with hb | hb
  · unfold lruWriteBacks at hb
    split at hb
    · exact lineOfEvent_of_mem_driveWriteBacks hb (List.Subset.refl xs)
    · cases hb
  · unfold plruWriteBacks at hb
    split at hb
    · exact lineOfEvent_of_mem_driveWriteBacks hb (List.Subset.refl xs)
    · cases hb

/-! ### The command -/

section Command

variable (h : s.mem.wf = true)
  (hy : ∀ b ∈ lruWriteBacks s (subAccesses a n value) ++ plruWriteBacks s (subAccesses a n value), ¬inLine b y)

include h hy

/-- The execution, whether AgeOverflow cuts it short or not (R109, R135). -/
theorem read_perform_outside (hrun : s.phase = .run) (cw : Word) :
    (perform cw a n value s).mem.read y = s.mem.read y := by
  obtain ⟨hlru, hplru⟩ := (List.forall_mem_append ..).mp hy
  cases hraised : (afterLru a n value s).raised with
  | true =>
    rw [perform_raised hraised (by simp [hrun])]
    exact read_afterLru_outside h hlru
  | false =>
    rw [perform_done hraised]
    exact (read_afterPlru_outside h hraised hplru).trans (read_afterLru_outside h hlru)

/-- A command that is not executed leaves all of `MEM` (R140, R141). -/
theorem read_handle_outside (cw : Word) : (handle cw a n value s).mem.read y = s.mem.read y := by
  cases hp : s.phase with
  | error => rw [handle_of_error hp]; rfl
  | done => rw [handle_of_done hp]; rfl
  | run =>
    rcases handle_cases (cw := cw) (a := a) (n := n) (value := value) hp with e | e | ⟨-, -, e⟩
    · rw [e]; rfl
    · rw [e]; rfl
    · rw [e]; exact read_perform_outside h hy hp cw

end Command

end Turns

/-- Settles O26: the frame of Handle, and the lines of its event. -/
theorem accessChangesOnlyLinesItWritesBack : Obligations.AccessChangesOnlyLinesItWritesBack := by
  intro i a n value s t hi h ht
  rw [exec_of_access hi] at ht
  cases ht
  refine ⟨fun y hy => read_handle_outside h hy _, fun b hb => ?_⟩
  obtain ⟨halign, x, hx, hidx⟩ := lineOfEvent_of_mem_writeBacks hb
  obtain ⟨j, hj, rfl⟩ := mem_subAccesses.mp hx
  exact ⟨halign, j, hj, hidx⟩

end Sys2Proof.Machine
end

section
/-! The command word (30_encoding.md R55, R64): decoding and encoding are inverse to each other, each row of the command
table is the set of words of one command, and a well-formed access event has one command. -/

namespace Sys2Proof.Machine

/-! ### Decoding and encoding -/

/-- Settles O1: every field of a packed word is read back. -/
theorem decodeOfEncodeIsTheInstruction : Obligations.DecodeOfEncodeIsTheInstruction :=
  decode_encode

theorem packCommand_of_fields {cw : Word} {r : BitVec 8} {o z : BitVec 3} (hr : rsvOf cw = r) (ho : opOf cw = o)
    (hz : Sys2Proof.sizeOf cw = z) : packCommand r o z (addrOf cw) (wdataOf cw) = cw := by
  rw [← hr, ← ho, ← hz, packCommand_fields]

theorem encode_of_decodeRead {cw : Word} {i : Instr} (hr : rsvOf cw = 0#8) (ho : opOf cw = 0#3)
    (h : decodeRead cw = .ok i) : encode i = cw := by
  unfold decodeRead at h
  split_ifs at h with hz hz hz <;> cases h <;> exact packCommand_of_fields hr ho hz

theorem encode_of_decodeWrite {cw : Word} {i : Instr} (hr : rsvOf cw = 0#8) (ho : opOf cw = 1#3)
    (h : decodeWrite cw = .ok i) : encode i = cw := by
  unfold decodeWrite at h
  split_ifs at h with hz hz hz <;> cases h <;> exact packCommand_of_fields hr ho hz

theorem encode_of_decode {cw : Word} {i : Instr} (h : decode cw = .ok i) : encode i = cw := by
  unfold decode at h
  split at h
  · cases h
  have hr : rsvOf cw = 0#8 := not_not.mp ‹_›
  split at h
  · exact encode_of_decodeRead hr ‹_› h
  split at h
  · exact encode_of_decodeWrite hr ‹_› h
  split at h
  · cases h; exact packCommand_of_fields hr ‹_› rfl
  split at h
  · cases h; exact packCommand_of_fields hr ‹_› rfl
  · cases h

/-- Settles O2: a word is its five fields, and the instruction keeps those the decoder does not fix. -/
theorem encodeOfDecodeIsTheWord : Obligations.EncodeOfDecodeIsTheWord :=
  fun _ _ => encode_of_decode

/-- The words that decode to an instruction are its one command word (R64). -/
theorem decode_eq_ok_iff {cw : Word} {i : Instr} : decode cw = .ok i ↔ encode i = cw :=
  ⟨encode_of_decode, fun h => h ▸ decode_encode i⟩

/-! ### The rows of the command table (R64) -/

/-- A row that fixes `RSV`, `OP` and `SIZE` matches the words packed with them. -/
theorem and_accessMask_eq_iff (cw : Word) (o z : BitVec 3) :
    cw &&& 0xFFFC000000000000#64 = packCommand 0#8 o z 0#18 0#32 ↔ ∃ a d, packCommand 0#8 o z a d = cw := by
  rw [and_accessMask]
  constructor
  · intro h
    obtain ⟨hr, ho, hz, -, -⟩ := packCommand_inj.mp h
    exact ⟨_, _, packCommand_of_fields hr ho hz⟩
  · rintro ⟨a, d, rfl⟩
    simp

/-- A row that fixes `RSV` and `OP` matches the words packed with them. -/
theorem and_plainMask_eq_iff (cw : Word) (o : BitVec 3) :
    cw &&& 0xFFE0000000000000#64 = packCommand 0#8 o 0#3 0#18 0#32 ↔ ∃ z a d, packCommand 0#8 o z a d = cw := by
  rw [and_plainMask]
  constructor
  · intro h
    obtain ⟨hr, ho, -, -, -⟩ := packCommand_inj.mp h
    exact ⟨_, _, _, packCommand_of_fields hr ho rfl⟩
  · rintro ⟨z, a, d, rfl⟩
    simp

/-- A row of a READ or WRITE command matches exactly the words that decode to that command. -/
theorem accessRow_iff (cw : Word) {row : Word} {o z : BitVec 3} {c : Addr → Data → Instr}
    (hrow : row = packCommand 0#8 o z 0#18 0#32) (hc : ∀ a d, encode (c a d) = packCommand 0#8 o z a d) :
    cw &&& 0xFFFC000000000000#64 = row ↔ ∃ a d, decode cw = .ok (c a d) := by
  simp only [hrow, and_accessMask_eq_iff, decode_eq_ok_iff, hc]

/-- The rows of FLUSH and REPORT match exactly the words that decode to these commands. -/
theorem plainRow_iff (cw : Word) {row : Word} {o : BitVec 3} {c : BitVec 3 → Addr → Data → Instr}
    (hrow : row = packCommand 0#8 o 0#3 0#18 0#32) (hc : ∀ z a d, encode (c z a d) = packCommand 0#8 o z a d) :
    cw &&& 0xFFE0000000000000#64 = row ↔ ∃ z a d, decode cw = .ok (c z a d) := by
  simp only [hrow, and_plainMask_eq_iff, decode_eq_ok_iff, hc]

/-- A word is refused, for one of the two reasons of R65, exactly when it decodes to no instruction. -/
theorem decode_refused_iff (cw : Word) :
    decode cw = .error .illegalCommand ∨ decode cw = .error .malformedEvent ↔ ¬∃ i, decode cw = .ok i := by
  cases decode cw with
  | ok i => simp
  | error e => cases e <;> simp

/-- What some instruction meets, one of the eight commands meets. -/
theorem exists_instr_iff {P : Instr → Prop} :
    (∃ i, P i) ↔ (∃ a d, P (.rd1 a d)) ∨ (∃ a d, P (.rd2 a d)) ∨ (∃ a d, P (.rd4 a d)) ∨ (∃ a d, P (.wr1 a d)) ∨
      (∃ a d, P (.wr2 a d)) ∨ (∃ a d, P (.wr4 a d)) ∨ (∃ z a d, P (.flush z a d)) ∨ ∃ z a d, P (.report z a d) := by
  constructor
  · rintro ⟨i, h⟩
    cases i with
    | rd1 a d => exact .inl ⟨a, d, h⟩
    | rd2 a d => exact .inr (.inl ⟨a, d, h⟩)
    | rd4 a d => exact .inr (.inr (.inl ⟨a, d, h⟩))
    | wr1 a d => exact .inr (.inr (.inr (.inl ⟨a, d, h⟩)))
    | wr2 a d => exact .inr (.inr (.inr (.inr (.inl ⟨a, d, h⟩))))
    | wr4 a d => exact .inr (.inr (.inr (.inr (.inr (.inl ⟨a, d, h⟩)))))
    | flush z a d => exact .inr (.inr (.inr (.inr (.inr (.inr (.inl ⟨z, a, d, h⟩))))))
    | report z a d => exact .inr (.inr (.inr (.inr (.inr (.inr (.inr ⟨z, a, d, h⟩))))))
  · rintro (⟨_, _, h⟩ | ⟨_, _, h⟩ | ⟨_, _, h⟩ | ⟨_, _, h⟩ | ⟨_, _, h⟩ | ⟨_, _, h⟩ | ⟨_, _, _, h⟩ | ⟨_, _, _, h⟩) <;>
      exact ⟨_, h⟩

/-- Settles O3: each row fixes the fields its command fixes, and the eight commands are all there are. -/
theorem wordIsTheCommandItsRowMatches : Obligations.WordIsTheCommandItsRowMatches := by
  intro cw
  have rd1 := accessRow_iff cw (row := 0x0004000000000000#64) (c := .rd1) (by decide) fun _ _ => rfl
  have rd2 := accessRow_iff cw (row := 0x0008000000000000#64) (c := .rd2) (by decide) fun _ _ => rfl
  have rd4 := accessRow_iff cw (row := 0x0010000000000000#64) (c := .rd4) (by decide) fun _ _ => rfl
  have wr1 := accessRow_iff cw (row := 0x0024000000000000#64) (c := .wr1) (by decide) fun _ _ => rfl
  have wr2 := accessRow_iff cw (row := 0x0028000000000000#64) (c := .wr2) (by decide) fun _ _ => rfl
  have wr4 := accessRow_iff cw (row := 0x0030000000000000#64) (c := .wr4) (by decide) fun _ _ => rfl
  have flush := plainRow_iff cw (row := 0x0040000000000000#64) (c := .flush) (by decide) fun _ _ _ => rfl
  have report := plainRow_iff cw (row := 0x0060000000000000#64) (c := .report) (by decide) fun _ _ _ => rfl
  refine ⟨rd1, rd2, rd4, wr1, wr2, wr4, flush, report, ?_⟩
  rw [decode_refused_iff, exists_instr_iff, ← rd1, ← rd2, ← rd4, ← wr1, ← wr2, ← wr4, ← flush, ← report]
  simp only [List.mem_cons, List.not_mem_nil, or_false, not_or, and_assoc]

/-- Settles O4: the decoder evaluated on each word. -/
theorem writtenWordsDecode : Obligations.WrittenWordsDecode := by
  unfold Obligations.WrittenWordsDecode
  decide

/-- Settles O6: the step on a command move runs what the decoder answers. -/
theorem stepRunsTheDecodedCommand : Obligations.StepRunsTheDecodedCommand := by
  intro s cw rest i hs hi
  rw [step_command hs, runCommand, hi]

/-! ### The command of an access event (R53, R108) -/

theorem wellFormed_event_iff (e : Event) :
    e.wellFormed = true ↔ e.size ∈ [1, 2, 4] ∧ e.address ≤ 262143 ∧ e.value.isSome = e.isWrite := by
  simp [Event.wellFormed, Event.sizeOk, Event.addressOk, Event.valueOk, Config.memSize, Nat.lt_succ_iff, and_assoc,
    or_assoc]

theorem toInstr_of_not_wellFormed {e : Event} (h : ¬e.wellFormed = true) : e.toInstr = none := by
  simp [Event.toInstr, h]

/-- The command of an event carries its address, size and value (R55, R108). -/
theorem toInstr_of_wellFormed {e : Event} (h : e.wellFormed = true) :
    ∃ i, e.toInstr = some i ∧
      accessOf i = some (BitVec.ofNat 18 e.address, e.size, e.value.map (BitVec.ofNat 32)) := by
  have hsize : e.size = 1 ∨ e.size = 2 ∨ e.size = 4 := by simpa using ((wellFormed_event_iff e).mp h).1
  unfold Event.toInstr
  rw [if_pos h]
  cases e.value with
  | none => rcases hsize with hz | hz | hz <;> rw [hz] <;> exact ⟨_, rfl, rfl⟩
  | some v => rcases hsize with hz | hz | hz <;> rw [hz] <;> exact ⟨_, rfl, rfl⟩

theorem wellFormed_of_access {i : Instr} {a : Addr} {n : Nat} {value : Option Data}
    (h : accessOf i = some (a, n, value)) : i.wellFormed = true ↔ a.toNat + n ≤ 262144 := by
  simp [Instr.wellFormed, span_of_access h, Config.memSize]

/-- Settles O5: the checks of an event are the premises, and its command carries the event's fields. -/
theorem wellFormedEventHasItsCommand : Obligations.WellFormedEventHasItsCommand := by
  intro e
  constructor
  · intro hsize haddr hvalue
    obtain ⟨i, hi, haccess⟩ := toInstr_of_wellFormed ((wellFormed_event_iff e).mpr ⟨hsize, haddr, hvalue⟩)
    have ha : (BitVec.ofNat 18 e.address).toNat = e.address := by
      rw [BitVec.toNat_ofNat, Nat.mod_eq_of_lt (by omega)]
    refine ⟨i, hi, ?_, _, ha, haccess⟩
    rw [wellFormed_of_access haccess, ha]
    omega
  · intro h
    refine toInstr_of_not_wellFormed fun hw => ?_
    obtain ⟨hsize, haddr, hvalue⟩ := (wellFormed_event_iff e).mp hw
    rcases h with hs | ha | hv
    · exact hs hsize
    · omega
    · exact hv hvalue

end Sys2Proof.Machine
end

section
/-! The record of REPORT (44_engine_commands.md R123), and the ignored fields of a command (30_encoding.md R59, R66):
they reach the state through `INFO` alone, which a fault takes from the command word (60_exceptions.md R129). -/

namespace Sys2Proof.Machine

/-- Settles O35: REPORT answers its record in any phase. -/
theorem reportAnswersTheRegisters : Obligations.ReportAnswersTheRegisters := by
  intro z a d s
  simp [exec, execReport, State.respond, reportRecord]

/-! ### The word of a command reaches `INFO` only -/

theorem faulted_withoutInfo (s : State) (c : Cause) (cw cw' : Word) :
    (faulted s c cw).withoutInfo = (faulted s c cw').withoutInfo := rfl

section Word

variable {a : Addr} {n : Nat} {value : Option Data} {s : State} (cw cw' : Word)

theorem perform_withoutInfo (hrun : s.phase = .run) :
    (perform cw a n value s).withoutInfo = (perform cw' a n value s).withoutInfo := by
  have hphase : s.phase ≠ .error := by simp [hrun]
  cases h : (afterLru a n value s).raised with
  | true =>
    rw [perform_raised h hphase, perform_raised h hphase]
    exact faulted_withoutInfo ..
  | false => rw [perform_done h, perform_done h]

theorem handle_withoutInfo : (handle cw a n value s).withoutInfo = (handle cw' a n value s).withoutInfo := by
  cases hp : s.phase with
  | error => rw [handle_of_error hp, handle_of_error hp]
  | done =>
    rw [handle_of_done hp, handle_of_done hp]
    exact faulted_withoutInfo ..
  | run =>
    by_cases hr : a.toNat + n ≤ 262144
    swap
    · rw [handle_of_range hp hr, handle_of_range hp hr]
      exact faulted_withoutInfo ..
    cases hc : atLimit s.params.cntW s.requests with
    | true =>
      rw [handle_of_counter hp hr hc, handle_of_counter hp hr hc]
      exact faulted_withoutInfo ..
    | false =>
      rw [handle_of_passed hp hr hc, handle_of_passed hp hr hc]
      exact perform_withoutInfo cw cw' hp

end Word

/-! ### The write data reaches the sub-accesses only -/

/-- Handle reads a write value through its sub-accesses and through whether there is one (R60, R118). -/
theorem handle_congr {a : Addr} {n : Nat} {value value' : Option Data}
    (hsub : subAccesses a n value = subAccesses a n value') (hsome : value.isSome = value'.isSome) (cw : Word)
    (s : State) : handle cw a n value s = handle cw a n value' s := by
  simp only [handle, perform, accessData, hsub, hsome]

/-- Byte `i` of a write value lies in its low `8 * n` bits (R59). -/
theorem writeByte_eq_of_low {d d' : Data} {n i : Nat} (h : d.extractLsb' 0 (8 * n) = d'.extractLsb' 0 (8 * n))
    (hi : i < n) : writeByte d i = writeByte d' i := by
  have hbyte (x : Data) : writeByte x i = (x.extractLsb' 0 (8 * n)).extractLsb' (8 * i) 8 := by
    ext j hj
    simp [writeByte, show 8 * i + j < 8 * n by omega]
  rw [hbyte, hbyte, h]

/-- A write of `n` bytes uses the low `8 * n` bits of its data (R59). -/
theorem subAccesses_write_eq_of_low {d d' : Data} {n : Nat}
    (h : d.extractLsb' 0 (8 * n) = d'.extractLsb' 0 (8 * n)) (a : Addr) :
    subAccesses a n (some d) = subAccesses a n (some d') := by
  refine List.map_congr_left fun i hi => ?_
  rw [Option.map_some, Option.map_some, writeByte_eq_of_low h (List.mem_range.mp hi)]

/-! ### The commands -/

/-- Two commands that lead from a state to states equal but for `INFO`. -/
def SameButInfo (s : State) (i i' : Instr) : Prop :=
  ∃ t t', exec i s = .next t ∧ exec i' s = .next t' ∧ t.withoutInfo = t'.withoutInfo

theorem sameButInfo_of_access {i i' : Instr} {a : Addr} {n : Nat} {value value' : Option Data}
    (hi : accessOf i = some (a, n, value)) (hi' : accessOf i' = some (a, n, value'))
    (hsub : subAccesses a n value = subAccesses a n value') (hsome : value.isSome = value'.isSome) (s : State) :
    SameButInfo s i i' := by
  refine ⟨_, _, exec_of_access hi s, exec_of_access hi' s, ?_⟩
  rw [handle_congr hsub hsome]
  exact handle_withoutInfo ..

theorem exec_flush_of_error {s : State} (h : s.phase = .error) (z : BitVec 3) (a : Addr) (d : Data) :
    exec (.flush z a d) s = .next (answerInError s) := by
  simp [exec, execFlush, h]

theorem exec_flush_of_done {s : State} (h : s.phase = .done) (z : BitVec 3) (a : Addr) (d : Data) :
    exec (.flush z a d) s = .next (faulted s .protocol (encode (.flush z a d))) := by
  rw [← raiseFault_eq s _ _ (by simp [h])]
  simp [exec, execFlush, h]

theorem sameButInfo_flush (s : State) (z z' : BitVec 3) (a a' : Addr) (d d' : Data) :
    SameButInfo s (.flush z a d) (.flush z' a' d') := by
  cases hp : s.phase with
  | error => exact ⟨_, _, exec_flush_of_error hp .., exec_flush_of_error hp .., rfl⟩
  | done => exact ⟨_, _, exec_flush_of_done hp .., exec_flush_of_done hp .., faulted_withoutInfo ..⟩
  | run => exact ⟨_, _, exec_flush_of_run hp .., exec_flush_of_run hp .., rfl⟩

/-- Settles O37: a READ uses none of `WDATA`, a WRITE of `n` bytes its low `8 * n` bits, FLUSH and REPORT no field. -/
theorem ignoredFieldsHaveNoEffect : Obligations.IgnoredFieldsHaveNoEffect := by
  intro s a a' d d' z z'
  have read (i i' : Instr) {n : Nat} (hi : accessOf i = some (a, n, none)) (hi' : accessOf i' = some (a, n, none)) :
      SameButInfo s i i' := sameButInfo_of_access hi hi' rfl rfl s
  have write (i i' : Instr) (n : Nat) (hi : accessOf i = some (a, n, some d)) (hi' : accessOf i' = some (a, n, some d'))
      (h : d.extractLsb' 0 (8 * n) = d'.extractLsb' 0 (8 * n)) : SameButInfo s i i' :=
    sameButInfo_of_access hi hi' (subAccesses_write_eq_of_low h a) rfl s
  exact ⟨read (.rd1 a d) (.rd1 a d') rfl rfl, read (.rd2 a d) (.rd2 a d') rfl rfl, read (.rd4 a d) (.rd4 a d') rfl rfl,
    write (.wr1 a d) (.wr1 a d') 1 rfl rfl, write (.wr2 a d) (.wr2 a d') 2 rfl rfl,
    sameButInfo_flush s z z' a a' d d', rfl⟩

end Sys2Proof.Machine
end

section
/-! The address decomposer (40_address_decomposer.md R69 to R73): an address is its three fields in mixed radix, and
every statement about the fields is read off that one equation. -/

namespace Sys2Proof.Machine

/-! ### An address and its fields determine each other (R70) -/

/-- The number of the address that three fields make up (R70). -/
def AddrFields.toNat (f : AddrFields) : Nat := f.tag.toNat * 1024 + f.index.toNat * 32 + f.offset.toNat

theorem AddrFields.toNat_lt (f : AddrFields) : f.toNat < 2 ^ 18 := by
  have ht := f.tag.isLt
  have hk := f.index.isLt
  have ho := f.offset.isLt
  unfold AddrFields.toNat
  omega

theorem AddrFields.toNat_inj {f g : AddrFields} (h : f.toNat = g.toNat) : f = g := by
  obtain ⟨t, k, o⟩ := f
  obtain ⟨t', k', o'⟩ := g
  simp only [AddrFields.toNat] at h
  have hk := k.isLt
  have hk' := k'.isLt
  have ho := o.isLt
  have ho' := o'.isLt
  congr 1 <;> apply BitVec.eq_of_toNat_eq <;> omega

theorem decompose_toNat (a : Addr) : (decompose a).toNat = a.toNat := by
  simp only [AddrFields.toNat, decompose_tag_toNat, decompose_index_toNat, decompose_offset_toNat]
  omega

theorem decompose_eq_iff {a : Addr} {f : AddrFields} : decompose a = f ↔ a.toNat = f.toNat := by
  rw [← decompose_toNat a]
  exact ⟨congrArg _, AddrFields.toNat_inj⟩

theorem decompose_bijective : Function.Bijective decompose :=
  ⟨fun _ _ => decompose_inj, fun f =>
    ⟨BitVec.ofNat 18 f.toNat, decompose_eq_iff.mpr (Nat.mod_eq_of_lt f.toNat_lt)⟩⟩

/-! ### The fields of the next address (R70) -/

/-- Unless it is all ones, a bit vector has its number's successor. -/
theorem toNat_add_one_of_ne_allOnes {n : Nat} {x : BitVec n} (h : x ≠ BitVec.allOnes n) :
    (x + 1#n).toNat = x.toNat + 1 := by
  have hlt : x.toNat < 2 ^ n - 1 := BitVec.toNat_allOnes ▸ BitVec.lt_allOnes_iff.mpr h
  rw [BitVec.toNat_add, BitVec.toNat_ofNat, Nat.add_mod_mod, Nat.mod_eq_of_lt (by omega)]

section Next

variable {a b : Addr} (hb : b.toNat = a.toNat + 1)
include hb

theorem decompose_next_same_line (ho : (decompose a).offset ≠ 31#5) :
    decompose b = ⟨(decompose a).tag, (decompose a).index, (decompose a).offset + 1#5⟩ := by
  rw [decompose_eq_iff, hb, ← decompose_toNat a]
  simp only [AddrFields.toNat, toNat_add_one_of_ne_allOnes ho]
  omega

theorem decompose_next_set (ho : (decompose a).offset = 31#5) (hk : (decompose a).index ≠ 31#5) :
    decompose b = ⟨(decompose a).tag, (decompose a).index + 1#5, 0#5⟩ := by
  rw [decompose_eq_iff, hb, ← decompose_toNat a]
  simp only [AddrFields.toNat, toNat_add_one_of_ne_allOnes hk, ho, BitVec.toNat_ofNat]
  omega

/-- The last tag cannot step on: its set 31 ends at the last address (R70). -/
theorem decompose_next_tag (ho : (decompose a).offset = 31#5) (hk : (decompose a).index = 31#5) :
    decompose b = ⟨(decompose a).tag + 1#8, (decompose a).index + 1#5, 0#5⟩ := by
  have ht : (decompose a).tag ≠ BitVec.allOnes 8 := fun ht => by
    have ha := decompose_toNat a
    have hlt := b.isLt
    simp only [AddrFields.toNat, ho, hk, ht, BitVec.toNat_allOnes, BitVec.toNat_ofNat] at ha
    omega
  rw [decompose_eq_iff, hb, ← decompose_toNat a]
  simp only [AddrFields.toNat, toNat_add_one_of_ne_allOnes ht, ho, hk, BitVec.reduceAdd, BitVec.toNat_ofNat]
  omega

end Next

/-- Settles O8: both directions of the mixed-radix equation, and one lemma for each way to leave a byte. -/
theorem decomposePartitionsTheAddress : Obligations.DecomposePartitionsTheAddress := by
  refine ⟨decompose_bijective, fun a => (decompose_toNat a).symm, fun a b hb => ⟨fun ho => ?_, fun ho => ?_⟩⟩
  · simp [decompose_next_same_line hb ho]
  · by_cases hk : (decompose a).index = 31#5
    · simp [decompose_next_tag hb ho hk, hk]
    · simp [decompose_next_set hb ho hk, hk]

/-! ### The three fields (R69) -/

/-- Settles O7. -/
theorem decomposeGivesTagIndexOffset : Obligations.DecomposeGivesTagIndexOffset := by
  refine ⟨fun a => ⟨decompose_offset_toNat a, rfl, ?_, rfl, ?_, rfl⟩, by decide⟩
  · rw [decompose_index_toNat, Nat.shiftRight_eq_div_pow]
  · rw [decompose_tag_toNat, Nat.shiftRight_eq_div_pow]

/-! ### Line addresses (R71 to R73) -/

/-- The round trip of R73, second half. -/
theorem decompose_reconstruct (t : Tag) (k : Index) : decompose (reconstruct t k) = ⟨t, k, 0#5⟩ := by
  simp [decompose_eq_iff, AddrFields.toNat]

theorem reconstruct_le (t : Tag) (k : Index) : (reconstruct t k).toNat ≤ 262112 := by
  have ht := t.isLt
  have hk := k.isLt
  rw [reconstruct_toNat]
  omega

theorem lineBase_le (a : Addr) : (lineBase a).toNat ≤ 262112 :=
  reconstruct_decompose a ▸ reconstruct_le ..

/-- Settles O9: a line base is the reconstruction of its address's own tag and index, and takes its bound from it. -/
theorem lineAddressesStayInMemory : Obligations.LineAddressesStayInMemory := by
  refine ⟨fun a => ⟨?_, rfl, ?_, lineBase_le a, ?_, reconstruct_decompose a⟩,
    fun t k => ⟨reconstruct_toNat t k, rfl, reconstruct_le t k, decompose_reconstruct t k⟩, by decide⟩
  · rw [lineBase_toNat]
    omega
  · rw [← reconstruct_decompose, reconstruct_toNat]
  · have := lineBase_le a
    omega

end Sys2Proof.Machine
end

section
/-! Block lookup and fill (41_block_lookup_fill.md): what a sub-access of either array does on a hit, on a miss in a block
with a free way and on a miss in a full block, for any policy whose touch is known. -/

namespace Sys2Proof.Machine

variable {ρ : Type} {pol : PolicyOps ρ} {room : Block ρ → Fin 4 → Prop} {after : Block ρ → Fin 4 → Fin 4 → ρ}

/-! ### Lookup (R77) -/

/-- Settles O19, from the two answers of Lookup. -/
theorem lookupIsLeastOccupiedMatch : Obligations.LookupIsLeastOccupiedMatch := by
  intro ρ B t
  simp only [← occupied_iff]
  refine ⟨fun w => lookup_eq_some.trans and_assoc, lookup_eq_none.trans ?_, fun hd w => lookup_of_distinct hd⟩
  simp only [not_and, ne_eq]

/-! ### A hit (R79, R80) -/

/-- Every byte of the block a hit leaves (R79, R80). -/
theorem hitBlock_byteAt_offset (hp : TouchOnly pol) (x : SubAccess) (B : Block ρ) (w v : Fin 4) (o : Offset) :
    (hitBlock pol x B w).byteAt v o =
      if v = w ∧ o = (decompose x.addr).offset then x.write.getD (B.byteAt v o) else B.byteAt v o := by
  simp only [Block.byteAt, hitBlock_line hp]
  by_cases hv : v = w
  · simp only [hv, true_and, if_true]
    exact withByte_get ..
  · simp only [hv, false_and, if_false]

theorem TouchGives.hitEffect (hg : TouchGives pol room after) : HitEffect pol room after := by
  intro x arr m w
  dsimp only
  intro hl hroom
  have hp := hg.toTouchOnly
  rw [byteAccess_hit hl, hitAccess_eq _ _ _ _ (hg.raised _ w hroom)]
  simp only [setBlock_block_self]
  refine ⟨trivial, trivial, trivial, hitBlock_byteAt hp x _ w, fun k hk => setBlock_block_ne arr _ hk, hp.occ _ w,
    fun v => ⟨?_, ?_, ?_, hitBlock_byteAt_offset hp x _ w v⟩⟩
  · rw [hitBlock_line hp]
  · rw [hitBlock_line hp]
    by_cases hv : v = w <;> simp [hv]
  · rw [hitBlock_line hp]
    exact hg.recency _ w v hroom

/-- Settles O20, for each policy by what its touch gives. -/
theorem hitTouchesAndStoresOneByte : Obligations.HitTouchesAndStoresOneByte :=
  ⟨fun ageW => (lruOps_gives ageW).hitEffect, plruOps_gives.hitEffect⟩

/-! ### The fill and the touch of a miss (R82) -/

/-- The fill leaves the recency metadata alone, so the touch that follows it does what it would have done before it
(R82). -/
theorem TouchGives.touch_filledBlock (hg : TouchGives pol room after) (x : SubAccess) {B : Block ρ} {w : Fin 4}
    (m' : Memory) (hroom : room B w) :
    (pol.touch (filledBlock pol x B m') w).raised = false ∧
      ∀ v, ((pol.touch (filledBlock pol x B m') w).block.line v).recency = after B w v := by
  obtain ⟨hkeep, hafter⟩ := hg.congr B (filledBlock pol x B m') w (filledBlock_occ x B m').symm
    fun v => (filledBlock_recency x B m' v).symm
  exact ⟨hg.raised _ w (hkeep hroom), fun v => (hg.recency _ w v (hkeep hroom)).trans (hafter v).symm⟩

/-- The block a miss leaves depends on `MEM` only through the line that the fill reads (R82). -/
theorem missBlock_congr_mem {x : SubAccess} (B : Block ρ) {m m' : Memory}
    (h : memRead m' (lineBase x.addr) = memRead m (lineBase x.addr)) : missBlock pol x B m' = missBlock pol x B m := by
  simp only [missBlock, filledBlock, h]

/-- Every byte of the way a miss takes (R82). -/
theorem missBlock_byteAt_offset (hp : TouchOnly pol) (x : SubAccess) (B : Block ρ) (m' : Memory) (o : Offset) :
    (missBlock pol x B m').byteAt (missWay pol B) o =
      if o = (decompose x.addr).offset then x.write.getD (m'.read x.addr.toNat)
      else m'.read ((lineBase x.addr).toNat + o.toNat) := by
  by_cases ho : o = (decompose x.addr).offset
  · rw [if_pos ho, ho]
    exact missBlock_byteAt hp x B m'
  · simp only [Block.byteAt, missBlock_line hp, if_true]
    rw [withByte_get, if_neg ho, if_neg ho, memRead_get _ _ _ o.isLt]

/-- A miss with room to touch raises nothing: the whole result (R82). -/
theorem TouchGives.byteAccess_miss_eq (hg : TouchGives pol room after) {x : SubAccess} {arr : CacheArray ρ} {m : Memory}
    (hl : lookup (arr.block (decompose x.addr).index) (decompose x.addr).tag = none)
    (hroom : room (arr.block (decompose x.addr).index) (missWay pol (arr.block (decompose x.addr).index)))
    (hfill : memRead (memAfterEvict pol x arr m) (lineBase x.addr) = memRead m (lineBase x.addr)) :
    byteAccess pol x arr m =
      { arr := arr.setBlock (decompose x.addr).index (missBlock pol x (arr.block (decompose x.addr).index) m)
        mem := memAfterEvict pol x arr m
        byte := x.write.getD (m.read x.addr.toNat)
        hit := false
        raised := false } := by
  rw [byteAccess_miss hl, missAccess_eq hg.toTouchOnly _ _ _ (hg.touch_filledBlock x _ hroom).1,
    missBlock_congr_mem _ hfill, missBlock_byteAt hg.toTouchOnly]

/-- A miss whose eviction leaves the line it fills from as it was (R81 to R83). -/
theorem TouchGives.missFills (hg : TouchGives pol room after) {x : SubAccess} {arr : CacheArray ρ} {m : Memory}
    (hl : lookup (arr.block (decompose x.addr).index) (decompose x.addr).tag = none)
    (hroom : room (arr.block (decompose x.addr).index) (missWay pol (arr.block (decompose x.addr).index)))
    (hfill : memRead (memAfterEvict pol x arr m) (lineBase x.addr) = memRead m (lineBase x.addr)) :
    MissFills x arr m (missWay pol (arr.block (decompose x.addr).index)) after (byteAccess pol x arr m) := by
  have hp := hg.toTouchOnly
  rw [hg.byteAccess_miss_eq hl hroom hfill]
  unfold MissFills
  simp only [setBlock_block_self]
  refine ⟨trivial, trivial, trivial, fun k hk => setBlock_block_ne arr _ hk, ?_, ?_,
    missBlock_byteAt_offset hp x _ m, fun v hv => ?_, fun v => ?_⟩
  · simp only [missBlock_line hp, if_true]
  · simp only [missBlock_line hp, if_true]
  · simp only [missBlock_line hp, if_neg hv, and_self]
  · rw [missBlock_line hp]
    exact (hg.touch_filledBlock x m hroom).2 v

theorem byteAccess_mem_of_miss {x : SubAccess} {arr : CacheArray ρ}
    (h : lookup (arr.block (decompose x.addr).index) (decompose x.addr).tag = none) (m : Memory) :
    (byteAccess pol x arr m).mem = memAfterEvict pol x arr m := by
  rw [byteAccess_mem, h]
  rfl

/-! ### A miss in a block with a free way (R81) -/

theorem evict_of_free {B : Block ρ} (h : B.occ < 4) (m : Memory) (k : Index) (w : Fin 4) : evict m B k w = m :=
  if_pos h

theorem TouchGives.freeWayEffect (hg : TouchGives pol room after) : FreeWayEffect pol room after := by
  intro x arr m w f B hl hocc hroom
  have hfree : B.occ < 4 := by omega
  obtain rfl : missWay pol B = w := Fin.ext ((missWay_val hfree).trans hocc)
  have hmem : memAfterEvict pol x arr m = m := evict_of_free hfree m _ _
  have hmiss := hg.missFills hl hroom (congrArg (memRead · (lineBase x.addr)) hmem)
  have ⟨_, hraised, _⟩ := hmiss
  refine ⟨hmiss, (byteAccess_mem_of_miss hl m).trans hmem, ?_⟩
  exact (byteAccess_occ hg.toTouchOnly x arr m).trans (if_pos ⟨hl, hraised, hfree⟩)

/-- Settles O21, for each policy by what its touch gives. -/
theorem missFillsTheNextFreeWay : Obligations.MissFillsTheNextFreeWay :=
  ⟨fun ageW => (lruOps_gives ageW).freeWayEffect, plruOps_gives.freeWayEffect⟩

/-! ### A miss in a full block (R83, R84) -/

/-- An eviction changes no byte of another line of its set (R84). -/
theorem memRead_evict_of_tag_ne {m : Memory} (h : m.wf = true) {B : Block ρ} {w : Fin 4} {t : Tag}
    (ht : (B.line w).tag ≠ t) (k : Index) : memRead (evict m B k w) (reconstruct t k) = memRead m (reconstruct t k) := by
  have ht' : (B.line w).tag.toNat ≠ t.toNat := fun e => ht (BitVec.eq_of_toNat_eq e)
  unfold evict writeBack
  split
  · rfl
  · split
    · ext i hi
      rw [memRead_get, memRead_get, read_memWrite_outside h (reconstruct_mod _ _)]
      simp only [reconstruct_toNat]
      omega
    · rfl

/-- The fill of a miss reads nothing the eviction wrote: the victim is occupied, so it does not have the tag looked up
(R77, R83). -/
theorem memRead_memAfterEvict {x : SubAccess} {arr : CacheArray ρ} {m : Memory} (hwf : m.wf = true)
    (hl : lookup (arr.block (decompose x.addr).index) (decompose x.addr).tag = none)
    (ho : (arr.block (decompose x.addr).index).occupied (missWay pol (arr.block (decompose x.addr).index)) = true) :
    memRead (memAfterEvict pol x arr m) (lineBase x.addr) = memRead m (lineBase x.addr) := by
  rw [← reconstruct_decompose]
  exact memRead_evict_of_tag_ne hwf (fun ht => lookup_eq_none.mp hl _ ⟨ho, ht⟩) _

theorem TouchGives.evictionEffect (hg : TouchGives pol room after) (hv : VictimOccupied pol) :
    EvictionEffect pol room after := by
  intro x arr m f B w hwf hl hocc hroom
  have hfull : ¬B.occ < 4 := by omega
  have hway : missWay pol B = w := missWay_full hfull
  rw [← hway] at hroom ⊢
  have hvictim : B.occupied (missWay pol B) = true := hway ▸ hv B hocc.ge
  refine ⟨hg.missFills hl hroom (memRead_memAfterEvict hwf hl hvictim), ?_, fun y => ?_⟩
  · exact (byteAccess_occ hg.toTouchOnly x arr m).trans ((if_neg fun h => hfull h.2.2).trans hocc)
  · rw [byteAccess_mem_of_miss hl]
    refine (read_evict hwf B f.index (missWay pol B) y).trans (if_congr ?_ rfl rfl)
    cases decompose y
    simp only [hfull, not_false_eq_true, true_and, AddrFields.mk.injEq, and_true]

/-- Settles O22, for each policy by what its touch gives and that its victim is occupied. -/
theorem missInFullBlockEvictsTheVictim : Obligations.MissInFullBlockEvictsTheVictim :=
  ⟨fun ageW => (lruOps_gives ageW).evictionEffect (lruOps_victimOccupied ageW),
    plruOps_gives.evictionEffect plruOps_victimOccupied⟩

end Sys2Proof.Machine
end

section
/-! What the access commands do to the arrays (41_block_lookup_fill.md R75, R81, R83, R85): every byte of a completed
event is resident afterwards, and no block changes but those the event maps to. -/

namespace Sys2Proof.Machine

variable {s : State} {a : Addr} {n : Nat} {value : Option Data}

/-! ### Residency (R85, R119) -/

/-- An event in range that is not cut short leaves each of its bytes resident in the array it drove (R85, R119). -/
theorem drive_subAccesses_resident {ρ : Type} {pol : PolicyOps ρ} (hp : TouchOnly pol) (hv : VictimOccupied pol)
    (hr : a.toNat + n ≤ 262144) (hn : n ≤ 4) (arr : CacheArray ρ) (m : Memory)
    (hraised : (drive pol (subAccesses a n value) arr m).raised = false) :
    ∀ j < n, residentIn (drive pol (subAccesses a n value) arr m).arr (byteAddr a j) :=
  forall_subAccesses.mp (drive_resident hp hv _ (subAccesses_oneLine hr hn value) arr m hraised)

/-- Settles O25: each enabled array's drive leaves the bytes resident, and nothing after it touches that array. -/
theorem accessLeavesItsBytesResident : Obligations.AccessLeavesItsBytesResident := by
  intro i a n value s hi ha hroom
  have hn : n ≤ 4 := by have := accessOf_size hi; omega
  have hraised := hroom.not_raised (value := value) ha.inMem hn
  refine ⟨_, exec_of_access hi s, fun he => ?_, fun he => ?_⟩ <;>
    rw [handle_of_admitted ha, perform_done hraised]
  · obtain ⟨hlru, -, -, -, hd⟩ := afterLru_on a n value he
    rw [respond_lru, runPlru_lru, hlru]
    exact drive_subAccesses_resident (lruOps_touchOnly _) (lruOps_victimOccupied _) ha.inMem hn _ _ (hd ▸ hraised)
  · rw [respond_plru, (afterPlru_on a n value he).1]
    exact drive_subAccesses_resident plruOps_touchOnly plruOps_victimOccupied ha.inMem hn _ _ (drive_plru_raised ..)

/-! ### The array frame (R75) -/

theorem runLru_block_ne (xs : List SubAccess) (s : State) {k : Index} (hk : ∀ x ∈ xs, k ≠ (decompose x.addr).index) :
    (runLru xs s).state.lru.block k = s.lru.block k := by
  unfold runLru
  split
  · exact drive_block_ne xs _ _ hk
  · rfl

theorem runPlru_block_ne (xs : List SubAccess) (s : State) {k : Index} (hk : ∀ x ∈ xs, k ≠ (decompose x.addr).index) :
    (runPlru xs s).state.plru.block k = s.plru.block k := by
  unfold runPlru
  split
  · exact drive_block_ne xs _ _ hk
  · rfl

/-- From `s` to `t` no block changes but those that bytes of the event at `a` map to, and no array that is not enabled
(R75, R109). -/
structure ArrayFrame (a : Addr) (n : Nat) (s t : State) : Prop where
  lru : ∀ k : Index, (∀ j < n, k ≠ (decompose (byteAddr a j)).index) → t.lru.block k = s.lru.block k
  plru : ∀ k : Index, (∀ j < n, k ≠ (decompose (byteAddr a j)).index) → t.plru.block k = s.plru.block k
  lruOff : enabled s.mode .lru = false → t.lru = s.lru
  plruOff : enabled s.mode .plru = false → t.plru = s.plru

theorem ArrayFrame.refl : ArrayFrame a n s s :=
  ⟨fun _ _ => rfl, fun _ _ => rfl, fun _ => rfl, fun _ => rfl⟩

theorem afterLru_arrayFrame : ArrayFrame a n s (afterLru a n value s).state where
  lru k hk := runLru_block_ne _ s.countRequest ((forall_subAccesses (P := fun y => k ≠ (decompose y).index)).mpr hk)
  plru k _ := by rw [runLru_plru, countRequest_plru]
  lruOff he := (afterLru_off a n value he).1
  plruOff _ := by rw [runLru_plru, countRequest_plru]

theorem afterPlru_arrayFrame : ArrayFrame a n s (afterPlru a n value s).state where
  lru k hk := by
    rw [runPlru_lru]
    exact afterLru_arrayFrame.lru k hk
  plru k hk := by
    rw [runPlru_block_ne _ _ ((forall_subAccesses (P := fun y => k ≠ (decompose y).index)).mpr hk)]
    exact afterLru_arrayFrame.plru k hk
  lruOff he := by
    rw [runPlru_lru]
    exact afterLru_arrayFrame.lruOff he
  plruOff he := (afterPlru_off a n value he).1

/-- Neither a fault nor a response touches an array (R137, R141). -/
theorem ArrayFrame.faulted {t : State} (h : ArrayFrame a n s t) (c : Cause) (cw : Word) :
    ArrayFrame a n s (faulted t c cw) := ⟨h.lru, h.plru, h.lruOff, h.plruOff⟩

theorem ArrayFrame.respond {t : State} (h : ArrayFrame a n s t) (r : Response) : ArrayFrame a n s (t.respond r) :=
  ⟨h.lru, h.plru, h.lruOff, h.plruOff⟩

/-- The execution, whether AgeOverflow cuts it short or not (R109, R135). -/
theorem perform_arrayFrame (hrun : s.phase = .run) (cw : Word) : ArrayFrame a n s (perform cw a n value s) := by
  cases hraised : (afterLru a n value s).raised with
  | true =>
    rw [perform_raised hraised (by simp [hrun])]
    exact afterLru_arrayFrame.faulted _ _
  | false =>
    rw [perform_done hraised]
    exact afterPlru_arrayFrame.respond _

theorem handle_arrayFrame (cw : Word) : ArrayFrame a n s (handle cw a n value s) := by
  cases hp : s.phase with
  | error => rw [handle_of_error hp]; exact ArrayFrame.refl.respond _
  | done => rw [handle_of_done hp]; exact ArrayFrame.refl.faulted _ _
  | run =>
    rcases handle_cases (cw := cw) (a := a) (n := n) (value := value) hp with e | e | ⟨-, -, e⟩ <;> rw [e]
    · exact ArrayFrame.refl.faulted _ _
    · exact ArrayFrame.refl.faulted _ _
    · exact perform_arrayFrame hp cw

/-- Settles O27: the frame of Handle. -/
theorem accessChangesOnlyBlocksItMapsTo : Obligations.AccessChangesOnlyBlocksItMapsTo := by
  intro i a n value s t hi ht
  rw [exec_of_access hi] at ht
  cases ht
  obtain ⟨hlru, hplru, hlruOff, hplruOff⟩ := handle_arrayFrame (s := s) (a := a) (n := n) (value := value) (encode i)
  exact ⟨fun k hk => ⟨hlru k hk, hplru k hk⟩, hlruOff, hplruOff⟩

end Sys2Proof.Machine
end

section
/-! The LRU policy (42_lru_policy.md): the touch, the victim, and why the two together are true LRU. In a full block
with unbounded ages the age of a touched way is the number of touches since its own latest one, so the oldest way is the
one touched longest ago. -/

namespace Sys2Proof.Machine

variable {B : Block Nat} {v : Fin 4}

/-! ### LRU.Touch (R94) -/

/-- With unbounded ages a touch raises nothing, so every way has the age of R94. -/
theorem lruTouch_none_recency (B : Block Nat) (w v : Fin 4) :
    ((lruTouch none B w).block.line v).recency = touchedAge B w v :=
  (lruOps_gives none).recency B w v (not_ageBlocked_iff.mp (not_ageBlocked_none B w))

/-- Settles O12: what `lruTouch_spec` says, with the limit and the resulting age written out. -/
theorem lruTouchAgesTheOtherWays : Obligations.LruTouchAgesTheOtherWays := by
  intro ageW B w
  obtain ⟨hraised, hocc, hkept, -, hage⟩ := lruTouch_spec ageW B w
  refine ⟨?_, hocc, hkept, fun hr v => ?_⟩
  · simpa only [ageBlocked, occupied_iff, atLimit_iff] using hraised
  · simpa only [touchedAge, occupied_iff] using hage hr v

/-! ### LRU.Victim (R95, R96) -/

theorem occupied_lruVictim (h : 0 < B.occ) : B.occupied (lruVictim B) = true :=
  (lruVictim_spec ⟨0, (occupied_iff B 0).mpr h⟩).1

theorem recency_le_lruVictim (hv : B.occupied v = true) :
    (B.line v).recency ≤ (B.line (lruVictim B)).recency := by
  obtain ⟨-, hmax, -⟩ := lruVictim_spec ⟨v, hv⟩
  exact hmax ▸ (maxAge_spec B).1 v hv

/-- A way below the victim is occupied too, as ways fill from 0, and it does not reach the maximum age (R95). -/
theorem recency_lt_of_lt_lruVictim (h : 0 < B.occ) (hv : v < lruVictim B) :
    (B.line v).recency < (B.line (lruVictim B)).recency := by
  obtain ⟨hocc, hmax, hleast⟩ := lruVictim_spec ⟨_, occupied_lruVictim h⟩
  have hvo : B.occupied v = true := by
    rw [occupied_iff] at hocc ⊢
    omega
  refine lt_of_le_of_ne (recency_le_lruVictim hvo) fun he => ?_
  exact hleast v hv ⟨hvo, he.trans hmax⟩

/-- Without ties the victim is the only way of maximum age (R96). -/
theorem recency_lt_of_ne_lruVictim (hd : B.agesDistinct) (h : 0 < B.occ) (hv : B.occupied v = true)
    (hne : v ≠ lruVictim B) : (B.line v).recency < (B.line (lruVictim B)).recency :=
  lt_of_le_of_ne (recency_le_lruVictim hv) fun he => hne (hd v _ hv (occupied_lruVictim h) he)

/-- The example of R96: ways 0 and 3 are younger than way 1, and way 2 ties with it but is not the first. -/
theorem lruVictim_of_ages_5_7_7_2 (hocc : B.occ = 4) (h0 : (B.line 0).recency = 5) (h1 : (B.line 1).recency = 7)
    (h2 : (B.line 2).recency = 7) (h3 : (B.line 3).recency = 2) : lruVictim B = 1 := by
  have hpos : 0 < B.occ := by omega
  have hmax : 7 ≤ (B.line (lruVictim B)).recency :=
    h1 ▸ recency_le_lruVictim ((occupied_iff B 1).mpr (by rw [hocc]; decide))
  have hfirst : 1 < lruVictim B → 7 < (B.line (lruVictim B)).recency :=
    fun hlt => h1 ▸ recency_lt_of_lt_lruVictim hpos hlt
  generalize lruVictim B = u at hmax hfirst ⊢
  match u with
  | 0 => omega
  | 1 => rfl
  | 2 => simp [h2] at hfirst
  | 3 => omega

/-- Settles O13. -/
theorem lruVictimIsFirstOfMaximumAge : Obligations.LruVictimIsFirstOfMaximumAge := by
  intro B
  simp only [← occupied_iff]
  exact ⟨fun h => ⟨occupied_lruVictim h, fun _ => recency_le_lruVictim, fun _ => recency_lt_of_lt_lruVictim h,
    fun hd _ => recency_lt_of_ne_lruVictim hd h⟩, lruVictim_of_ages_5_7_7_2⟩

/-! ### True LRU (R98) -/

/-- A block after a sequence of touches with unbounded ages. -/
def lruTouches (B : Block Nat) (touches : List (Fin 4)) : Block Nat :=
  touches.foldl (fun C w => (lruTouch none C w).block) B

theorem lruTouches_concat (B : Block Nat) (touches : List (Fin 4)) (w : Fin 4) :
    lruTouches B (touches ++ [w]) = (lruTouch none (lruTouches B touches) w).block :=
  List.foldl_concat ..

theorem lruTouches_occ (B : Block Nat) (touches : List (Fin 4)) : (lruTouches B touches).occ = B.occ := by
  induction touches using List.reverseRecOn with
  | nil => rfl
  | append_singleton touches w ih => rw [lruTouches_concat, (lruTouch_spec none _ w).2.1, ih]

/-- The age of a touched way is the number of touches after its latest one: that touch made it 0, and each later touch
of another way added 1 (R94, R98). -/
theorem lruTouches_recency {touches : List (Fin 4)} (hv : B.occupied v = true) (ht : v ∈ touches) :
    ((lruTouches B touches).line v).recency = touches.reverse.idxOf v := by
  induction touches using List.reverseRecOn with
  | nil => cases ht
  | append_singleton touches w ih =>
    rw [lruTouches_concat, lruTouch_none_recency, List.reverse_concat]
    by_cases hvw : v = w
    · simp [touchedAge, hvw]
    · have hmem : v ∈ touches := by simpa [hvw] using ht
      have hocc : (lruTouches B touches).occupied v = true := by
        rwa [occupied_iff, lruTouches_occ, ← occupied_iff]
      rw [touchedAge, if_neg hvw, if_pos hocc, ih hmem, List.idxOf_cons_ne _ (Ne.symm hvw)]

/-- Once every way has been touched the ages are distinct, whatever they were before. -/
theorem lruTouches_agesDistinct {touches : List (Fin 4)} (hfull : B.occ = 4) (hall : ∀ w, w ∈ touches) :
    (lruTouches B touches).agesDistinct := by
  intro v w _ _ he
  have hocc : ∀ u, B.occupied u = true := fun u => (occupied_iff B u).mpr (by omega)
  rw [lruTouches_recency (hocc v) (hall v), lruTouches_recency (hocc w) (hall w)] at he
  exact (List.idxOf_inj (List.mem_reverse.mpr (hall v))).mp he

/-- Settles O14: the victim is the oldest way, and ages count the touches since a way's latest one. -/
theorem lruVictimIsLeastRecentlyTouched : Obligations.LruVictimIsLeastRecentlyTouched := by
  intro B touches hfull hall B' v hne
  have hage : ∀ u, (B'.line u).recency = touches.reverse.idxOf u := fun u =>
    lruTouches_recency ((occupied_iff B u).mpr (by omega)) (hall u)
  have hocc : B'.occ = 4 := (lruTouches_occ B touches).trans hfull
  rw [← hage, ← hage]
  exact recency_lt_of_ne_lruVictim (lruTouches_agesDistinct hfull hall) (by omega)
    ((occupied_iff B' v).mpr (by omega)) hne

end Sys2Proof.Machine
end

section
/-! The pseudo-LRU policy (43_plru_policy.md): the touch, the victim, and why the way just touched is not evicted next.
Every touch leaves its own way's bit 1 and the bit of some other way 0, so the victim search finds a way, and a way
with a clear bit is not the touched one. -/

namespace Sys2Proof.Machine

variable {B : Block Bool}

/-! ### PLRU.Touch (R101) -/

/-- Settles O15: what `plruTouch_line` says of every way, with the condition of the clear-all written out. -/
theorem plruTouchSetsAndClearsAll : Obligations.PlruTouchSetsAndClearsAll := fun B w =>
  ⟨plruTouch_occ B w, plruTouch_line B w⟩

theorem plruTouch_recency_self (B : Block Bool) (w : Fin 4) : ((plruTouch B w).line w).recency = true := by
  simp [plruTouch_line]

/-- If the clear-all fires it clears every other way; if it does not, that is for a way whose bit is 0 and stays so. -/
theorem exists_clear_after_plruTouch (B : Block Bool) (w : Fin 4) :
    ∃ v, ((plruTouch B w).line v).recency = false := by
  by_cases hc : clearAllFires B w
  · obtain ⟨v, hv⟩ := exists_ne w
    exact ⟨v, by simp [plruTouch_of_clearAllFires hc, hv]⟩
  · obtain ⟨v, hv, hclear⟩ : ∃ v, v ≠ w ∧ (B.line v).recency = false := by simpa using hc
    exact ⟨v, by rw [plruTouch_line, if_neg hv, if_neg hc, hclear]⟩

/-! ### PLRU.Victim (R103, R104) -/

/-- The ways below the victim are occupied too, as ways fill from 0, so it is for their used bits that they were passed
over (R103). -/
theorem plruVictim_of_exists_clear (h : ∃ v, B.occupied v = true ∧ (B.line v).recency = false) :
    B.occupied (plruVictim B) = true ∧ (B.line (plruVictim B)).recency = false ∧
      ∀ v, v < plruVictim B → (B.line v).recency = true := by
  obtain ⟨u, hu⟩ := h
  rcases plruVictim_spec B with ⟨hocc, hclear, hleast⟩ | ⟨-, hnone⟩
  · refine ⟨hocc, hclear, fun v hv => ?_⟩
    have hvo : B.occupied v = true := by
      rw [occupied_iff] at hocc ⊢
      omega
    simpa [hvo] using hleast v hv
  · exact absurd hu (hnone u)

/-- The fallback of R104. -/
theorem plruVictim_eq_zero (h : ∀ v, B.occupied v = true → (B.line v).recency = true) : plruVictim B = 0 := by
  rcases plruVictim_spec B with ⟨hocc, hclear, -⟩ | ⟨hzero, -⟩
  · simp [h _ hocc] at hclear
  · exact hzero

/-- A full block with legal used bits never needs the fallback (R28 (c)). -/
theorem Block.usedLegal.exists_clear (h : B.usedLegal) (hfull : B.occ = 4) :
    ∃ v, B.occupied v = true ∧ (B.line v).recency = false := by
  obtain ⟨-, v, hclear⟩ := h.2 hfull
  exact ⟨v, (occupied_iff B v).mpr (by omega), hclear⟩

/-- Settles O16: the search, its fallback, and why a legal full block does not reach it. -/
theorem plruVictimIsFirstClearWay : Obligations.PlruVictimIsFirstClearWay := by
  intro B
  simp only [← occupied_iff]
  exact ⟨plruVictim_of_exists_clear, plruVictim_eq_zero, fun hfull hlegal => hlegal.exists_clear hfull⟩

/-! ### The way just touched (R105) -/

/-- The victim's bit is 0 and the touched way's is 1 (R105 (b)). -/
theorem plruVictim_plruTouch_ne (hfull : B.occ = 4) (w : Fin 4) : plruVictim (plruTouch B w) ≠ w := by
  obtain ⟨v, hclear⟩ := exists_clear_after_plruTouch B w
  have hocc : (plruTouch B w).occupied v = true := by
    rw [occupied_iff, plruTouch_occ]
    omega
  obtain ⟨-, hvictim, -⟩ := plruVictim_of_exists_clear ⟨v, hocc, hclear⟩
  intro he
  rw [he, plruTouch_recency_self] at hvictim
  cases hvictim

/-- Settles O17: the touched way is counted among the set bits, some other way is not, and the victim is a way with a
clear bit. -/
theorem plruTouchedWayIsNotTheNextVictim : Obligations.PlruTouchedWayIsNotTheNextVictim := by
  intro B w hfull
  obtain ⟨v, hclear⟩ := exists_clear_after_plruTouch B w
  have hset := plruTouch_recency_self B w
  refine ⟨hset, ?_, ?_, plruVictim_plruTouch_ne hfull w⟩
  · exact List.length_pos_of_mem (List.mem_filter.mpr ⟨mem_ways w, hset⟩)
  · exact Nat.lt_succ_iff.mp (List.length_filter_lt_length_iff_exists.mpr ⟨v, mem_ways v, by simp [hclear]⟩)

end Sys2Proof.Machine
end

section
/-! What FLUSH writes back (44_engine_commands.md R120 to R122): the enabled arrays are drained one after the other, so a
byte of `MEM` is that of the last one that holds its line dirty, and no byte but those changes. -/

namespace Sys2Proof.Machine

variable {ρ : Type}

/-! ### One array's turn -/

/-- `MEM` after the turn of one array in FLUSH: drained if the array is enabled (R121). -/
def drainIf (on : Bool) (arr : CacheArray ρ) (m : Memory) : Memory := if on then drainArray arr m else m

theorem drainAll_eq_drainIf (s : State) :
    drainAll s = drainIf (enabled s.mode .plru) s.plru (drainIf (enabled s.mode .lru) s.lru s.mem) := rfl

section Turn

variable {on : Bool} {arr : CacheArray ρ} {m : Memory} (h : m.wf = true)

include h

theorem drainIf_wf : (drainIf on arr m).wf = true := by
  unfold drainIf
  split
  · exact drainArray_wf arr h
  · exact h

theorem read_drainIf_of_flushes (hd : ∀ k, (arr.block k).tagsDistinct) {x : Addr} {w : Fin 4} (hon : on = true)
    (hw : flushes arr x w) :
    (drainIf on arr m).read x.toNat = (arr.block (decompose x).index).byteAt w (decompose x).offset := by
  rw [drainIf, if_pos hon]
  exact read_drainArray_of_flushes h hd hw

theorem read_drainIf_of_not_flushes {x : Addr} (hx : ¬(on = true ∧ ∃ w, flushes arr x w)) :
    (drainIf on arr m).read x.toNat = m.read x.toNat := by
  unfold drainIf
  split
  · rename_i hon
    exact read_drainArray_of_not_flushes h fun hw => hx ⟨hon, hw⟩
  · rfl

end Turn

/-! ### The command -/

/-- Settles O34: the response is a fixed word, and the pseudo-LRU array's turn comes after that of the LRU array. -/
theorem flushWritesBackEveryDirtyLine : Obligations.FlushWritesBackEveryDirtyLine := by
  intro z a d s hrun
  refine ⟨flushed s, _, exec_flush_of_run hrun z a d, rfl, reservedOf_responseWord .., faultOf_responseWord ..,
    causeOf_responseWord .., phaseOf_responseWord .., hitLruOf_responseWord .., hitPlruOf_responseWord ..,
    rdataOf_responseWord .., fun hwf hlru hplru => ?_⟩
  have hwf' : (drainIf (enabled s.mode .lru) s.lru s.mem).wf = true := drainIf_wf hwf
  have hmem : (flushed s).mem = drainAll s := rfl
  simp only [hmem, drainAll_eq_drainIf]
  refine ⟨drainIf_wf hwf', fun x => ⟨fun w hon hw => read_drainIf_of_flushes hwf' hplru hon hw,
    fun w hon hw hno => ?_, fun hnoLru hno => ?_⟩⟩
  · exact (read_drainIf_of_not_flushes hwf' hno).trans (read_drainIf_of_flushes hwf hlru hon hw)
  · exact (read_drainIf_of_not_flushes hwf' hno).trans (read_drainIf_of_not_flushes hwf hnoLru)

end Sys2Proof.Machine
end

section
/-! The completed access (44_engine_commands.md R109 to R118): an admitted access with room for ages leaves one state and
gives one response word, both written out here in terms of the two policies' turns; what each turn does to its array, its
hit flag and the bytes it returns are facts about those turns. -/

namespace Sys2Proof.Machine

variable {i : Instr} {a : Addr} {n : Nat} {value : Option Data} {s : State}

/-! ### The state and the response word of a completed access -/

/-- The response word of a completed access (R61, R109). -/
def completedWord (a : Addr) (n : Nat) (value : Option Data) (s : State) : Word :=
  responseWord .none false .run (afterPlru a n value s).hit (afterLru a n value s).hit
    (accessData s.mode value (afterLru a n value s).bytes (afterPlru a n value s).bytes)

/-- The state a completed access leaves (R109). -/
def completedState (a : Addr) (n : Nat) (value : Option Data) (s : State) : State :=
  (afterPlru a n value s).state.respond (.word (completedWord a n value s))

@[simp] theorem completedState_lru : (completedState a n value s).lru = (afterLru a n value s).state.lru := by
  simp [completedState]

@[simp] theorem completedState_plru : (completedState a n value s).plru = (afterPlru a n value s).state.plru := rfl

@[simp] theorem completedState_mem : (completedState a n value s).mem = (afterPlru a n value s).state.mem := rfl

theorem ofBool_eq_one_iff (b : Bool) : BitVec.ofBool b = 1#1 ↔ b = true := by cases b <;> decide

theorem hitLruOf_completedWord : hitLruOf (completedWord a n value s) = 1#1 ↔ (afterLru a n value s).hit = true := by
  rw [completedWord, hitLruOf_responseWord, ofBool_eq_one_iff]

theorem hitPlruOf_completedWord :
    hitPlruOf (completedWord a n value s) = 1#1 ↔ (afterPlru a n value s).hit = true := by
  rw [completedWord, hitPlruOf_responseWord, ofBool_eq_one_iff]

@[simp] theorem rdataOf_completedWord : rdataOf (completedWord a n value s) =
    accessData s.mode value (afterLru a n value s).bytes (afterPlru a n value s).bytes := by
  rw [completedWord, rdataOf_responseWord]

theorem rdataOf_completedWord_write (h : value.isSome = true) : rdataOf (completedWord a n value s) = 0#32 := by
  rw [rdataOf_completedWord, accessData, if_pos h]

/-- `RDATA` of a READ comes from the LRU array when that is enabled, else from the pseudo-LRU array (R117). -/
theorem rdataOf_completedWord_read (hsome : someEnabled s) : rdataOf (completedWord a n none s) =
    if enabled s.mode .lru then readData (lruDrive a n none s).bytes else readData (plruDrive a n none s).bytes := by
  rw [rdataOf_completedWord, accessData, if_neg (by simp)]
  split
  · rename_i he
    obtain ⟨-, -, -, hbytes, -⟩ := afterLru_on a n none he
    rw [hbytes]
  · rename_i he
    obtain ⟨-, -, -, hbytes⟩ := afterPlru_on a n none ((enabled_of_someEnabled hsome).resolve_left he)
    rw [hbytes]

/-! ### Every admitted access with room for ages completes -/

theorem size_le_four (hi : accessOf i = some (a, n, value)) : n ≤ 4 := by
  have := accessOf_size hi
  omega

theorem afterLru_not_raised_of_admitted (hi : accessOf i = some (a, n, value)) (ha : Admitted s a n)
    (hroom : AgeRoom s a n) : (afterLru a n value s).raised = false :=
  hroom.not_raised (value := value) ha.inMem (size_le_four hi)

/-- An access completes when it is admitted and no age can overflow (R109 to R116). -/
theorem exec_access_completes (hi : accessOf i = some (a, n, value)) (ha : Admitted s a n) (hroom : AgeRoom s a n) :
    exec i s = .next (completedState a n value s) ∧
      AccessDone s (completedState a n value s) (completedWord a n value s) := by
  have hraised := afterLru_not_raised_of_admitted hi ha hroom
  have hperform : perform (encode i) a n value s = completedState a n value s := by
    rw [perform_done hraised, ha.running]
    rfl
  refine ⟨by rw [exec_of_access hi, handle_of_admitted ha, hperform], ?_⟩
  exact hperform ▸ perform_accessDone (cw := encode i) ha.running hraised

/-- Settles O23: an access that completes is done, and a WRITE answers 0. -/
theorem accessCompletesAndCountsOneRequest : Obligations.AccessCompletesAndCountsOneRequest := by
  intro i a n value s hi ha hroom
  obtain ⟨hexec, hdone⟩ := exec_access_completes hi ha hroom
  exact ⟨_, _, hexec, hdone, rdataOf_completedWord_write⟩

/-! ### The hit flags (R116) -/

theorem afterLru_hit_iff :
    (afterLru a n value s).hit = true ↔ enabled s.mode .lru = true ∧ (lruDrive a n value s).hit = true := by
  cases he : enabled s.mode .lru with
  | true =>
    obtain ⟨-, -, hhit, -⟩ := afterLru_on a n value he
    simp [hhit]
  | false =>
    obtain ⟨-, -, hhit, -⟩ := afterLru_off a n value he
    simp [hhit]

theorem afterPlru_hit_iff :
    (afterPlru a n value s).hit = true ↔ enabled s.mode .plru = true ∧ (plruDrive a n value s).hit = true := by
  cases he : enabled s.mode .plru with
  | true =>
    obtain ⟨-, -, hhit, -⟩ := afterPlru_on a n value he
    simp [hhit]
  | false =>
    obtain ⟨-, -, hhit, -⟩ := afterPlru_off a n value he
    simp [hhit]

theorem lruDrive_not_raised (hraised : (afterLru a n value s).raised = false) (he : enabled s.mode .lru = true) :
    (lruDrive a n value s).raised = false := by
  obtain ⟨-, -, -, -, hdrive⟩ := afterLru_on a n value he
  rwa [← hdrive]

/-- The hit flag of an event that raises nothing, by the addresses of its bytes (R116). -/
theorem drive_subAccesses_hit_iff {ρ : Type} {pol : PolicyOps ρ} (hp : TouchOnly pol) {arr : CacheArray ρ} {m : Memory}
    (hraised : (drive pol (subAccesses a n value) arr m).raised = false) :
    (drive pol (subAccesses a n value) arr m).hit = true ↔ ∀ j < n, residentIn arr (byteAddr a j) :=
  (drive_hit_iff hp _ arr m hraised).trans forall_subAccesses

theorem hitLruOf_completedWord_iff_resident (hraised : (afterLru a n value s).raised = false) :
    hitLruOf (completedWord a n value s) = 1#1 ↔
      enabled s.mode .lru = true ∧ ∀ j < n, residentIn s.lru (byteAddr a j) := by
  rw [hitLruOf_completedWord, afterLru_hit_iff]
  exact and_congr_right fun he => drive_subAccesses_hit_iff (lruOps_touchOnly _) (lruDrive_not_raised hraised he)

theorem hitPlruOf_completedWord_iff_resident :
    hitPlruOf (completedWord a n value s) = 1#1 ↔
      enabled s.mode .plru = true ∧ ∀ j < n, residentIn s.plru (byteAddr a j) := by
  rw [hitPlruOf_completedWord, afterPlru_hit_iff]
  exact and_congr_right fun _ => drive_subAccesses_hit_iff plruOps_touchOnly (drive_plru_raised ..)

/-- Settles O24: the LRU turn leaves the pseudo-LRU array as it was, so both flags speak of the state before. -/
theorem hitFlagIffEveryByteResident : Obligations.HitFlagIffEveryByteResident := by
  intro i a n value s hi ha hroom
  obtain ⟨hexec, hdone⟩ := exec_access_completes hi ha hroom
  exact ⟨_, _, hexec, hdone, hitLruOf_completedWord_iff_resident (afterLru_not_raised_of_admitted hi ha hroom),
    hitPlruOf_completedWord_iff_resident⟩

/-! ### The turns as their sub-accesses in order (R109, R118) -/

/-- An array and `MEM` after its turn: all `n` sub-accesses if it is enabled (R46, R118). -/
def afterTurn {ρ : Type} (on : Bool) (pol : PolicyOps ρ) (a : Addr) (n : Nat) (value : Option Data) (arr : CacheArray ρ)
    (m : Memory) : CacheArray ρ × Memory :=
  if on then afterBytes pol a value arr m n else (arr, m)

theorem afterLru_eq_afterTurn (hraised : (afterLru a n value s).raised = false) :
    (afterLru a n value s).state.lru =
        (afterTurn (enabled s.mode .lru) (lruOps s.params.ageW) a n value s.lru s.mem).1 ∧
      (afterLru a n value s).state.mem =
        (afterTurn (enabled s.mode .lru) (lruOps s.params.ageW) a n value s.lru s.mem).2 := by
  cases he : enabled s.mode .lru with
  | true =>
    obtain ⟨hlru, hmem, -⟩ := afterLru_on a n value he
    rw [hlru, hmem, lruDrive, drive_subAccesses _ _ _ _ _ _ (lruDrive_not_raised hraised he)]
    exact ⟨rfl, rfl⟩
  | false =>
    obtain ⟨hlru, hmem, -⟩ := afterLru_off a n value he
    exact ⟨hlru, hmem⟩

theorem afterPlru_eq_afterTurn :
    (afterPlru a n value s).state.plru =
        (afterTurn (enabled s.mode .plru) plruOps a n value s.plru (afterLru a n value s).state.mem).1 ∧
      (afterPlru a n value s).state.mem =
        (afterTurn (enabled s.mode .plru) plruOps a n value s.plru (afterLru a n value s).state.mem).2 := by
  cases he : enabled s.mode .plru with
  | true =>
    obtain ⟨hplru, hmem, -⟩ := afterPlru_on a n value he
    rw [hplru, hmem, plruDrive, drive_subAccesses _ _ _ _ _ _ (drive_plru_raised ..)]
    exact ⟨rfl, rfl⟩
  | false =>
    obtain ⟨hplru, hmem, -⟩ := afterPlru_off a n value he
    exact ⟨hplru, hmem⟩

/-- The hit flag of an event that raises nothing, by its sub-accesses (R109). -/
theorem drive_subAccesses_hit_iff_bytes {ρ : Type} {pol : PolicyOps ρ} {arr : CacheArray ρ} {m : Memory}
    (hraised : (drive pol (subAccesses a n value) arr m).raised = false) :
    (drive pol (subAccesses a n value) arr m).hit = true ↔ ∀ k < n, (byteResult pol a value arr m k).hit = true := by
  simp [drive_subAccesses pol a value arr m n hraised]

/-- The value of the bytes an event returns is their little-endian sum (R41, R60). -/
theorem toNat_readData_drive {ρ : Type} {pol : PolicyOps ρ} {arr : CacheArray ρ} {m : Memory} (hn : n ≤ 4)
    (hraised : (drive pol (subAccesses a n value) arr m).raised = false) :
    (readData (drive pol (subAccesses a n value) arr m).bytes).toNat =
      byteSum n fun k => (byteResult pol a value arr m k).byte := by
  rw [drive_subAccesses pol a value arr m n hraised]
  exact toNat_readData_map hn _

/-- `RDATA` of a READ is the little-endian sum of the bytes returned, by the array that supplies it (R109, R117). -/
theorem toNat_rdataOf_completedWord_read (hn : n ≤ 4) (hraised : (afterLru a n none s).raised = false)
    (hsome : someEnabled s) :
    (rdataOf (completedWord a n none s)).toNat =
      if enabled s.mode .lru then byteSum n fun k => (byteResult (lruOps s.params.ageW) a none s.lru s.mem k).byte
      else byteSum n fun k => (byteResult plruOps a none s.plru (afterLru a n none s).state.mem k).byte := by
  rw [rdataOf_completedWord_read hsome]
  split
  · rename_i he
    exact toNat_readData_drive hn (lruDrive_not_raised hraised he)
  · exact toNat_readData_drive hn (drive_plru_raised ..)

/-- Settles O57: each turn is its sub-accesses in order, that of the pseudo-LRU array on the `MEM` the LRU turn leaves. -/
theorem accessIsItsSubAccessesInOrder : Obligations.AccessIsItsSubAccessesInOrder := by
  intro i a n value s hi ha hroom lruPol lruTurn plruTurn lruByte plruByte
  obtain ⟨hexec, hdone⟩ := exec_access_completes hi ha hroom
  have hraised := afterLru_not_raised_of_admitted hi ha hroom
  obtain ⟨hlru, hlruMem⟩ : _ = lruTurn.1 ∧ _ = lruTurn.2 := afterLru_eq_afterTurn hraised
  have hplruTurn := afterPlru_eq_afterTurn (a := a) (n := n) (value := value) (s := s)
  rw [hlruMem] at hplruTurn
  obtain ⟨hplru, hmem⟩ : _ = plruTurn.1 ∧ _ = plruTurn.2 := hplruTurn
  refine ⟨_, _, hexec, hdone, completedState_lru.trans hlru, completedState_plru.trans hplru,
    completedState_mem.trans hmem, ?_, ?_, rdataOf_completedWord_write, ?_⟩
  · rw [hitLruOf_completedWord, afterLru_hit_iff]
    exact and_congr_right fun he => drive_subAccesses_hit_iff_bytes (lruDrive_not_raised hraised he)
  · rw [hitPlruOf_completedWord, afterPlru_hit_iff, plruDrive, hlruMem]
    exact and_congr_right fun _ => drive_subAccesses_hit_iff_bytes (drive_plru_raised ..)
  · rintro rfl hsome
    rw [toNat_rdataOf_completedWord_read (size_le_four hi) hraised hsome, hlruMem]

end Sys2Proof.Machine
end

section
/-! A READ after a WRITE of the same bytes (44_engine_commands.md R115, R117): the WRITE leaves each of its bytes in every
enabled array, and a READ whose bytes are there hits on all of them and answers them. No coherence is needed. -/

namespace Sys2Proof.Machine

section Array

variable {ρ : Type} {pol : PolicyOps ρ}

/-! ### The byte an array holds at an address -/

/-- The line of the address is resident in the array, with byte `b` at the address. -/
def HoldsByte (arr : CacheArray ρ) (y : Addr) (b : Byte) : Prop :=
  ∃ w, lookup (arr.block (decompose y).index) (decompose y).tag = some w ∧
    (arr.block (decompose y).index).byteAt w (decompose y).offset = b

theorem HoldsByte.resident {arr : CacheArray ρ} {y : Addr} {b : Byte} (h : HoldsByte arr y b) : residentIn arr y := by
  obtain ⟨w, hl, -⟩ := h
  exact Option.isSome_of_eq_some hl

/-- The sub-access works on the line of the address whenever it works on its set (R119). -/
def SameLineIfSameSet (x : SubAccess) (y : Addr) : Prop :=
  (decompose x.addr).index = (decompose y).index → (decompose x.addr).tag = (decompose y).tag

/-- A write leaves its byte in the array, whether it hits or misses (R80, R82). -/
theorem byteAccess_holds_written (hp : TouchOnly pol) (hv : VictimOccupied pol) {x : SubAccess} {b : Byte}
    (hx : x.write = some b) (arr : CacheArray ρ) (m : Memory) (h : (byteAccess pol x arr m).raised = false) :
    HoldsByte (byteAccess pol x arr m).arr x.addr b := by
  refine ⟨_, byteAccess_lookup_self hp hv x arr m h, ?_⟩
  rw [byteAccess_block hp x arr m h]
  unfold accessWay
  cases hl : lookup (arr.block (decompose x.addr).index) (decompose x.addr).tag with
  | some w => simp only [Option.getD_some, hitBlock_byteAt hp, hx]
  | none => simp only [Option.getD_none, missBlock_byteAt hp, hx, Option.getD_some]

/-- A byte the array holds stays there through a sub-access of the same event, unless that writes it (R79, R80, R119). -/
theorem byteAccess_holds (hp : TouchOnly pol) {C : Addr → Byte} {x : SubAccess} {y : Addr}
    (hxy : SameLineIfSameSet x y) {arr : CacheArray ρ} (m : Memory) (h : (byteAccess pol x arr m).raised = false)
    (hy : HoldsByte arr y (C y)) : HoldsByte (byteAccess pol x arr m).arr y (contentStep C x y) := by
  obtain ⟨w, hl, hb⟩ := hy
  refine ⟨w, byteAccess_lookup_other hp x arr m hxy hl, ?_⟩
  by_cases hk : (decompose y).index = (decompose x.addr).index
  · have hlx : lookup (arr.block (decompose x.addr).index) (decompose x.addr).tag = some w := by
      rw [hxy hk.symm, ← hk, hl]
    have hiff : (decompose y).offset = (decompose x.addr).offset ↔ y = x.addr := by
      refine ⟨fun ho => decompose_inj (AddrFields.toNat_inj ?_), fun e => by rw [e]⟩
      rw [AddrFields.toNat, AddrFields.toNat, hxy hk.symm, hk, ho]
    rw [hk] at hb ⊢
    rw [byteAccess_block hp x arr m h, hlx]
    simp only [hitBlock_byteAt_offset hp, hb, hiff, true_and, contentStep]
  · rw [byteAccess_block_ne x arr m hk, hb, contentStep_of_ne]
    rintro rfl
    exact hk rfl

/-- A read of a byte the array holds returns it (R79). -/
theorem byteAccess_byte_of_holds (hp : TouchOnly pol) {x : SubAccess} (hx : x.write = none) {arr : CacheArray ρ}
    {m : Memory} {b : Byte} (h : (byteAccess pol x arr m).raised = false) (hb : HoldsByte arr x.addr b) :
    (byteAccess pol x arr m).byte = b := by
  obtain ⟨w, hl, hb⟩ := hb
  have htouch : (pol.touch (arr.block (decompose x.addr).index) w).raised = false := by
    rwa [byteAccess_raised, hl] at h
  rw [byteAccess_hit hl, hitAccess_eq _ _ _ _ htouch]
  simp only [hitBlock_byteAt hp, hx, Option.getD_none, hb]

/-! ### An event -/

theorem drive_holds (hp : TouchOnly pol) {xs : List SubAccess} {y : Addr} (hxy : ∀ x ∈ xs, SameLineIfSameSet x y)
    {C : Addr → Byte} {arr : CacheArray ρ} {m : Memory} (h : (drive pol xs arr m).raised = false)
    (hy : HoldsByte arr y (C y)) : HoldsByte (drive pol xs arr m).arr y (xs.foldl contentStep C y) := by
  induction xs generalizing C arr m with
  | nil => exact hy
  | cons x xs ih =>
    obtain ⟨hx, hxs⟩ := List.forall_mem_cons.mp hxy
    cases hr : (byteAccess pol x arr m).raised with
    | true => rw [drive_cons_raised x xs arr m hr] at h; cases h
    | false =>
      rw [drive_cons x xs arr m hr] at h ⊢
      exact ih hxs h (byteAccess_holds hp hx m hr hy)

/-- An event of writes leaves in the array the content it gives each of its bytes (R80, R82, R119). -/
theorem drive_holds_written (hp : TouchOnly pol) (hv : VictimOccupied pol) {xs : List SubAccess}
    (hone : OneLinePerSet xs) (hw : ∀ x ∈ xs, x.write.isSome = true) (C : Addr → Byte) (arr : CacheArray ρ) (m : Memory)
    (h : (drive pol xs arr m).raised = false) :
    ∀ x ∈ xs, HoldsByte (drive pol xs arr m).arr x.addr (xs.foldl contentStep C x.addr) := by
  induction xs generalizing C arr m with
  | nil => simp
  | cons x xs ih =>
    obtain ⟨hwx, hws⟩ := List.forall_mem_cons.mp hw
    obtain ⟨b, hb⟩ := Option.isSome_iff_exists.mp hwx
    cases hr : (byteAccess pol x arr m).raised with
    | true => rw [drive_cons_raised x xs arr m hr] at h; cases h
    | false =>
      rw [drive_cons x xs arr m hr] at h ⊢
      refine List.forall_mem_cons.mpr ⟨?_, ih (fun z hz w hw => ?_) hws _ _ _ h⟩
      · refine drive_holds hp (C := contentStep C x) (fun z hz => ?_) h ?_
        · exact hone z (List.mem_cons_of_mem _ hz) x List.mem_cons_self
        · simpa [contentStep, hb] using byteAccess_holds_written hp hv hb arr m hr
      · exact hone z (List.mem_cons_of_mem _ hz) w (List.mem_cons_of_mem _ hw)

/-- An event of reads whose bytes the array holds returns them, in order (R79, R109). -/
theorem drive_bytes_of_holds (hp : TouchOnly pol) {xs : List SubAccess} (hone : OneLinePerSet xs)
    (hread : ∀ x ∈ xs, x.write = none) {C : Addr → Byte} {arr : CacheArray ρ} {m : Memory}
    (h : (drive pol xs arr m).raised = false) (hC : ∀ x ∈ xs, HoldsByte arr x.addr (C x.addr)) :
    (drive pol xs arr m).bytes = xs.map fun x => C x.addr := by
  induction xs generalizing arr m with
  | nil => rfl
  | cons x xs ih =>
    obtain ⟨hreadx, hreads⟩ := List.forall_mem_cons.mp hread
    obtain ⟨hCx, hCs⟩ := List.forall_mem_cons.mp hC
    cases hr : (byteAccess pol x arr m).raised with
    | true => rw [drive_cons_raised x xs arr m hr] at h; cases h
    | false =>
      rw [drive_cons x xs arr m hr] at h ⊢
      have hstay (z : SubAccess) (hz : z ∈ xs) : HoldsByte (byteAccess pol x arr m).arr z.addr (C z.addr) := by
        have hxz : SameLineIfSameSet x z.addr := hone x List.mem_cons_self z (List.mem_cons_of_mem _ hz)
        simpa only [contentStep_of_read C hreadx] using byteAccess_holds hp hxz m hr (hCs z hz)
      rw [List.map_cons, byteAccess_byte_of_holds hp hreadx hr hCx,
        ih (fun z hz w hw => hone z (List.mem_cons_of_mem _ hz) w (List.mem_cons_of_mem _ hw)) hreads h hstay]

end Array

/-! ### The bytes of an event in one array -/

section Event

variable {ρ : Type} {pol : PolicyOps ρ} {C : Addr → Byte} {arr : CacheArray ρ} {m : Memory} {a : Addr} {n : Nat}
  {d : Data}

/-- The array holds each of the `n` bytes at `a` with its content in `C`. -/
def HoldsEvent (C : Addr → Byte) (a : Addr) (n : Nat) (arr : CacheArray ρ) : Prop :=
  ∀ j < n, HoldsByte arr (byteAddr a j) (C (byteAddr a j))

theorem drive_write_holdsEvent (hp : TouchOnly pol) (hv : VictimOccupied pol) (hr : a.toNat + n ≤ 262144) (hn : n ≤ 4)
    (hraised : (drive pol (subAccesses a n (some d)) arr m).raised = false) :
    HoldsEvent (contentAfterWrite C a n d) a n (drive pol (subAccesses a n (some d)) arr m).arr := by
  have hw : ∀ x ∈ subAccesses a n (some d), x.write.isSome = true := by
    intro x hx
    obtain ⟨j, -, rfl⟩ := mem_subAccesses.mp hx
    rfl
  have hholds := drive_holds_written hp hv (subAccesses_oneLine hr hn _) hw C arr m hraised
  rw [foldl_contentStep_write C a n d hr] at hholds
  exact (forall_subAccesses
    (P := fun y => HoldsByte (drive pol (subAccesses a n (some d)) arr m).arr y (contentAfterWrite C a n d y))).mp
    hholds

theorem drive_read_of_holdsEvent (hp : TouchOnly pol) (hr : a.toNat + n ≤ 262144) (hn : n ≤ 4)
    (hraised : (drive pol (subAccesses a n none) arr m).raised = false) (hC : HoldsEvent C a n arr) :
    readData (drive pol (subAccesses a n none) arr m).bytes = contentValue C a n := by
  rw [drive_bytes_of_holds hp (subAccesses_oneLine hr hn none) subAccesses_read_write hraised
    ((forall_subAccesses (P := fun y => HoldsByte arr y (C y))).mpr hC)]
  simp [contentValue, subAccesses, Function.comp_def]

end Event

/-! ### The commands -/

section Commands

variable {i : Instr} {C : Addr → Byte} {a : Addr} {n : Nat} {d : Data} {s t : State}

/-- Every enabled array holds each of the `n` bytes at `a` with its content in `C`. -/
structure EnabledHold (C : Addr → Byte) (a : Addr) (n : Nat) (s : State) : Prop where
  lru : enabled s.mode .lru = true → HoldsEvent C a n s.lru
  plru : enabled s.mode .plru = true → HoldsEvent C a n s.plru

/-- A completed WRITE leaves its bytes in every enabled array (R41, R85). -/
theorem exec_write_enabledHold (hi : accessOf i = some (a, n, some d)) (ha : Admitted s a n) (hroom : AgeRoom s a n) :
    ∃ t, exec i s = .next t ∧ t.mode = s.mode ∧ EnabledHold (contentAfterWrite C a n d) a n t := by
  obtain ⟨hexec, hdone⟩ := exec_access_completes hi ha hroom
  have hraised := afterLru_not_raised_of_admitted hi ha hroom
  have hn := size_le_four hi
  refine ⟨_, hexec, hdone.mode, fun he => ?_, fun he => ?_⟩ <;> rw [hdone.mode] at he
  · rw [completedState_lru, (afterLru_on a n _ he).1]
    exact drive_write_holdsEvent (lruOps_touchOnly _) (lruOps_victimOccupied _) ha.inMem hn
      (lruDrive_not_raised hraised he)
  · rw [completedState_plru, (afterPlru_on a n _ he).1]
    exact drive_write_holdsEvent plruOps_touchOnly plruOps_victimOccupied ha.inMem hn (drive_plru_raised ..)

/-- A completed READ whose bytes every enabled array holds answers them, as a hit (R79, R116, R117). -/
theorem exec_read_of_enabledHold (hi : accessOf i = some (a, n, none)) (hsome : someEnabled s) (ha : Admitted s a n)
    (hroom : AgeRoom s a n) (hC : EnabledHold C a n s) :
    ∃ t rw, exec i s = .next t ∧ AccessDone s t rw ∧ rdataOf rw = contentValue C a n ∧
      (enabled s.mode .lru = true → hitLruOf rw = 1#1) ∧ (enabled s.mode .plru = true → hitPlruOf rw = 1#1) := by
  obtain ⟨hexec, hdone⟩ := exec_access_completes hi ha hroom
  have hraised := afterLru_not_raised_of_admitted hi ha hroom
  have hn := size_le_four hi
  refine ⟨_, _, hexec, hdone, ?_, fun he => ?_, fun he => ?_⟩
  · rw [rdataOf_completedWord_read hsome]
    split
    · rename_i he
      exact drive_read_of_holdsEvent (lruOps_touchOnly _) ha.inMem hn (lruDrive_not_raised hraised he) (hC.lru he)
    · rename_i he
      have hplru := hC.plru ((enabled_of_someEnabled hsome).resolve_left he)
      exact drive_read_of_holdsEvent plruOps_touchOnly ha.inMem hn (drive_plru_raised ..) hplru
  · exact (hitLruOf_completedWord_iff_resident hraised).mpr ⟨he, fun j hj => (hC.lru he j hj).resident⟩
  · exact hitPlruOf_completedWord_iff_resident.mpr ⟨he, fun j hj => (hC.plru he j hj).resident⟩

end Commands

/-! ### The value -/

/-- Byte `k` of a write value is digit `k` of the value in base 256 (R59). -/
theorem writeByte_toNat (d : Data) (k : Nat) : (writeByte d k).toNat = d.toNat / 256 ^ k % 256 := by
  simp [writeByte, BitVec.extractLsb'_toNat, Nat.shiftRight_eq_div_pow, pow_mul]

/-- The low bytes of a write value sum to its low bits (R41, R59). -/
theorem byteSum_writeByte (d : Data) (n : Nat) : byteSum n (writeByte d) = d.toNat % 256 ^ n := by
  induction n with
  | zero => simp [byteSum, Nat.mod_one]
  | succ n ih =>
    have hsum : byteSum (n + 1) (writeByte d) = byteSum n (writeByte d) + (writeByte d n).toNat * 256 ^ n := by
      simp [byteSum, List.range_succ]
    rw [hsum, ih, writeByte_toNat, Nat.mod_pow_succ, Nat.mul_comm]

theorem contentAfterWrite_byteAddr (C : Addr → Byte) {a : Addr} {n : Nat} (d : Data) (h : a.toNat + n ≤ 262144) {j : Nat}
    (hj : j < n) : contentAfterWrite C a n d (byteAddr a j) = writeByte d j := by
  have hb : (byteAddr a j).toNat = a.toNat + j := byteAddr_toNat (by omega)
  simp [contentAfterWrite, hb, hj]

/-- A WRITE makes its value, zero-extended from its size, the value of its bytes (R41, R60). -/
theorem toNat_contentValue_contentAfterWrite (C : Addr → Byte) {a : Addr} {n : Nat} (d : Data)
    (h : a.toNat + n ≤ 262144) (hn : n ≤ 4) :
    (contentValue (contentAfterWrite C a n d) a n).toNat = d.toNat % 256 ^ n := by
  have hbytes : (List.range n).map (fun j => contentAfterWrite C a n d (byteAddr a j)) =
      (List.range n).map (writeByte d) :=
    List.map_congr_left fun j hj => contentAfterWrite_byteAddr C d h (List.mem_range.mp hj)
  rw [contentValue, hbytes, toNat_readData_map hn, byteSum_writeByte]

/-! ### A READ after a WRITE -/

/-- The WRITE completes from `s`, and the READ after it, if admitted with room for ages, answers `v` as a hit of every
enabled policy. -/
def ReadsBack (s : State) (wr rd : Instr) (a : Addr) (n : Nat) (v : Data) : Prop :=
  Admitted s a n → AgeRoom s a n → ∃ t, exec wr s = .next t ∧
    (Admitted t a n → AgeRoom t a n → ∃ u rw, exec rd t = .next u ∧ AccessDone t u rw ∧ rdataOf rw = v ∧
      (enabled s.mode .lru = true → hitLruOf rw = 1#1) ∧ (enabled s.mode .plru = true → hitPlruOf rw = 1#1))

/-- Any WRITE is read back by a READ of the same bytes: its value, zero-extended from its size (R115, R117). -/
theorem readsBack_of_access {s : State} {wr rd : Instr} {a : Addr} {n : Nat} {d v : Data} (hsome : someEnabled s)
    (hwr : accessOf wr = some (a, n, some d)) (hrd : accessOf rd = some (a, n, none))
    (hv : v.toNat = d.toNat % 256 ^ n) : ReadsBack s wr rd a n v := by
  intro ha hroom
  obtain ⟨t, ht, hmode, hhold⟩ := exec_write_enabledHold (C := fun _ => 0) hwr ha hroom
  refine ⟨t, ht, fun ha' hroom' => ?_⟩
  have hsome' : someEnabled t := by rwa [someEnabled, hmode]
  obtain ⟨u, rw, hu, hdone, hdata, hhits⟩ := exec_read_of_enabledHold hrd hsome' ha' hroom' hhold
  rw [hmode] at hhits
  refine ⟨u, rw, hu, hdone, BitVec.eq_of_toNat_eq ?_, hhits⟩
  rw [hdata, toNat_contentValue_contentAfterWrite _ d ha.inMem (size_le_four hwr), hv]

/-- Settles O28: one size after the other. -/
theorem readAfterWriteReturnsTheValue : Obligations.ReadAfterWriteReturnsTheValue := by
  intro s a d e hsome
  refine ⟨?_, ?_, ?_⟩
  · exact readsBack_of_access (wr := .wr1 a d) (rd := .rd1 a e) hsome rfl rfl (by simp; omega)
  · exact readsBack_of_access (wr := .wr2 a d) (rd := .rd2 a e) hsome rfl rfl (by simp; omega)
  · exact readsBack_of_access (wr := .wr4 a d) (rd := .rd4 a e) hsome rfl rfl (Nat.mod_eq_of_lt d.isLt).symm

end Sys2Proof.Machine
end

section
/-! What a command word does, by its fields (30_encoding.md R64, R65, 60_exceptions.md R139): how it decodes, how the
step ends on what it decodes to, and the ways a command can end at all. -/

namespace Sys2Proof.Machine

/-! ### The fields of a word and its decoding (R64, R65) -/

section Decoding

variable {cw : Word}

theorem op_of_lt_two : ∀ o : BitVec 3, o.toNat < 2 → o = 0#3 ∨ o = 1#3 := by decide

theorem op_of_ge_four : ∀ o : BitVec 3, 4 ≤ o.toNat → o ≠ 0#3 ∧ o ≠ 1#3 ∧ o ≠ 2#3 ∧ o ≠ 3#3 := by decide

theorem size_legal_iff : ∀ z : BitVec 3, z ∈ [1#3, 2#3, 4#3] ↔ z.toNat = 1 ∨ z.toNat = 2 ∨ z.toNat = 4 := by decide

/-- A nonzero `RSV` or a reserved `OP` names no command (R65 (a), (b)). -/
theorem decode_of_reserved (h : rsvOf cw ≠ 0#8 ∨ 4 ≤ (opOf cw).toNat) : decode cw = .error .illegalCommand := by
  by_cases hr : rsvOf cw = 0#8
  · obtain ⟨h0, h1, h2, h3⟩ := op_of_ge_four (opOf cw) (h.resolve_left (not_not.mpr hr))
    simp [decode, h0, h1, h2, h3]
  · simp [decode, hr]

/-- A READ or WRITE of a size other than 1, 2 and 4 names no command (R65 (c)). -/
theorem decode_of_badSize (hr : rsvOf cw = 0#8) (ho : (opOf cw).toNat < 2)
    (hz : Sys2Proof.sizeOf cw ∉ [1#3, 2#3, 4#3]) : decode cw = .error .malformedEvent := by
  simp only [List.mem_cons, List.not_mem_nil, or_false, not_or] at hz
  obtain ⟨h1, h2, h4⟩ := hz
  rcases op_of_lt_two _ ho with h | h
  · simp [decode, decodeRead, hr, h, h1, h2, h4]
  · simp [decode, decodeWrite, hr, h, h1, h2, h4]

/-- A READ or WRITE of a legal size is an access of its address and size (R56, R57). -/
theorem decode_of_access (hr : rsvOf cw = 0#8) (ho : (opOf cw).toNat < 2)
    (hz : Sys2Proof.sizeOf cw ∈ [1#3, 2#3, 4#3]) : ∃ i value, decode cw = .ok i ∧
      accessOf i = some (addrOf cw, (Sys2Proof.sizeOf cw).toNat, value) := by
  simp only [List.mem_cons, List.not_mem_nil, or_false] at hz
  rcases op_of_lt_two _ ho with h | h
  · have hread : decode cw = decodeRead cw := by simp [decode, hr, h]
    rcases hz with hz | hz | hz <;> simp [hread, decodeRead, hz, accessOf]
  · have hwrite : decode cw = decodeWrite cw := by simp [decode, hr, h]
    rcases hz with hz | hz | hz <;> simp [hwrite, decodeWrite, hz, accessOf]

theorem decode_of_flush (hr : rsvOf cw = 0#8) (ho : (opOf cw).toNat = 2) :
    decode cw = .ok (.flush (Sys2Proof.sizeOf cw) (addrOf cw) (wdataOf cw)) := by
  have h : opOf cw = 2#3 := BitVec.eq_of_toNat_eq ho
  simp [decode, hr, h]

theorem decode_of_report (hr : rsvOf cw = 0#8) (ho : (opOf cw).toNat = 3) :
    decode cw = .ok (.report (Sys2Proof.sizeOf cw) (addrOf cw) (wdataOf cw)) := by
  have h : opOf cw = 3#3 := BitVec.eq_of_toNat_eq ho
  simp [decode, hr, h]

end Decoding

/-! ### Faults and responses (R61, R137) -/

section Faulted

variable (s : State) (c : Cause) (cw : Word)

/-- The response word of a fault: FAULT 1, its cause, phase ERROR, hit flags and RDATA 0 (R61, R137). -/
abbrev faultWord (c : Cause) : Word := responseWord c true .error false false 0#32

@[simp] theorem faulted_params : (faulted s c cw).params = s.params := rfl
@[simp] theorem faulted_plru : (faulted s c cw).plru = s.plru := rfl
@[simp] theorem faulted_mode : (faulted s c cw).mode = s.mode := rfl
@[simp] theorem faulted_requests : (faulted s c cw).requests = s.requests := rfl
@[simp] theorem faulted_hitsLru : (faulted s c cw).hitsLru = s.hitsLru := rfl
@[simp] theorem faulted_hitsPlru : (faulted s c cw).hitsPlru = s.hitsPlru := rfl
@[simp] theorem faulted_phase : (faulted s c cw).phase = .error := rfl
@[simp] theorem faulted_cause : (faulted s c cw).cause = c := rfl
@[simp] theorem faulted_info : (faulted s c cw).info = cw := rfl
@[simp] theorem faulted_started : (faulted s c cw).started = s.started := rfl
@[simp] theorem faulted_inputs : (faulted s c cw).inputs = s.inputs := rfl
@[simp] theorem faulted_responses : (faulted s c cw).responses = s.responses ++ [.word (faultWord c)] := rfl

/-- The fields of a fault's response word (R61). -/
theorem faultWord_fields : reservedOf (faultWord c) = 0#24 ∧ faultOf (faultWord c) = 1#1 ∧
    causeOf (faultWord c) = c.code ∧ phaseOf (faultWord c) = 2#2 ∧ hitLruOf (faultWord c) = 0#1 ∧
    hitPlruOf (faultWord c) = 0#1 ∧ rdataOf (faultWord c) = 0#32 := by
  simp [Phase.code]

variable {s}

theorem faultResponse_of_error (h : s.phase = .error) : faultResponse s = .word (faultWord s.cause) := by
  simp [faultResponse, h]

theorem raiseFault_phase (s : State) : (raiseFault c cw s).phase = .error := by
  by_cases h : s.phase = .error
  · rw [raiseFault_of_error s c cw h]
    exact h
  · rw [raiseFault_eq s c cw h]
    rfl

/-- No rate can be formed from a record given in phase ERROR (R123, R125). -/
theorem reportRecord_valid_of_error (h : s.phase = .error) : (reportRecord s).valid = false := by
  simp [reportRecord, h]

end Faulted

/-! ### What a command word ends in (R138, R139, R141) -/

section Commands

variable {cw : Word} {s : State}

theorem runCommand_of_decode {i : Instr} (hd : decode cw = .ok i) (s : State) : runCommand cw s = exec i s := by
  rw [runCommand, hd]

theorem runCommand_of_access {i : Instr} {a : Addr} {n : Nat} {value : Option Data} (hd : decode cw = .ok i)
    (hi : accessOf i = some (a, n, value)) (s : State) : runCommand cw s = .next (handle cw a n value s) := by
  rw [runCommand_of_decode hd, exec_of_access hi, encode_of_decode hd]

theorem runCommand_of_illegal (hp : s.phase ≠ .error) (hd : decode cw = .error .illegalCommand) :
    runCommand cw s = .next (faulted s .illegalCommand cw) := by
  rw [runCommand, hd, ← raiseFault_eq s _ _ hp]
  rfl

theorem runCommand_of_malformed (hp : s.phase = .run) (hd : decode cw = .error .malformedEvent) :
    runCommand cw s = .next (faulted s .malformedEvent cw) := by
  rw [runCommand, hd, ← raiseFault_eq s _ _ (by simp [hp])]
  simp [rejectWord, hp]

/-- The end of the run comes before the bad size (R139). -/
theorem runCommand_malformed_of_done (hp : s.phase = .done) (hd : decode cw = .error .malformedEvent) :
    runCommand cw s = .next (faulted s .protocol cw) := by
  rw [runCommand, hd, ← raiseFault_eq s _ _ (by simp [hp])]
  simp [rejectWord, hp]

/-- After the one FLUSH every command but REPORT is a Protocol fault (R138). -/
theorem exec_of_done (h : s.phase = .done) {i : Instr} (hi : ∀ z a d, i ≠ .report z a d) :
    exec i s = .next (faulted s .protocol (encode i)) := by
  cases i with
  | report z a d => exact absurd rfl (hi z a d)
  | flush z a d => exact exec_flush_of_done h z a d
  | _ => exact congrArg Host.Outcome.next (handle_of_done h)

/-- The same by the fields of the word: READ, WRITE and FLUSH, of whatever size (R138, R139). -/
theorem runCommand_of_done (h : s.phase = .done) (hr : rsvOf cw = 0#8) (ho : (opOf cw).toNat < 3) :
    runCommand cw s = .next (faulted s .protocol cw) := by
  by_cases hflush : (opOf cw).toNat = 2
  · have hd := decode_of_flush hr hflush
    rw [runCommand_of_decode hd, exec_flush_of_done h, encode_of_decode hd]
  have haccess : (opOf cw).toNat < 2 := by omega
  by_cases hz : Sys2Proof.sizeOf cw ∈ [1#3, 2#3, 4#3]
  · obtain ⟨i, value, hd, hi⟩ := decode_of_access hr haccess hz
    rw [runCommand_of_access hd hi, handle_of_done h]
  · exact runCommand_malformed_of_done h (decode_of_badSize hr haccess hz)

/-- In phase ERROR every command but REPORT is answered with the stored cause (R141). -/
theorem exec_of_error (h : s.phase = .error) {i : Instr} (hi : ∀ z a d, i ≠ .report z a d) :
    exec i s = .next (answerInError s) := by
  cases i with
  | report z a d => exact absurd rfl (hi z a d)
  | flush z a d => exact exec_flush_of_error h z a d
  | _ => exact congrArg Host.Outcome.next (handle_of_error h)

theorem rejectWord_of_error (h : s.phase = .error) (e : DecodeError) (cw : Word) :
    rejectWord e cw s = answerInError s := by
  cases e <;> simp [rejectWord, raiseFault_of_error s _ _ h]

theorem runCommand_of_report {z : BitVec 3} {a : Addr} {d : Data} (hd : decode cw = .ok (.report z a d)) (s : State) :
    runCommand cw s = .next (s.respond (.record (reportRecord s))) := by
  rw [runCommand_of_decode hd]
  rfl

/-- The same for every word that is no REPORT, command or not (R141). -/
theorem runCommand_of_error (h : s.phase = .error) (hrep : ¬∃ z a d, decode cw = .ok (.report z a d)) :
    runCommand cw s = .next (answerInError s) := by
  cases hd : decode cw with
  | error e => rw [runCommand, hd, ← rejectWord_of_error h e cw]
  | ok i =>
    rw [runCommand_of_decode hd]
    exact exec_of_error h fun z a d hi => hrep ⟨z, a, d, hi ▸ hd⟩

end Commands

/-! ### The execution of an access (R109, R135) -/

section Perform

variable {cw : Word} {a : Addr} {n : Nat} {value : Option Data} {s : State}

/-- The fault registers after an execution: as before, or those of an AgeOverflow (R135). -/
theorem perform_faultRegisters (h : s.phase = .run) :
    ((perform cw a n value s).phase = .run ∧ (perform cw a n value s).cause = s.cause ∧
      (perform cw a n value s).info = s.info) ∨
    ((perform cw a n value s).phase = .error ∧ (perform cw a n value s).cause = .ageOverflow ∧
      (perform cw a n value s).info = cw) := by
  cases hr : (afterLru a n value s).raised with
  | true =>
    right
    simp [perform_raised hr (show s.phase ≠ .error by simp [h])]
  | false =>
    left
    simp [perform_done hr, h]

/-- An execution gives one response, completed or cut short (R109, R137). -/
theorem perform_answers (h : s.phase = .run) : (perform cw a n value s).inputs = s.inputs ∧
    ∃ r, (perform cw a n value s).responses = s.responses ++ [r] := by
  cases hr : (afterLru a n value s).raised with
  | true => simp [perform_raised hr (show s.phase ≠ .error by simp [h])]
  | false => simp [perform_done hr]

end Perform

/-! ### The ways a command can end -/

/-- Everything a command word can do to the machine: be answered in phase ERROR, be refused before it changes any state,
report, flush, or be executed as an access. -/
inductive CommandEnd (cw : Word) (s : State) : State → Prop where
  | answered (h : s.phase = .error) (r : Response) : CommandEnd cw s (s.respond r)
  | refused (c : Cause) : CommandEnd cw s (faulted s c cw)
  | reported : CommandEnd cw s (s.respond (.record (reportRecord s)))
  | flushed : CommandEnd cw s (flushed s)
  | performed (h : s.phase = .run) (a : Addr) (n : Nat) (value : Option Data) : CommandEnd cw s (perform cw a n value s)

theorem handle_end {s : State} (hp : s.phase ≠ .error) (cw : Word) (a : Addr) (n : Nat) (value : Option Data) :
    CommandEnd cw s (handle cw a n value s) := by
  cases h : s.phase with
  | error => exact absurd h hp
  | done =>
    rw [handle_of_done h]
    exact .refused _
  | run =>
    rcases handle_cases (cw := cw) (a := a) (n := n) (value := value) h with e | e | ⟨-, -, e⟩ <;> rw [e]
    · exact .refused _
    · exact .refused _
    · exact .performed h ..

theorem exec_end {s : State} (hp : s.phase ≠ .error) (i : Instr) :
    ∃ t, exec i s = .next t ∧ CommandEnd (encode i) s t := by
  cases i with
  | report z a d => exact ⟨_, rfl, .reported⟩
  | flush z a d =>
    cases h : s.phase with
    | error => exact absurd h hp
    | done => exact ⟨_, exec_flush_of_done h .., .refused _⟩
    | run => exact ⟨_, exec_flush_of_run h .., .flushed⟩
  | _ => exact ⟨_, rfl, handle_end hp ..⟩

theorem rejectWord_end {s : State} (hp : s.phase ≠ .error) (e : DecodeError) (cw : Word) :
    CommandEnd cw s (rejectWord e cw s) := by
  cases e with
  | illegalCommand =>
    rw [rejectWord, raiseFault_eq s _ _ hp]
    exact .refused _
  | malformedEvent =>
    simp only [rejectWord, raiseFault_eq s _ _ hp]
    split <;> exact .refused _

/-- In phase ERROR the response is all a command changes (R141). -/
theorem runCommand_end_of_error {s : State} (h : s.phase = .error) (cw : Word) :
    ∃ r, runCommand cw s = .next (s.respond r) := by
  by_cases hrep : ∃ z a d, decode cw = .ok (.report z a d)
  · obtain ⟨z, a, d, hd⟩ := hrep
    exact ⟨_, runCommand_of_report hd s⟩
  · exact ⟨_, runCommand_of_error h hrep⟩

theorem runCommand_end (cw : Word) (s : State) : ∃ t, runCommand cw s = .next t ∧ CommandEnd cw s t := by
  by_cases hp : s.phase = .error
  · obtain ⟨r, hr⟩ := runCommand_end_of_error hp cw
    exact ⟨_, hr, .answered hp r⟩
  cases hd : decode cw with
  | ok i =>
    obtain ⟨t, ht, hend⟩ := exec_end hp i
    exact ⟨t, (runCommand_of_decode hd s).trans ht, encode_of_decode hd ▸ hend⟩
  | error e => exact ⟨_, by rw [runCommand, hd], rejectWord_end hp e cw⟩

/-- However it ends, a command gets exactly one response (R141). -/
theorem CommandEnd.answers {cw : Word} {s t : State} (h : CommandEnd cw s t) :
    t.inputs = s.inputs ∧ ∃ r, t.responses = s.responses ++ [r] := by
  cases h with
  | performed h a n value => exact perform_answers h
  | _ => exact ⟨rfl, _, rfl⟩

/-- A command that takes a fault other than AgeOverflow is refused before it changes any state (R140). -/
theorem CommandEnd.precise {cw : Word} {s t : State} (h : CommandEnd cw s t) (hs : s.phase ≠ .error)
    (ht : t.phase = .error) (hc : t.cause ≠ .ageOverflow) : t = faulted s t.cause cw := by
  cases h with
  | answered h r => exact absurd h hs
  | refused c => rfl
  | reported => exact absurd ht hs
  | flushed => exact absurd ht (by simp [Machine.flushed])
  | performed h a n value =>
    rcases perform_faultRegisters (cw := cw) (a := a) (n := n) (value := value) h with ⟨hrun, -⟩ | ⟨-, hage, -⟩
    · exact absurd ht (by simp [hrun])
    · exact absurd hage hc

end Sys2Proof.Machine
end

section
/-! The statements about faults (60_exceptions.md R128 to R142), from the ends of a command; the age limit (R135); and
the host's moves outside the commands (R130, R147, R157). -/

namespace Sys2Proof.Machine

/-! ### Fault entry (R129, R137) -/

/-- Settles O38: outside phase ERROR the fault is stored and answered, inside it the stored one is answered. -/
theorem faultEntryStoresTheFirstFault : Obligations.FaultEntryStoresTheFirstFault := by
  intro c info s
  have hvalid := reportRecord_valid_of_error (raiseFault_phase c info s)
  by_cases h : s.phase = .error
  · obtain ⟨hres, hflag, hcause, hphase, hlru, hplru, hdata⟩ := faultWord_fields s.cause
    refine ⟨faultWord s.cause, hres, hflag, hphase, hlru, hplru, hdata, fun hn => absurd h hn,
      fun _ => ⟨hcause, ?_⟩, hvalid⟩
    rw [raiseFault_of_error s c info h, answerInError, faultResponse_of_error h]
    rfl
  · obtain ⟨hres, hflag, hcause, hphase, hlru, hplru, hdata⟩ := faultWord_fields c
    exact ⟨faultWord c, hres, hflag, hphase, hlru, hplru, hdata,
      fun _ => ⟨hcause, raiseFault_eq s c info h⟩, fun he => absurd he h, hvalid⟩

/-- Settles O58: taking a fault stores its cause and answers with the code of it, and the codes are those of the
table. -/
theorem faultResponseCarriesItsTabledCode : Obligations.FaultResponseCarriesItsTabledCode := by
  refine ⟨rfl, rfl, fun s info hs p hp => ?_⟩
  have hcode : p.1.code = p.2 := by
    revert p
    decide
  rw [raiseFault_eq s _ _ hs]
  exact ⟨hcode, faultWord p.1, rfl, (causeOf_responseWord ..).trans hcode⟩

/-! ### The conditions one by one (R132 to R136, R138) -/

/-- Settles O39: a reserved word decodes to IllegalCommand. -/
theorem reservedWordsAreIllegal : Obligations.ReservedWordsAreIllegal := by
  intro s cw rest hin hs hword
  rw [step_command hin]
  exact runCommand_of_illegal hs (decode_of_reserved hword)

/-- Settles O40: a READ or WRITE of a bad size decodes to MalformedEvent. -/
theorem badSizeIsMalformed : Obligations.BadSizeIsMalformed := by
  intro s cw rest hin hrun hrsv hop hsize
  rw [step_command hin]
  exact runCommand_of_malformed hrun (decode_of_badSize hrsv hop hsize)

/-- Settles O41: the range check of Handle, and the sizes an access can have. -/
theorem eventPastTheTopFaults : Obligations.EventPastTheTopFaults := by
  intro i a n value s hi
  have hn := accessOf_size hi
  refine ⟨fun hrun htop => ?_, ?_⟩
  · rw [exec_of_access hi, handle_of_range hrun (by omega)]
  · have ha : a = 0x3FFFF#18 ↔ a.toNat = 262143 := BitVec.toNat_eq
    have := a.isLt
    rw [ha]
    omega

/-- Settles O42: the counter check of Handle; with an infinite width the access is executed, which takes AgeOverflow at
most. -/
theorem fullRequestCounterFaults : Obligations.FullRequestCounterFaults := by
  intro i a n value s hi hrun hr
  refine ⟨fun w hw hfull => ?_, fun hw => ?_⟩
  · rw [exec_of_access hi, handle_of_counter hrun hr (atLimit_iff.mpr ⟨w, hw, hfull⟩)]
  · have hroom : atLimit s.params.cntW s.requests = false := by rw [hw]; rfl
    refine ⟨_, exec_of_access hi s, ?_⟩
    rw [handle_of_passed hrun hr hroom]
    rcases perform_faultRegisters (cw := encode i) (a := a) (n := n) (value := value) hrun with
      ⟨-, hcause, -⟩ | ⟨-, hcause, -⟩
    · exact fun h => hcause ▸ h
    · exact fun h => absurd (hcause.symm.trans h) (by decide)

/-- Settles O44: the end of the run is checked before the operands of any command and before a bad size. -/
theorem commandsAfterFlushFault : Obligations.CommandsAfterFlushFault := by
  intro s hdone
  refine ⟨fun i hi => exec_of_done hdone hi, fun cw rest hin hd => ?_, fun _ _ _ => rfl⟩
  rw [step_command hin]
  exact runCommand_malformed_of_done hdone hd

/-! ### The age limit (R97, R135) -/

/-- The first sub-access of an event is at its own address (R43, R118). -/
theorem subAccesses_first (a : Addr) {n : Nat} (hn : 0 < n) (value : Option Data) :
    ∃ x xs, subAccesses a n value = x :: xs ∧ x.addr = a := by
  obtain ⟨m, rfl⟩ := Nat.exists_eq_succ_of_ne_zero hn.ne'
  refine ⟨_, _, by rw [subAccesses, List.range_succ_eq_map, List.map_cons], ?_⟩
  simp [byteAddr]

/-- An LRU turn is cut short by its first byte when another occupied way than the one it touches is at the limit. -/
theorem afterLru_raised_of_first {a : Addr} {n : Nat} {value : Option Data} {s : State} (hn : 0 < n)
    (he : enabled s.mode .lru = true) (hblocked : ageBlocked s.params.ageW (s.lru.block (decompose a).index)
      (accessWay (lruOps s.params.ageW) (s.lru.block (decompose a).index) (decompose a).tag)) :
    (afterLru a n value s).raised = true := by
  obtain ⟨x, xs, hxs, rfl⟩ := subAccesses_first a hn value
  obtain ⟨-, -, -, -, hraised⟩ := afterLru_on x.addr n value he
  rw [hraised, lruDrive, hxs, drive_cons_raised _ _ _ _ ((byteAccess_lru_raised ..).mpr hblocked)]

/-- Settles O43: the turn that is cut short counts no hit, and the pseudo-LRU array has no turn after it. -/
theorem ageAtItsLimitEndsTheCommand : Obligations.AgeAtItsLimitEndsTheCommand := by
  intro i a n value s k v hi ha he hk B u hvu hocc hage
  have hn : 0 < n := by
    have := accessOf_size hi
    omega
  have hblocked : ageBlocked s.params.ageW B (accessWay (lruOps s.params.ageW) B (decompose a).tag) := by
    rw [hk]
    exact ⟨v, hvu, (occupied_iff B v).mpr hocc, atLimit_iff.mpr ⟨k, rfl, hage⟩⟩
  have hraised := afterLru_raised_of_first (value := value) hn he hblocked
  have hexec : exec i s = .next (faulted (afterLru a n value s).state .ageOverflow (encode i)) := by
    rw [exec_of_access hi, handle_of_admitted ha, perform_raised hraised (by simp [ha.running])]
  obtain ⟨hres, hflag, hcause, hphase, hlru, hplru, hdata⟩ := faultWord_fields .ageOverflow
  refine ⟨_, faultWord .ageOverflow, hexec, rfl, rfl, rfl, by simp, hres, hflag, hcause, hphase, hlru, hplru, hdata, ?_⟩
  simp [runLru_hit_of_raised _ _ hraised]

/-! ### The order of the conditions, and what every command keeps (R139 to R141) -/

/-- A step answers one next state. -/
theorem next_unique {o : Host.Outcome State Fault Refusal} {t t' : State} (h : o = .next t) (h' : o = .next t') :
    t = t' :=
  Host.Outcome.next.inj (h.symm.trans h')

/-- The chain of the conditions of R139 for a READ or WRITE in phase RUN, from MalformedEvent on. -/
theorem access_reports_first {cw : Word} {s t : State} (hrun : s.phase = .run) (hr : rsvOf cw = 0#8)
    (ho : (opOf cw).toNat < 2) (ht : runCommand cw s = .next t) :
    if (Sys2Proof.sizeOf cw).toNat ≠ 1 ∧ (Sys2Proof.sizeOf cw).toNat ≠ 2 ∧ (Sys2Proof.sizeOf cw).toNat ≠ 4 then
      t = faulted s .malformedEvent cw
    else if 262143 < (addrOf cw).toNat + (Sys2Proof.sizeOf cw).toNat - 1 then t = faulted s .addressRange cw
    else if ∃ w, s.params.cntW = some w ∧ s.requests = 2 ^ w - 1 then t = faulted s .counterOverflow cw
    else (t.phase ≠ .error ∧ t.cause = s.cause ∧ t.info = s.info) ∨
      (t.phase = .error ∧ t.cause = .ageOverflow ∧ t.info = cw) := by
  have hlegal := size_legal_iff (Sys2Proof.sizeOf cw)
  split_ifs with hsize hrange hcount
  · have hbad : Sys2Proof.sizeOf cw ∉ [1#3, 2#3, 4#3] := by rw [hlegal]; omega
    exact next_unique ht (runCommand_of_malformed hrun (decode_of_badSize hr ho hbad))
  all_goals
    obtain ⟨i, value, hd, hi⟩ := decode_of_access hr ho (hlegal.mpr (by omega))
    obtain rfl := next_unique ht (runCommand_of_access hd hi s)
  · exact handle_of_range hrun (by omega)
  · exact handle_of_counter hrun (by omega) (atLimit_iff.mpr hcount)
  · rw [handle_of_passed hrun (by omega) (Bool.eq_false_iff.mpr (mt atLimit_iff.mp hcount))]
    exact (perform_faultRegisters hrun).imp_left fun ⟨hp, h⟩ => ⟨by simp [hp], h⟩

/-- FLUSH in phase RUN and REPORT take no fault (R120, R123). -/
theorem plainCommand_takes_no_fault {cw : Word} {s t : State} (hp : s.phase ≠ .error) (hr : rsvOf cw = 0#8)
    (ho : (opOf cw).toNat = 2 ∧ s.phase = .run ∨ (opOf cw).toNat = 3) (ht : runCommand cw s = .next t) :
    t.phase ≠ .error ∧ t.cause = s.cause ∧ t.info = s.info := by
  rcases ho with ⟨ho, hrun⟩ | ho
  · have hflush := (runCommand_of_decode (decode_of_flush hr ho) s).trans (exec_flush_of_run hrun ..)
    rw [next_unique ht hflush]
    exact ⟨by simp [flushed], rfl, rfl⟩
  · rw [next_unique ht (runCommand_of_report (decode_of_report hr ho) s)]
    exact ⟨hp, rfl, rfl⟩

/-- Settles O45: one condition after the other, in the order of R139. -/
theorem firstConditionInOrderIsReported : Obligations.FirstConditionInOrderIsReported := by
  intro s cw rest hin s' op size addr
  obtain ⟨t, ht, -⟩ := runCommand_end cw s'
  refine ⟨t, (step_command hin).trans ht, ?_⟩
  by_cases herr : s.phase = .error
  · obtain ⟨r, hanswer⟩ := runCommand_end_of_error (s := s') herr cw
    rw [if_pos herr, next_unique ht hanswer]
    exact ⟨herr, rfl, rfl⟩
  rw [if_neg herr]
  by_cases hill : cw.extractLsb' 56 8 ≠ 0#8 ∨ 4 ≤ op
  · rw [if_pos hill]
    exact next_unique ht (runCommand_of_illegal herr (decode_of_reserved hill))
  rw [if_neg hill]
  push Not at hill
  obtain ⟨hr, hop⟩ := hill
  by_cases hdone : op ≠ 3 ∧ s.phase = .done
  · rw [if_pos hdone]
    exact next_unique ht (runCommand_of_done hdone.2 hr (show op < 3 by omega))
  rw [if_neg hdone]
  have hrun : op ≠ 3 → s.phase = .run := fun h => by
    cases hp : s.phase with
    | run => rfl
    | done => exact absurd ⟨h, hp⟩ hdone
    | error => exact absurd hp herr
  by_cases haccess : op < 2
  · have hchain := access_reports_first (s := s') (hrun (by omega)) hr haccess ht
    simp only [haccess, true_and]
    exact hchain
  · simp only [haccess, false_and, if_false]
    refine .inl (plainCommand_takes_no_fault (s := s') herr hr ?_ ht)
    rcases (show op = 2 ∨ op = 3 by omega) with h | h
    · exact .inl ⟨h, hrun (by omega)⟩
    · exact .inr h

/-- Settles O46: no end of a command but AgeOverflow leads to phase ERROR after a change of state. -/
theorem faultsButAgeOverflowArePrecise : Obligations.FaultsButAgeOverflowArePrecise := by
  intro s t cw rest hin ht hs hp hc
  obtain ⟨t', ht', hend⟩ := runCommand_end cw { s with inputs := rest, started := true }
  cases next_unique ((step_command hin).symm.trans ht) ht'
  exact hend.precise hs hp hc

/-- Settles O48: every way a command can end gives one response. -/
theorem everyCommandGetsOneResponse : Obligations.EveryCommandGetsOneResponse := by
  intro s cw rest hin
  obtain ⟨t, ht, hend⟩ := runCommand_end cw { s with inputs := rest, started := true }
  obtain ⟨hinputs, r, hr⟩ := hend.answers
  exact ⟨t, r, (step_command hin).trans ht, hinputs, hr⟩

theorem step_load {s : State} {a : Addr} {v : Byte} {rest : List HostInput} (h : s.inputs = .load a v :: rest) :
    step s = if s.mayLoad then .next ({ s with inputs := rest }.load a v) else .fault .hostWroteMem := by
  simp [step, h, State.popInput]

/-- Only a reset leads out of phase ERROR (R141, R142). -/
theorem step_stays_in_error {s t : State} (h : s.phase = .error) (ht : step s = .next t)
    (hreset : ∀ m rest, s.inputs ≠ .reset m :: rest) : t.phase = .error := by
  cases hin : s.inputs with
  | nil =>
    simp only [step, hin] at ht
    cases ht
    exact h
  | cons move rest =>
    cases move with
    | command cw =>
      obtain ⟨r, hr⟩ := runCommand_end_of_error (s := { s with inputs := rest, started := true }) h cw
      cases next_unique ((step_command hin).symm.trans ht) hr
      exact h
    | reset m => exact absurd hin (hreset m rest)
    | load a v =>
      rw [step_load hin] at ht
      split at ht
      · cases ht
        exact h
      · cases ht

/-- Settles O47: REPORT is answered with the record, any other word with the stored cause. -/
theorem errorPhaseAnswersAndStays : Obligations.ErrorPhaseAnswersAndStays := by
  intro s h
  refine ⟨fun cw rest hin => ?_, fun t ht => ?_⟩
  · rw [step_command hin]
    by_cases hrep : ∃ z a d, decode cw = .ok (.report z a d)
    · simp only [if_pos hrep]
      obtain ⟨z, a, d, hd⟩ := hrep
      exact ⟨_, runCommand_of_report hd _, _, rfl, reportRecord_valid_of_error h, h, rfl⟩
    · simp only [if_neg hrep]
      refine ⟨_, runCommand_of_error h hrep, faultWord s.cause, faultResponse_of_error h, faultWord_fields s.cause⟩
  · by_contra hne
    push Not at hne
    exact hne.1 (step_stays_in_error h ht hne.2)

/-! ### The host's moves outside the commands -/

theorem ofCode_code : ∀ m : BitVec 2, (Mode.ofCode m).code = m := by decide

theorem ofCode_unrecognised_iff : ∀ m : BitVec 2, Mode.ofCode m = .unrecognised ↔ m = 3#2 := by decide

/-- The modes that enable each array, by their codes (R9, R63). -/
theorem enabled_ofCode : ∀ m : BitVec 2,
    (enabled (Mode.ofCode m) .lru = true ↔ m = 0#2 ∨ m = 1#2) ∧
      (enabled (Mode.ofCode m) .plru = true ↔ m = 0#2 ∨ m = 2#2) := by decide

/-- Settles O50: the two outcomes of the release of reset. -/
theorem unrecognisedModeIsAConfigError : Obligations.UnrecognisedModeIsAConfigError := by
  intro s rest
  refine ⟨fun hin => ?_, fun m hm hin => ?_⟩
  · refine ⟨_, step_reset hin, ?_⟩
    rw [resetRelease_eq, if_pos ((ofCode_unrecognised_iff _).mpr rfl)]
    exact ⟨rfl, rfl, rfl, rfl, rfl, fun _ => rfl, rfl⟩
  · refine ⟨_, step_reset hin, ?_⟩
    rw [resetRelease_eq, if_neg (mt (ofCode_unrecognised_iff m).mp hm)]
    exact ⟨rfl, ofCode_code m, enabled_ofCode m⟩

theorem mayLoad_iff (s : State) : s.mayLoad = true ↔ s.started = false ∨ s.phase ≠ .run := by
  simp [State.mayLoad]

/-- Settles O52: the idle step, the load that is allowed and the load that is not. -/
theorem hostMovesOutsideTheCommands : Obligations.HostMovesOutsideTheCommands := by
  intro s
  refine ⟨fun hin => by simp [step, hin], fun a v rest hin => ⟨fun hmay => ?_, fun hstarted hrun => ?_⟩⟩
  · refine ⟨_, (step_load hin).trans (if_pos ((mayLoad_iff s).mpr hmay)), rfl, fun hwf => ?_⟩
    exact ⟨Memory.write_wf hwf a.isLt v, Memory.read_write hwf a.toNat v⟩
  · refine (step_load hin).trans (if_neg ?_)
    simp [mayLoad_iff, hstarted, hrun]

end Sys2Proof.Machine
end

section
/-! What only a reset undoes (70_reset_and_hazards.md R148, R150): occupancies and counters never go down, the mode and
the parameters stay, and phase RUN is not entered again, whatever other move the host makes. -/

namespace Sys2Proof.Machine

/-! ### Occupancy (R81, R83) -/

theorem byteAccess_occ_le {ρ : Type} {pol : PolicyOps ρ} (hp : TouchOnly pol) (x : SubAccess) (arr : CacheArray ρ)
    (m : Memory) (k : Index) : (arr.block k).occ ≤ ((byteAccess pol x arr m).arr.block k).occ := by
  by_cases hk : k = (decompose x.addr).index
  · subst hk
    rw [byteAccess_occ hp]
    split <;> omega
  · rw [byteAccess_block_ne x arr m hk]

/-- No event empties a way, whether it is cut short or not (R83, R135). -/
theorem drive_occ_le {ρ : Type} {pol : PolicyOps ρ} (hp : TouchOnly pol) (xs : List SubAccess) (arr : CacheArray ρ)
    (m : Memory) (k : Index) : (arr.block k).occ ≤ ((drive pol xs arr m).arr.block k).occ :=
  drive_keeps (fun arr' _ => (arr.block k).occ ≤ (arr'.block k).occ) xs
    (fun x _ arr' m' h => h.trans (byteAccess_occ_le hp x arr' m' k)) arr m le_rfl

/-! ### The order between states that every move but a reset respects -/

/-- From `s` to `t` nothing happened that only a reset does (R148): no block lost a way, no counter went down, the mode
and the parameters stayed, and a run that had ended did not begin again. -/
structure Onward (s t : State) : Prop where
  lruOcc : ∀ k, (s.lru.block k).occ ≤ (t.lru.block k).occ
  plruOcc : ∀ k, (s.plru.block k).occ ≤ (t.plru.block k).occ
  requests : s.requests ≤ t.requests
  hitsLru : s.hitsLru ≤ t.hitsLru
  hitsPlru : s.hitsPlru ≤ t.hitsPlru
  mode : t.mode = s.mode
  params : t.params = s.params
  ended : s.phase ≠ .run → t.phase ≠ .run

namespace Onward

variable {s t u : State}

theorem refl (s : State) : Onward s s :=
  ⟨fun _ => le_rfl, fun _ => le_rfl, le_rfl, le_rfl, le_rfl, rfl, rfl, id⟩

theorem trans (h : Onward s t) (h' : Onward t u) : Onward s u where
  lruOcc k := (h.lruOcc k).trans (h'.lruOcc k)
  plruOcc k := (h.plruOcc k).trans (h'.plruOcc k)
  requests := h.requests.trans h'.requests
  hitsLru := h.hitsLru.trans h'.hitsLru
  hitsPlru := h.hitsPlru.trans h'.hitsPlru
  mode := h'.mode.trans h.mode
  params := h'.params.trans h.params
  ended hp := h'.ended (h.ended hp)

/-- `MEM` and the host's ports are free: the order does not speak of them. -/
theorem withMemAndPorts (h : Onward s t) (mem : Memory) (started : Bool) (inputs : List HostInput)
    (responses : List Response) :
    Onward s { t with mem := mem, started := started, inputs := inputs, responses := responses } where
  __ := h

theorem respond (h : Onward s t) (r : Response) : Onward s (t.respond r) := h.withMemAndPorts ..

/-- A fault changes the fault registers only, and leads to phase ERROR (R137). -/
theorem faulted (h : Onward s t) (c : Cause) (cw : Word) : Onward s (faulted t c cw) where
  __ := h
  ended _ := by simp

end Onward

/-! ### The commands -/

theorem countRequest_onward (s : State) : Onward s s.countRequest where
  __ := Onward.refl s
  requests := Nat.le_succ _

theorem runLru_onward (xs : List SubAccess) (s : State) : Onward s (runLru xs s).state where
  lruOcc k := by
    unfold runLru
    split
    · exact drive_occ_le (lruOps_touchOnly _) xs s.lru s.mem k
    · exact le_rfl
  plruOcc k := by simp
  requests := by simp
  hitsLru := by simp
  hitsPlru := by simp
  mode := by simp
  params := by simp
  ended := by simp

theorem runPlru_onward (xs : List SubAccess) (s : State) : Onward s (runPlru xs s).state where
  lruOcc k := by simp
  plruOcc k := by
    unfold runPlru
    split
    · exact drive_occ_le plruOps_touchOnly xs s.plru s.mem k
    · exact le_rfl
  requests := by simp
  hitsLru := by simp
  hitsPlru := by simp
  mode := by simp
  params := by simp
  ended := by simp

/-- The execution of an access, whether AgeOverflow cuts it short or not (R109, R135). -/
theorem perform_onward {s : State} (hrun : s.phase = .run) (cw : Word) (a : Addr) (n : Nat) (value : Option Data) :
    Onward s (perform cw a n value s) := by
  have hlru : Onward s (afterLru a n value s).state := (countRequest_onward s).trans (runLru_onward ..)
  cases hraised : (afterLru a n value s).raised with
  | true =>
    rw [perform_raised hraised (by simp [hrun])]
    exact hlru.faulted ..
  | false =>
    rw [perform_done hraised]
    exact (hlru.trans (runPlru_onward ..)).respond _

theorem flushed_onward (s : State) : Onward s (flushed s) where
  __ := Onward.refl s
  ended _ := by simp [flushed]

theorem CommandEnd.onward {cw : Word} {s t : State} (h : CommandEnd cw s t) : Onward s t := by
  cases h with
  | answered h r => exact (Onward.refl s).respond r
  | refused c => exact (Onward.refl s).faulted c cw
  | reported => exact (Onward.refl s).respond _
  | flushed => exact flushed_onward s
  | performed hrun a n value => exact perform_onward hrun cw a n value

/-! ### The step -/

theorem step_onward {s t : State} (hreset : ∀ m rest, s.inputs ≠ .reset m :: rest) (ht : step s = .next t) :
    Onward s t := by
  cases hin : s.inputs with
  | nil =>
    simp only [step, hin] at ht
    cases ht
    exact .refl s
  | cons move rest =>
    cases move with
    | command cw =>
      obtain ⟨t', ht', hend⟩ := runCommand_end cw { s with inputs := rest, started := true }
      cases next_unique ((step_command hin).symm.trans ht) ht'
      exact ((Onward.refl s).withMemAndPorts ..).trans hend.onward
    | reset m => exact absurd hin (hreset m rest)
    | load a v =>
      rw [step_load hin] at ht
      split at ht
      · cases ht
        exact (Onward.refl s).withMemAndPorts ..
      · cases ht

/-- The release of reset in a recognised mode is the cleared state (R130, R148). -/
theorem step_reset_recognised {s : State} {m : BitVec 2} {rest : List HostInput} (hin : s.inputs = .reset m :: rest)
    (hm : m ≠ 3#2) : step s = .next (({ s with inputs := rest } : State).cleared (Mode.ofCode m)) := by
  rw [step_reset hin, resetRelease_eq, if_neg (mt (ofCode_unrecognised_iff m).mp hm)]

/-- Settles O49: a reset leaves the cleared state, and every other step goes onward. -/
theorem resetAndOnlyResetStartsAfresh : Obligations.ResetAndOnlyResetStartsAfresh := by
  refine ⟨fun s m rest hin hm => ?_, fun s t hreset ht => ?_⟩
  · refine ⟨_, step_reset_recognised hin hm, atReset_occ 0, atReset_occ false, fun k w => ?_, rfl, rfl, rfl, rfl, rfl,
      rfl, ofCode_code m, rfl, rfl, rfl, rfl⟩
    exact congrArg Line.recency (atReset_line false k w)
  · obtain ⟨hlruOcc, hplruOcc, hrequests, hhitsLru, hhitsPlru, hmode, hparams, hended⟩ := step_onward hreset ht
    exact ⟨hlruOcc, hplruOcc, hrequests, hhitsLru, hhitsPlru, hmode, hparams, fun hdone => hended (by simp [hdone]),
      fun herror => step_stays_in_error herror ht hreset⟩

end Sys2Proof.Machine
end
